-- ==== Sys2Proof/Word.lean ====
section
/-! DEFINITION. The word types of the block and the fixed names of 00_scope.md: bytes, the 16-bit
address, 32-bit quantities, one 512-byte sector, the seven mapper kinds, the two strobes and the
driver's `Status`. All quantities are unsigned (rule R9). -/

namespace Sys2Proof

/-- One byte: the 8 data lines, a bank register, a port register (rules R7, R9). -/
abbrev Byte := BitVec 8

/-- The 16 address lines, and the `u16` fields of rule R33. -/
abbrev Half := BitVec 16

/-- The `u32` fields of rules R26, R33 and R107. -/
abbrev Word := BitVec 32

/-- Bytes per sector, and the size of `blockBuffer` (rule R7, `SECTOR_BYTES`). -/
abbrev sectorBytes : Nat := 512

/-- Bytes per configuration record (rule R7, `RECORD_BYTES`). -/
abbrev recordBytes : Nat := 29

/-- Bytes of a record's `name` (rule R7, `NAME_BYTES`). -/
abbrev nameBytes : Nat := 20

/-- The most records a table holds (rule R7, `MAX_RECORDS`). -/
abbrev maxRecords : Nat := 256

/-- Length of the menu-ROM region of the combined image (rules R7, R251, `MENU_BYTES`). -/
abbrev menuBytes : Nat := 0x8000

/-- Exactly one sector's bytes (rule R64: "exactly 512 bytes"). -/
abbrev Block := Vector Byte sectorBytes

/-- The seven mapper kinds (rule R26; Linear0_48K and Linear0 are one kind, rule R101). -/
inductive MapperKind where
  | plain16 | plain32 | linear0 | konami | konamiScc | ascii8 | ascii16
deriving DecidableEq, Repr

/-- The two strobes a controller phase can be bound to (rule R22). -/
inductive Strobe where
  | rd | wr
deriving DecidableEq, Repr

/-- What a status-returning driver call answers (rule R70). -/
inductive Status where
  | ok | err
deriving DecidableEq, Repr, Inhabited

end Sys2Proof
end

