-- ==== Sys2Proof/Config.lean ====
section
/-! DEFINITION. What an implementation fixes and what the environment chooses. `Params` is the
parameter list of rule R8; the `opaque` constants below have no body, so no proof can see a value:
they are the model's free values (the draws of rule R11 and of 93_implementation_defined.md), the
open parameters of the one machine that `State.reset` describes, and the unconstrained inputs of
the agents of rule R80. -/

namespace Sys2Proof

/-- `BANK_INIT(kind, i)` for the four banked kinds (rules R8, R31): what each bank register holds right
after a selection. "`BANK_INIT` is a parameter so that a model can be re-run with another table". -/
structure BankInit where
  konamiScc : Vector Byte 4
  konami : Vector Byte 4
  ascii8 : Vector Byte 4
  ascii16 : Vector Byte 2
deriving DecidableEq, Repr

/-- `BANK_INIT(kind, i) = i`, the value rules R8 and R31 give. -/
def BankInit.identity : BankInit where
  konamiScc := #v[0#8, 1#8, 2#8, 3#8]
  konami := #v[0#8, 1#8, 2#8, 3#8]
  ascii8 := #v[0#8, 1#8, 2#8, 3#8]
  ascii16 := #v[0#8, 1#8]

/-- The parameters of rule R8. They are fixed for a run (rule R20); the state carries them
unchanged, so that a claim over all states is a claim over all parameters. -/
structure Params where
  /-- `PORT_CTRL` (rules R8, R62). -/
  portCtrl : Byte
  /-- `PORT_DATA` (rules R8, R62); `PORT_CTRL != PORT_DATA`. -/
  portData : Byte
  /-- `USE_WAIT` (rules R8, R131). -/
  useWait : Bool
  /-- `BUSDIR_ACTIVE_LEVEL`: the electrical level that "asserted" means, true for high (rule R24). -/
  busdirActiveLevel : Bool
  /-- `KONAMI_TRIG_W` (rules R8, R161): false for the default `0x800`, true for `0x2000`. -/
  konamiWide : Bool
  /-- `BANK_INIT` (rules R8, R31). -/
  bankInit : BankInit
  /-- `STORE_CAPACITY` in bytes (rules R8, R32). -/
  storeCapacity : Nat
  /-- `FW_SIZE`: length of the firmware image that precedes the menu region (rules R8, R251). -/
  fwSize : Nat
  /-- `CTRL_RESET` (rules R8, R41). -/
  ctrlReset : Byte
  /-- `DATA_RESET` (rules R8, R41). -/
  dataReset : Byte
  /-- `DEVICE_ID` (rules R8, R203). -/
  deviceId : Word
  /-- `DEVICE_SERIAL` (rules R8, R204). -/
  deviceSerial : Word
deriving DecidableEq, Repr

/-- Levels of the input lines of the cartridge edge (rule R120); `true` is high, so an active-low
line is asserted when its field is `false`. -/
structure Lines where
  addr : Half
  data : Byte
  sltslN : Bool
  rdN : Bool
  wrN : Bool
  iorqN : Bool
deriving DecidableEq, Repr, Inhabited

/-- A write of the second task to the shared flag, on its way to the primary loop: the record index,
and for how many more instants the loop does not see it, a finite number (rules R45, R75, U16). -/
structure FlagWrite where
  value : Nat
  delay : Nat
deriving DecidableEq, Repr, Inhabited

/-- What the agents outside the primary loop do at one instant (rules R80, R75): the levels the
host puts on the edge, what the second task writes to the shared flag (`none`: nothing), and for how
many further instants a driver call or a selection that begins now lasts. -/
structure Instant where
  lines : Lines
  flagWrite : Option FlagWrite
  busy : Nat
deriving DecidableEq, Repr, Inhabited

/-- One answer of the block-storage driver (rules R70, R71): a `Status`, 512 bytes, a count; each
call uses the parts its signature has. -/
structure Reply where
  status : Status
  data : Block
  count : Word
deriving DecidableEq, Repr, Inhabited

namespace Config

/-! ### Free values -/

/-- The byte driven by a claimed read whose offset is outside the image: "a new draw at every such
read" (rule R168, U1). Applied to the state's draw counter. DEDUCED, log entry 10. -/
opaque pastImage : Nat → Byte

/-- The driver's answer when the environment's list of answers is empty: any status, any 512 bytes,
any count (rule R71, U8). Applied to the state's draw counter. DEDUCED, log entry 6. -/
opaque driverReply : Nat → Reply

/-- What `blockBuffer` holds after a sector read that failed (rule R213, U4). Applied to the
state's draw counter. DEDUCED, log entry 5. -/
opaque staleBlock : Nat → Block

/-- A byte of the combined image beyond what persistent storage holds: "a draw per byte, fixed for
a run" (rule R259, U13). Applied to the offset. DEDUCED, log entry 9. -/
opaque imgByte : Nat → Byte

/-- What the environment does at an instant for which the state lists nothing (rule R80: the host
is unconstrained). Applied to the number of instants elapsed. DEDUCED, log entry 4. -/
opaque instant : Nat → Instant

/-- The records the environment selects during the boot of the machine `State.reset` describes:
"zero or more Select(n), n chosen by the environment" (rules R261, R302). DEDUCED, log entry 2. -/
opaque bootSelects : List Nat

/-- What reading `blockBuffer` past its end would give; the cursor never points there while a byte is
pending (rule R47, item 6). Applied to the cursor. DESIGN CHOICE, log entry 25. -/
opaque pastBuffer : Nat → Byte

/-- What reading a bank register the kind does not have would give; the register file always has
one register a slot (rule R47, item 2). Applied to the register's number. DESIGN CHOICE, log entry
25. -/
opaque missingRegister : Nat → Byte

/-- `blockBuffer` at reset: unspecified (rules R40, R46, U4). DEDUCED, log entry 5. -/
opaque blockReset : Block

/-! ### The parameters of the one machine that `State.reset` describes -/

opaque portCtrl : Byte

/-- `PORT_DATA` is `PORT_CTRL + 1 + portGap`, which reaches every other port and never
`PORT_CTRL` itself. -/
opaque portGap : Fin 255

opaque useWait : Bool
opaque busdirActiveLevel : Bool
opaque konamiWide : Bool
opaque storeCapacity : Nat
opaque fwSize : Nat
opaque ctrlReset : Byte
opaque dataReset : Byte
opaque deviceId : Word
opaque deviceSerial : Word

/-- The parameters of the machine that `State.reset` describes: `BANK_INIT` as rule R8 gives it, the
open ones each without a known value. DESIGN CHOICE, log entry 3. -/
def params : Params where
  portCtrl := portCtrl
  portData := portCtrl + 1#8 + BitVec.ofNat 8 portGap.val
  useWait := useWait
  busdirActiveLevel := busdirActiveLevel
  konamiWide := konamiWide
  bankInit := .identity
  storeCapacity := storeCapacity
  fwSize := fwSize
  ctrlReset := ctrlReset
  dataReset := dataReset
  deviceId := deviceId
  deviceSerial := deviceSerial

/-- `ID_LEN` and `SERIAL_LEN` (rule R8): both 4 (log entry 22). -/
def idLen : Nat := 4

end Config
end Sys2Proof
end

