-- ==== Sys2Proof/Syntax.lean ====
section
/-! DEFINITION. The operation list of rule R111: one constructor for each of the 59 rows of
spec/opcode_table.json, and the three records operations speak about. The block executes no
instruction stream (rule R3): its operations are the controller's primitives, the host's bus
cycles, the rows a bus cycle refines to, the bytes of a storage command, the status values, the
mapper codes of a record, and the two table operations. -/

namespace Sys2Proof

/-- The document's `BusCycle`: "an immutable snapshot of one sampling instant" (rule R91). -/
structure BusCycle where
  address : Half
  data : Byte
  isRead : Bool
  isWrite : Bool
  chipSelected : Bool
  ioRequest : Bool
deriving DecidableEq, Repr

/-- The document's `RomRecord` (rule R107). `name` has 20 bytes. -/
structure RomRecord where
  name : List Byte
  mapper : Byte
  size : Word
  offset : Word
deriving DecidableEq, Repr

/-- One operation of the hardware (rule R111). A `BUS28` row keeps every bit of its word that the
row does not fix: the two address parts, the data byte (unspecified in a read, rule R93) and the
control bits the row does not compare. -/
inductive Instr where
  -- controller primitives (40_bus_cycle.md R125 to R131)
  | sample
  | drive (value : Byte)
  | poll (strobe : Strobe)
  | release
  | hold
  | wait (busy : Bool)
  -- bus cycle kinds (R92, R123)
  | memrd (address : Half) (data : Byte)
  | memwr (address : Half) (data : Byte)
  | iord (chipSelected : Bool) (address : Half) (data : Byte)
  | iowr (chipSelected : Bool) (address : Half) (data : Byte)
  | nostb (chipSelected ioRequest : Bool) (address : Half) (data : Byte)
  | both (chipSelected ioRequest : Bool) (address : Half) (data : Byte)
  | nosel (isRead : Bool) (address : Half) (data : Byte)
  -- mapper read, per kind (41_mapper.md R153 to R159)
  | rdPlain16 (address : Half) (data : Byte)
  | rdPlain32 (address : Half) (data : Byte)
  | rdLinear0 (address : Half) (data : Byte)
  | rdKonamiScc (address : Half) (data : Byte)
  | rdKonami (address : Half) (data : Byte)
  | rdAscii8 (address : Half) (data : Byte)
  | rdAscii16 (address : Half) (data : Byte)
  -- mapper trigger write, per kind and register (R160 to R163)
  | bankKonamiScc0 (address : Half) (data : Byte)
  | bankKonamiScc1 (address : Half) (data : Byte)
  | bankKonamiScc2 (address : Half) (data : Byte)
  | bankKonamiScc3 (address : Half) (data : Byte)
  | bankKonami1 (address : Half) (data : Byte)
  | bankKonami2 (address : Half) (data : Byte)
  | bankKonami3 (address : Half) (data : Byte)
  | bankAscii80 (address : Half) (data : Byte)
  | bankAscii81 (address : Half) (data : Byte)
  | bankAscii82 (address : Half) (data : Byte)
  | bankAscii83 (address : Half) (data : Byte)
  | bankAscii160 (address : Half) (data : Byte)
  | bankAscii161 (address : Half) (data : Byte)
  -- port operations (R94, 42_storage_bridge.md R192, R193, R199, R200)
  | ctlrd (chipSelected : Bool) (addressHigh : Byte) (data : Byte)
  | ctlwr (chipSelected : Bool) (addressHigh : Byte) (data : Byte)
  | datrd (chipSelected : Bool) (addressHigh : Byte) (data : Byte)
  | datwr (chipSelected : Bool) (addressHigh : Byte) (data : Byte)
  -- storage opcodes (R95, R201 to R212)
  | init
  | present
  | getid
  | getser
  | getcap
  | rdsec
  | rdnext
  | wrsec
  | unrec (op : Byte)
  -- storage sequence steps (R207, R208)
  | addr (value : Byte)
  | go
  -- status values (R100)
  | stOk
  | stErr
  -- mapper codes, with the rest of the record they stand in (R101, R107, R150)
  | kindPlain16 (name : List Byte) (size offset : Word)
  | kindPlain32 (name : List Byte) (size offset : Word)
  | kindKonamiScc (name : List Byte) (size offset : Word)
  | kindLinear0 (name : List Byte) (size offset : Word)
  | kindAscii8 (name : List Byte) (size offset : Word)
  | kindAscii16 (name : List Byte) (size offset : Word)
  | kindKonami (name : List Byte) (size offset : Word)
  -- table (43_config_table.md R253, R258)
  | readtable (base : Nat)
  | select (n : Nat)
deriving DecidableEq, Repr

end Sys2Proof
end

