-- ==== Sys2Proof/Machine/Bytes.lean ====
section
/-! DEFINITION. Byte order and the packing of a bus cycle, decided once: every multi-byte quantity
is little-endian (rule R63), and `BUS28` is `ctl ++ address ++ data` (rule R90). -/

namespace Sys2Proof.Machine

/-- Byte `j` of a 32-bit value: bits `8j+7 : 8j`. -/
def byteOf (v : Word) (j : Nat) : Byte := v.extractLsb' (8 * j) 8

/-- The four bytes of a 32-bit value, least significant first (rule R105). -/
def leBytes (v : Word) : List Byte := [byteOf v 0, byteOf v 1, byteOf v 2, byteOf v 3]

/-- A byte moved to position `j` of a 32-bit value: `zext_32(v) << (8*j)` (rules R104, R207). -/
def byteAt (v : Byte) (j : Nat) : Word := v.setWidth 32 <<< (8 * j)

/-- Four bytes, first least significant, as a 32-bit value (rules R104, R107). -/
def leWord (b0 b1 b2 b3 : Byte) : Word := byteAt b0 0 ||| byteAt b1 1 ||| byteAt b2 2 ||| byteAt b3 3

/-- `address[7:0]`, the part of an I/O address that is compared (rule R62). -/
def portOf (address : Half) : Byte := address.extractLsb' 0 8

/-- `address[15:8]`, the part of an I/O address that is not compared (rule R62). -/
def portHigh (address : Half) : Byte := address.extractLsb' 8 8

/-- The address `high ++ port` (rule R94). -/
def ioAddress (high port : Byte) : Half := high ++ port

/-- A bus cycle as a `BUS28` word (rules R90, R91): chip-select is bit 27, I/O-request 26,
read 25, write 24, address 23:8, data 7:0. -/
def busWord (c : BusCycle) : BitVec 28 :=
  BitVec.ofBool c.chipSelected ++ BitVec.ofBool c.ioRequest ++ BitVec.ofBool c.isRead ++
    BitVec.ofBool c.isWrite ++ c.address ++ c.data

/-- The bus cycle of a `BUS28` word (rules R90, R91). -/
def busCycle (w : BitVec 28) : BusCycle where
  address := w.extractLsb' 8 16
  data := w.extractLsb' 0 8
  isRead := w.getLsbD 25
  isWrite := w.getLsbD 24
  chipSelected := w.getLsbD 27
  ioRequest := w.getLsbD 26

/-- What `sample()` reads from the lines: each boolean is true when its line is low (rule R91). -/
def cycleOfLines (l : Lines) : BusCycle where
  address := l.addr
  data := l.data
  isRead := !l.rdN
  isWrite := !l.wrN
  chipSelected := !l.sltslN
  ioRequest := !l.iorqN

/-- The line levels under which `sample()` reads the given cycle. -/
def linesOfCycle (c : BusCycle) : Lines where
  addr := c.address
  data := c.data
  sltslN := !c.chipSelected
  rdN := !c.isRead
  wrN := !c.isWrite
  iorqN := !c.ioRequest

/-- An I/O write of a byte at a port, as a bus cycle (rule R94). -/
def portWriteCycle (port b : Byte) : BusCycle where
  address := ioAddress 0#8 port
  data := b
  isRead := false
  isWrite := true
  chipSelected := false
  ioRequest := true

/-- An I/O read at a port, as a bus cycle (rule R94). -/
def portReadCycle (port : Byte) : BusCycle where
  address := ioAddress 0#8 port
  data := 0#8
  isRead := true
  isWrite := false
  chipSelected := false
  ioRequest := true

end Sys2Proof.Machine
end

