-- ==== Sys2Proof/Machine/Kinds.lean ====
section
/-! DEFINITION. The per-kind contract, the table of rule R150: "this is the emulated hardware
contract and must match exactly". The rows are kept as they are, asymmetry included (rule R174). -/

namespace Sys2Proof.Machine

/-- `windowStart` (rule R150). -/
def windowStart : MapperKind → Nat
  | .linear0 => 0x0000
  | .plain16 | .plain32 | .konami | .konamiScc | .ascii8 | .ascii16 => 0x4000

/-- `windowEnd`, inclusive (rule R150). -/
def windowEnd : MapperKind → Nat
  | .plain16 | .plain32 | .linear0 | .konami | .konamiScc | .ascii8 | .ascii16 => 0xBFFF

/-- `segmentSize` in bytes (rule R150). -/
def segmentSize : MapperKind → Nat
  | .plain16 | .plain32 => 0x8000
  | .linear0 => 0xC000
  | .konami | .konamiScc | .ascii8 => 0x2000
  | .ascii16 => 0x4000

/-- Number of bank registers (rules R29, R150). -/
def registers : MapperKind → Nat
  | .plain16 | .plain32 | .linear0 => 0
  | .konami | .konamiScc | .ascii8 => 4
  | .ascii16 => 2

/-- A banked kind is one that has bank registers (rule R29). -/
def banked (k : MapperKind) : Bool := registers k != 0

/-- The record code of a kind (rules R101, R150). -/
def kindCode : MapperKind → Byte
  | .plain16 => 1
  | .plain32 => 2
  | .konamiScc => 3
  | .linear0 => 4
  | .ascii8 => 5
  | .ascii16 => 6
  | .konami => 7

/-- `kind(mapper)` (rules R101, R257); codes 0 and 8 to 255 name no kind (rule R102). -/
def kindOfCode (m : Byte) : Option MapperKind :=
  match m.toNat with
  | 1 => some .plain16
  | 2 => some .plain32
  | 3 => some .konamiScc
  | 4 => some .linear0
  | 5 => some .ascii8
  | 6 => some .ascii16
  | 7 => some .konami
  | _ => none

/-- `windowStart <= address <= windowEnd` (rules R61, R151). -/
def inWindow (k : MapperKind) (address : Half) : Bool :=
  decide (windowStart k ≤ address.toNat) && decide (address.toNat ≤ windowEnd k)

/-- `TRIG_W(kind)` (rules R8, R103): only Konami's width is open. -/
def triggerWidth (konamiWide : Bool) : MapperKind → Nat
  | .konami => if konamiWide then 0x2000 else 0x800
  | .plain16 | .plain32 | .linear0 | .konamiScc | .ascii8 | .ascii16 => 0x800

/-- Trigger bases and the register each one writes (rule R150). -/
def triggers : MapperKind → List (Nat × Nat)
  | .plain16 | .plain32 | .linear0 => []
  | .konamiScc => [(0x5000, 0), (0x7000, 1), (0x9000, 2), (0xB000, 3)]
  | .konami => [(0x6000, 1), (0x8000, 2), (0xA000, 3)]
  | .ascii8 => [(0x6000, 0), (0x6800, 1), (0x7000, 2), (0x7800, 3)]
  | .ascii16 => [(0x6000, 0), (0x7000, 1)]

/-- `[base, base + width - 1]` contains the address (rule R103). -/
def inRange (base width : Nat) (address : Half) : Bool :=
  decide (base ≤ address.toNat) && decide (address.toNat < base + width)

/-- `triggerTable[address]`: the register a write at the address updates (rules R26, R160 to R165). -/
def triggerRegister (konamiWide : Bool) (k : MapperKind) (address : Half) : Option Nat :=
  ((triggers k).find? fun t => inRange t.1 (triggerWidth konamiWide k) address).map (·.2)

/-- The register file of a kind right after a selection: `BANK_INIT(kind, i)` for each register `i`
the kind has (rules R31, R172, R259). -/
def bankAfterSelect (t : BankInit) : MapperKind → List Byte
  | .plain16 | .plain32 | .linear0 => []
  | .konamiScc => t.konamiScc.toList
  | .konami => t.konami.toList
  | .ascii8 => t.ascii8.toList
  | .ascii16 => t.ascii16.toList

end Sys2Proof.Machine
end

