-- ==== Sys2Proof/WellFormed.lean ====
section
/-! DEFINITION. Which terms of `Instr` stand for an encoding of their opcode-table row: a mapper
row's address lies in the row's window or trigger range, an unrecognised opcode is none of the
eight, a record's name has 20 bytes. -/

namespace Sys2Proof

/-- The address of a `BANK.<kind>.<reg>` row: the row's trigger range, under either value of the
open width parameter (rule R103). -/
def wellFormedTrigger (k : MapperKind) (reg : Nat) (address : Half) : Bool :=
  Machine.triggerRegister false k address == some reg ||
    Machine.triggerRegister true k address == some reg

/-- The byte of an `UNREC` row: `0x00` or `0x09` to `0xFF` (rule R96). -/
def wellFormedUnrec (op : Byte) : Bool := op.toNat == 0 || decide (9 ≤ op.toNat)

/-- A record's `name` field (rule R107). -/
def wellFormedName (name : List Byte) : Bool := name.length == nameBytes

/-- The term stands for an encoding of its row. -/
def Instr.wellFormed : Instr → Bool
  | .sample | .drive _ | .poll _ | .release | .hold | .wait _ => true
  | .memrd _ _ | .memwr _ _ | .iord _ _ _ | .iowr _ _ _ => true
  | .nostb _ _ _ _ | .both _ _ _ _ | .nosel _ _ _ => true
  | .rdPlain16 a _ => Machine.inWindow .plain16 a
  | .rdPlain32 a _ => Machine.inWindow .plain32 a
  | .rdLinear0 a _ => Machine.inWindow .linear0 a
  | .rdKonamiScc a _ => Machine.inWindow .konamiScc a
  | .rdKonami a _ => Machine.inWindow .konami a
  | .rdAscii8 a _ => Machine.inWindow .ascii8 a
  | .rdAscii16 a _ => Machine.inWindow .ascii16 a
  | .bankKonamiScc0 a _ => wellFormedTrigger .konamiScc 0 a
  | .bankKonamiScc1 a _ => wellFormedTrigger .konamiScc 1 a
  | .bankKonamiScc2 a _ => wellFormedTrigger .konamiScc 2 a
  | .bankKonamiScc3 a _ => wellFormedTrigger .konamiScc 3 a
  | .bankKonami1 a _ => wellFormedTrigger .konami 1 a
  | .bankKonami2 a _ => wellFormedTrigger .konami 2 a
  | .bankKonami3 a _ => wellFormedTrigger .konami 3 a
  | .bankAscii80 a _ => wellFormedTrigger .ascii8 0 a
  | .bankAscii81 a _ => wellFormedTrigger .ascii8 1 a
  | .bankAscii82 a _ => wellFormedTrigger .ascii8 2 a
  | .bankAscii83 a _ => wellFormedTrigger .ascii8 3 a
  | .bankAscii160 a _ => wellFormedTrigger .ascii16 0 a
  | .bankAscii161 a _ => wellFormedTrigger .ascii16 1 a
  | .ctlrd _ _ _ | .ctlwr _ _ _ | .datrd _ _ _ | .datwr _ _ _ => true
  | .init | .present | .getid | .getser | .getcap | .rdsec | .rdnext | .wrsec => true
  | .unrec op => wellFormedUnrec op
  | .addr _ | .go | .stOk | .stErr => true
  | .kindPlain16 name _ _ | .kindPlain32 name _ _ | .kindKonamiScc name _ _
  | .kindLinear0 name _ _ | .kindAscii8 name _ _ | .kindAscii16 name _ _
  | .kindKonami name _ _ => wellFormedName name
  | .readtable _ | .select _ => true

end Sys2Proof
end

