-- ==== Sys2Proof/Decode.lean ====
section
/-! DEFINITION. What the hardware decodes (30_encoding.md): the control lines and address of a bus
cycle, the bytes written to the control port, and the bytes of configuration records; and the
encoder that goes the other way. A bus cycle alone has seven kinds (rule R92); which row of the
table it is beyond its kind depends on the selected mapper kind and on the two port numbers, and
what a control-port byte is depends on `S.phase`, "the only mode bit in the hardware" (rule R112):
that context is `Ctx`. -/

namespace Sys2Proof

/-- Where in a storage command a control-port byte stands (rules R95, R193). -/
inductive Position where
  /-- `S.phase` is `Idle`, `XferRead` or `XferWrite`. -/
  | opcode
  /-- `S.phase` is `AwaitAddr(k)`. -/
  | address
  /-- `S.phase` is `AwaitGo`. -/
  | trigger
deriving DecidableEq, Repr

/-- What decides the row of a word beyond its bits. -/
structure Ctx where
  kind : Option MapperKind
  konamiWide : Bool
  portCtrl : Byte
  portData : Byte
  position : Position
deriving DecidableEq, Repr

/-- An encoded operation: a bus cycle, a control-port byte, a status byte, a record's 29 bytes
(the formats `BUS28`, `CMD8`, `STAT8` and `REC29` of rule R90; `MAP8` is byte 20 of `REC29`). -/
inductive Code where
  | bus28 (w : BitVec 28)
  | cmd8 (b : Byte)
  | stat8 (b : Byte)
  | rec29 (bytes : List Byte)
deriving DecidableEq, Repr

/-! ### Bus cycles -/

/-- The kind of a bus cycle (rule R123): every one of the sixteen control values has one. -/
def decodeCycle (c : BusCycle) : Instr :=
  match c.isRead, c.isWrite with
  | true, true => .both c.chipSelected c.ioRequest c.address c.data
  | false, false => .nostb c.chipSelected c.ioRequest c.address c.data
  | true, false =>
    match c.ioRequest, c.chipSelected with
    | true, cs => .iord cs c.address c.data
    | false, true => .memrd c.address c.data
    | false, false => .nosel true c.address c.data
  | false, true =>
    match c.ioRequest, c.chipSelected with
    | true, cs => .iowr cs c.address c.data
    | false, true => .memwr c.address c.data
    | false, false => .nosel false c.address c.data

/-- The kind of a `BUS28` word (rule R92). -/
def decodeBus (w : BitVec 28) : Instr := decodeCycle (Machine.busCycle w)

/-- The `RD.<kind>` row of a memory read under a kind (rules R153 to R159). -/
def readRow (k : MapperKind) (address : Half) (data : Byte) : Instr :=
  match k with
  | .plain16 => .rdPlain16 address data
  | .plain32 => .rdPlain32 address data
  | .linear0 => .rdLinear0 address data
  | .konamiScc => .rdKonamiScc address data
  | .konami => .rdKonami address data
  | .ascii8 => .rdAscii8 address data
  | .ascii16 => .rdAscii16 address data

/-- The `BANK.<kind>.<reg>` row of a trigger write (rules R160 to R163). -/
def bankRow (k : MapperKind) (reg : Nat) (address : Half) (data : Byte) : Option Instr :=
  match k, reg with
  | .konamiScc, 0 => some (.bankKonamiScc0 address data)
  | .konamiScc, 1 => some (.bankKonamiScc1 address data)
  | .konamiScc, 2 => some (.bankKonamiScc2 address data)
  | .konamiScc, 3 => some (.bankKonamiScc3 address data)
  | .konami, 1 => some (.bankKonami1 address data)
  | .konami, 2 => some (.bankKonami2 address data)
  | .konami, 3 => some (.bankKonami3 address data)
  | .ascii8, 0 => some (.bankAscii80 address data)
  | .ascii8, 1 => some (.bankAscii81 address data)
  | .ascii8, 2 => some (.bankAscii82 address data)
  | .ascii8, 3 => some (.bankAscii83 address data)
  | .ascii16, 0 => some (.bankAscii160 address data)
  | .ascii16, 1 => some (.bankAscii161 address data)
  | _, _ => none

/-- A memory read inside the selected kind's window is that kind's read row (rule R151). -/
def refineRead (ctx : Ctx) (address : Half) (data : Byte) : Instr :=
  match ctx.kind with
  | none => .memrd address data
  | some k => if Machine.inWindow k address then readRow k address data else .memrd address data

/-- A memory write at a trigger address of the selected kind is that trigger's row (rule R103). -/
def refineWrite (ctx : Ctx) (address : Half) (data : Byte) : Instr :=
  match ctx.kind with
  | none => .memwr address data
  | some k =>
    match Machine.triggerRegister ctx.konamiWide k address with
    | none => .memwr address data
    | some r => (bankRow k r address data).getD (.memwr address data)

/-- An I/O read at one of the two ports is that port's row (rule R94). -/
def refineIoRead (ctx : Ctx) (cs : Bool) (address : Half) (data : Byte) : Instr :=
  if Machine.portOf address = ctx.portCtrl then .ctlrd cs (Machine.portHigh address) data
  else if Machine.portOf address = ctx.portData then .datrd cs (Machine.portHigh address) data
  else .iord cs address data

/-- An I/O write at one of the two ports is that port's row (rule R94). -/
def refineIoWrite (ctx : Ctx) (cs : Bool) (address : Half) (data : Byte) : Instr :=
  if Machine.portOf address = ctx.portCtrl then .ctlwr cs (Machine.portHigh address) data
  else if Machine.portOf address = ctx.portData then .datwr cs (Machine.portHigh address) data
  else .iowr cs address data

/-- The most specific row of a bus cycle in its context; a cycle that is not claimed keeps its
kind's row (rules R92, R94, R103, R151). -/
def refine (ctx : Ctx) (c : BusCycle) : Instr :=
  match decodeCycle c with
  | .memrd a d => refineRead ctx a d
  | .memwr a d => refineWrite ctx a d
  | .iord cs a d => refineIoRead ctx cs a d
  | .iowr cs a d => refineIoWrite ctx cs a d
  | i => i

/-! ### Control-port bytes, status bytes, records -/

/-- A byte in opcode position (rules R95, R96, R196): total, every value is a row. -/
def decodeOpcode (b : Byte) : Instr :=
  match b.toNat with
  | 1 => .init
  | 2 => .present
  | 3 => .getid
  | 4 => .getser
  | 5 => .getcap
  | 6 => .rdsec
  | 7 => .rdnext
  | 8 => .wrsec
  | _ => .unrec b

/-- A control-port byte by its position (rule R193). -/
def decodeCommand (p : Position) (b : Byte) : Instr :=
  match p with
  | .opcode => decodeOpcode b
  | .address => .addr b
  | .trigger => if b = 0x06#8 then .go else decodeOpcode b

/-- A status byte: the two values the document defines (rule R100). -/
def decodeStatus (b : Byte) : Option Instr :=
  if b = 0x00#8 then some .stOk else if b = 0xFF#8 then some .stErr else none

/-- The fields of a record's 29 bytes (rule R107), whatever they hold (rule R256). -/
def recordOfBytes (raw : List Byte) : RomRecord where
  name := raw.take nameBytes
  mapper := raw.getD 20 0#8
  size := Machine.leWord (raw.getD 21 0#8) (raw.getD 22 0#8) (raw.getD 23 0#8) (raw.getD 24 0#8)
  offset := Machine.leWord (raw.getD 25 0#8) (raw.getD 26 0#8) (raw.getD 27 0#8) (raw.getD 28 0#8)

/-- The 29 bytes of a record (rule R107). -/
def bytesOfRecord (r : RomRecord) : List Byte :=
  r.name ++ [r.mapper] ++ Machine.leBytes r.size ++ Machine.leBytes r.offset

/-- "a record whose 29 bytes are all 0xFF marks end-of-table" (rule R108). -/
def isSentinel (raw : List Byte) : Bool := raw.all (· == 0xFF#8)

/-- The `KIND.<kind>` row of a record under its mapper code. -/
def kindRow (k : MapperKind) (name : List Byte) (size offset : Word) : Instr :=
  match k with
  | .plain16 => .kindPlain16 name size offset
  | .plain32 => .kindPlain32 name size offset
  | .konamiScc => .kindKonamiScc name size offset
  | .linear0 => .kindLinear0 name size offset
  | .ascii8 => .kindAscii8 name size offset
  | .ascii16 => .kindAscii16 name size offset
  | .konami => .kindKonami name size offset

/-- A record's row; a reserved mapper code names none (rules R101, R102), nor does a list of bytes
that is not 29 long. -/
def decodeRecord (raw : List Byte) : Option Instr :=
  if raw.length = recordBytes then
    let r := recordOfBytes raw
    (Machine.kindOfCode r.mapper).map fun k => kindRow k r.name r.size r.offset
  else none

/-- The row of an encoded operation in its context. -/
def decode (ctx : Ctx) : Code → Option Instr
  | .bus28 w => some (refine ctx (Machine.busCycle w))
  | .cmd8 b => some (decodeCommand ctx.position b)
  | .stat8 b => decodeStatus b
  | .rec29 raw => decodeRecord raw

/-! ### The encoder -/

/-- A bus cycle as a code, from its control booleans, address and data (rule R90). -/
def busCode (cs io rd wr : Bool) (address : Half) (data : Byte) : Code :=
  .bus28 (Machine.busWord
    { address := address, data := data, isRead := rd, isWrite := wr, chipSelected := cs,
      ioRequest := io })

/-- A memory read with the slot selected: `ctl = 1010` (rule R92). -/
def readCode (address : Half) (data : Byte) : Code := busCode true false true false address data

/-- A memory write with the slot selected: `ctl = 1001` (rule R92). -/
def writeCode (address : Half) (data : Byte) : Code := busCode true false false true address data

/-- A record of the kind as a code (rules R101, R107). -/
def recordCode (k : MapperKind) (name : List Byte) (size offset : Word) : Code :=
  .rec29 (bytesOfRecord
    { name := name, mapper := Machine.kindCode k, size := size, offset := offset })

/-- The encoding of an operation, from the tables of 30_encoding.md; `none` for the rows whose
encoding the table leaves empty (controller actions, the table scan, the environment's event). -/
def encode (ctx : Ctx) : Instr → Option Code
  | .sample | .drive _ | .poll _ | .release | .hold | .wait _ => none
  | .memrd a d => some (readCode a d)
  | .memwr a d => some (writeCode a d)
  | .iord cs a d => some (busCode cs true true false a d)
  | .iowr cs a d => some (busCode cs true false true a d)
  | .nostb cs io a d => some (busCode cs io false false a d)
  | .both cs io a d => some (busCode cs io true true a d)
  | .nosel r a d => some (busCode false false r (!r) a d)
  | .rdPlain16 a d | .rdPlain32 a d | .rdLinear0 a d | .rdKonamiScc a d | .rdKonami a d
  | .rdAscii8 a d | .rdAscii16 a d => some (readCode a d)
  | .bankKonamiScc0 a d | .bankKonamiScc1 a d | .bankKonamiScc2 a d | .bankKonamiScc3 a d
  | .bankKonami1 a d | .bankKonami2 a d | .bankKonami3 a d
  | .bankAscii80 a d | .bankAscii81 a d | .bankAscii82 a d | .bankAscii83 a d
  | .bankAscii160 a d | .bankAscii161 a d => some (writeCode a d)
  | .ctlrd cs hi d => some (busCode cs true true false (Machine.ioAddress hi ctx.portCtrl) d)
  | .ctlwr cs hi d => some (busCode cs true false true (Machine.ioAddress hi ctx.portCtrl) d)
  | .datrd cs hi d => some (busCode cs true true false (Machine.ioAddress hi ctx.portData) d)
  | .datwr cs hi d => some (busCode cs true false true (Machine.ioAddress hi ctx.portData) d)
  | .init => some (.cmd8 0x01#8)
  | .present => some (.cmd8 0x02#8)
  | .getid => some (.cmd8 0x03#8)
  | .getser => some (.cmd8 0x04#8)
  | .getcap => some (.cmd8 0x05#8)
  | .rdsec => some (.cmd8 0x06#8)
  | .rdnext => some (.cmd8 0x07#8)
  | .wrsec => some (.cmd8 0x08#8)
  | .unrec op => some (.cmd8 op)
  | .addr v => some (.cmd8 v)
  | .go => some (.cmd8 0x06#8)
  | .stOk => some (.stat8 0x00#8)
  | .stErr => some (.stat8 0xFF#8)
  | .kindPlain16 n z o => some (recordCode .plain16 n z o)
  | .kindPlain32 n z o => some (recordCode .plain32 n z o)
  | .kindKonamiScc n z o => some (recordCode .konamiScc n z o)
  | .kindLinear0 n z o => some (recordCode .linear0 n z o)
  | .kindAscii8 n z o => some (recordCode .ascii8 n z o)
  | .kindAscii16 n z o => some (recordCode .ascii16 n z o)
  | .kindKonami n z o => some (recordCode .konami n z o)
  | .readtable _ | .select _ => none

/-! ### When a row is the one that applies -/

/-- The context of a read row: its kind is selected (the row's "condition"). -/
def kindSelected (ctx : Ctx) (k : MapperKind) : Bool := ctx.kind == some k

/-- The context of a trigger row: its kind is selected and the width parameter puts the address in
this register's range. -/
def triggerSelected (ctx : Ctx) (k : MapperKind) (reg : Nat) (address : Half) : Bool :=
  kindSelected ctx k && Machine.triggerRegister ctx.konamiWide k address == some reg

/-- The address names neither port (rule R94). -/
def otherPort (ctx : Ctx) (address : Half) : Bool :=
  Machine.portOf address != ctx.portCtrl && Machine.portOf address != ctx.portData

/-- The byte stands in opcode position: phases `Idle`, `XferRead`, `XferWrite`, or `AwaitGo` with a
byte other than `0x06` (rule R95). -/
def opcodePosition (ctx : Ctx) (b : Byte) : Bool :=
  ctx.position == .opcode || (ctx.position == .trigger && b != 0x06#8)

/-- Among the rows that share an operation's encoding, the context makes this one the row that
applies (the "condition" and "position" columns of the table, rows in first-match order). -/
def rowApplies (ctx : Ctx) : Instr → Bool
  | .sample | .drive _ | .poll _ | .release | .hold | .wait _ => true
  | .memrd a _ => match ctx.kind with
    | none => true
    | some k => !Machine.inWindow k a
  | .memwr a _ => match ctx.kind with
    | none => true
    | some k => (Machine.triggerRegister ctx.konamiWide k a).isNone
  | .iord _ a _ | .iowr _ a _ => otherPort ctx a
  | .nostb _ _ _ _ | .both _ _ _ _ | .nosel _ _ _ => true
  | .rdPlain16 _ _ => kindSelected ctx .plain16
  | .rdPlain32 _ _ => kindSelected ctx .plain32
  | .rdLinear0 _ _ => kindSelected ctx .linear0
  | .rdKonamiScc _ _ => kindSelected ctx .konamiScc
  | .rdKonami _ _ => kindSelected ctx .konami
  | .rdAscii8 _ _ => kindSelected ctx .ascii8
  | .rdAscii16 _ _ => kindSelected ctx .ascii16
  | .bankKonamiScc0 a _ => triggerSelected ctx .konamiScc 0 a
  | .bankKonamiScc1 a _ => triggerSelected ctx .konamiScc 1 a
  | .bankKonamiScc2 a _ => triggerSelected ctx .konamiScc 2 a
  | .bankKonamiScc3 a _ => triggerSelected ctx .konamiScc 3 a
  | .bankKonami1 a _ => triggerSelected ctx .konami 1 a
  | .bankKonami2 a _ => triggerSelected ctx .konami 2 a
  | .bankKonami3 a _ => triggerSelected ctx .konami 3 a
  | .bankAscii80 a _ => triggerSelected ctx .ascii8 0 a
  | .bankAscii81 a _ => triggerSelected ctx .ascii8 1 a
  | .bankAscii82 a _ => triggerSelected ctx .ascii8 2 a
  | .bankAscii83 a _ => triggerSelected ctx .ascii8 3 a
  | .bankAscii160 a _ => triggerSelected ctx .ascii16 0 a
  | .bankAscii161 a _ => triggerSelected ctx .ascii16 1 a
  | .ctlrd _ _ _ | .ctlwr _ _ _ => true
  | .datrd _ _ _ | .datwr _ _ _ => ctx.portData != ctx.portCtrl
  | .init | .present | .getid | .getser | .getcap | .rdnext | .wrsec =>
    ctx.position != .address
  | .rdsec => ctx.position == .opcode
  | .unrec op => opcodePosition ctx op
  | .addr _ => ctx.position == .address
  | .go => ctx.position == .trigger
  | .stOk | .stErr => true
  | .kindPlain16 _ _ _ | .kindPlain32 _ _ _ | .kindKonamiScc _ _ _ | .kindLinear0 _ _ _
  | .kindAscii8 _ _ _ | .kindAscii16 _ _ _ | .kindKonami _ _ _ => true
  | .readtable _ | .select _ => true

/-! ### The opcode table's own patterns -/

/-- A row's match and mask, by format (the columns of spec/opcode_table.json). -/
inductive Pattern where
  | bus28 (mask value : BitVec 28)
  | cmd8 (mask value : Byte)
  | stat8 (mask value : Byte)
  /-- Compared with byte 20 of the record. -/
  | map8 (mask value : Byte)
  /-- `UNREC`: every byte that no opcode row matches. -/
  | otherCmd8
  /-- The row has no encoding. -/
  | absent
deriving DecidableEq, Repr

/-- A row's pattern as the table writes it. The port rows compare a parameter (rule R94); under
`KONAMI_TRIG_W = 0x2000` the Konami rows compare `0xFE00000` (the rows' notes). -/
def tablePattern (ctx : Ctx) : Instr → Pattern
  | .sample | .drive _ | .poll _ | .release | .hold | .wait _ => .absent
  | .memrd _ _ => .bus28 0xF000000#28 0xA000000#28
  | .memwr _ _ => .bus28 0xF000000#28 0x9000000#28
  | .iord _ _ _ => .bus28 0x7000000#28 0x6000000#28
  | .iowr _ _ _ => .bus28 0x7000000#28 0x5000000#28
  | .nostb _ _ _ _ => .bus28 0x3000000#28 0x0000000#28
  | .both _ _ _ _ => .bus28 0x3000000#28 0x3000000#28
  | .nosel _ _ _ => .bus28 0xC000000#28 0x0000000#28
  | .rdPlain16 _ _ | .rdPlain32 _ _ | .rdLinear0 _ _ | .rdKonamiScc _ _ | .rdKonami _ _
  | .rdAscii8 _ _ | .rdAscii16 _ _ => .bus28 0xF000000#28 0xA000000#28
  | .bankKonamiScc0 _ _ => .bus28 0xFF80000#28 0x9500000#28
  | .bankKonamiScc1 _ _ => .bus28 0xFF80000#28 0x9700000#28
  | .bankKonamiScc2 _ _ => .bus28 0xFF80000#28 0x9900000#28
  | .bankKonamiScc3 _ _ => .bus28 0xFF80000#28 0x9B00000#28
  | .bankKonami1 _ _ => .bus28 (if ctx.konamiWide then 0xFE00000#28 else 0xFF80000#28) 0x9600000#28
  | .bankKonami2 _ _ => .bus28 (if ctx.konamiWide then 0xFE00000#28 else 0xFF80000#28) 0x9800000#28
  | .bankKonami3 _ _ => .bus28 (if ctx.konamiWide then 0xFE00000#28 else 0xFF80000#28) 0x9A00000#28
  | .bankAscii80 _ _ => .bus28 0xFF80000#28 0x9600000#28
  | .bankAscii81 _ _ => .bus28 0xFF80000#28 0x9680000#28
  | .bankAscii82 _ _ => .bus28 0xFF80000#28 0x9700000#28
  | .bankAscii83 _ _ => .bus28 0xFF80000#28 0x9780000#28
  | .bankAscii160 _ _ => .bus28 0xFF80000#28 0x9600000#28
  | .bankAscii161 _ _ => .bus28 0xFF80000#28 0x9700000#28
  | .ctlrd _ _ _ => .bus28 0x700FF00#28 (0x6000000#28 ||| (ctx.portCtrl.setWidth 28 <<< 8))
  | .ctlwr _ _ _ => .bus28 0x700FF00#28 (0x5000000#28 ||| (ctx.portCtrl.setWidth 28 <<< 8))
  | .datrd _ _ _ => .bus28 0x700FF00#28 (0x6000000#28 ||| (ctx.portData.setWidth 28 <<< 8))
  | .datwr _ _ _ => .bus28 0x700FF00#28 (0x5000000#28 ||| (ctx.portData.setWidth 28 <<< 8))
  | .init => .cmd8 0xFF#8 0x01#8
  | .present => .cmd8 0xFF#8 0x02#8
  | .getid => .cmd8 0xFF#8 0x03#8
  | .getser => .cmd8 0xFF#8 0x04#8
  | .getcap => .cmd8 0xFF#8 0x05#8
  | .rdsec => .cmd8 0xFF#8 0x06#8
  | .rdnext => .cmd8 0xFF#8 0x07#8
  | .wrsec => .cmd8 0xFF#8 0x08#8
  | .unrec _ => .otherCmd8
  | .addr _ => .cmd8 0x00#8 0x00#8
  | .go => .cmd8 0xFF#8 0x06#8
  | .stOk => .stat8 0xFF#8 0x00#8
  | .stErr => .stat8 0xFF#8 0xFF#8
  | .kindPlain16 _ _ _ => .map8 0xFF#8 0x01#8
  | .kindPlain32 _ _ _ => .map8 0xFF#8 0x02#8
  | .kindKonamiScc _ _ _ => .map8 0xFF#8 0x03#8
  | .kindLinear0 _ _ _ => .map8 0xFF#8 0x04#8
  | .kindAscii8 _ _ _ => .map8 0xFF#8 0x05#8
  | .kindAscii16 _ _ _ => .map8 0xFF#8 0x06#8
  | .kindKonami _ _ _ => .map8 0xFF#8 0x07#8
  | .readtable _ | .select _ => .absent

/-- A code matches a pattern: format equal, and `code & mask = value`. -/
def Pattern.fits : Pattern → Option Code → Prop
  | .bus28 m v, some (.bus28 w) => w &&& m = v
  | .cmd8 m v, some (.cmd8 b) => b &&& m = v
  | .stat8 m v, some (.stat8 b) => b &&& m = v
  | .map8 m v, some (.rec29 raw) => raw.length = recordBytes ∧ raw.getD 20 0#8 &&& m = v
  | .otherCmd8, some (.cmd8 b) => b.toNat = 0 ∨ 9 ≤ b.toNat
  | .absent, none => True
  | _, _ => False

/-! ### The table's numbering -/

/-- The instruction the decoder reads from a table word. A `BUS28` row has 28 bits, four whole
bytes; the four bits above it must be 0. An 8-bit word is a control-port byte in opcode position,
the position a byte has when nothing came before it. DESIGN CHOICE, log entry 20. -/
def decodeTableWord (nbits w : Nat) : Option Instr :=
  if nbits = 28 ∨ nbits = 32 then
    if w < 2 ^ 28 then some (decodeBus (BitVec.ofNat 28 w)) else none
  else if nbits = 8 then
    if w < 2 ^ 8 then some (decodeOpcode (BitVec.ofNat 8 w)) else none
  else none

end Sys2Proof
end

