-- ==== Sys2Proof/Machine/State.lean ====
section
/-! DEFINITION. The state of the block as plain data: every part of rule R20's tuple, the parameters
and the combined image it runs under (fixed for a run), the inputs of the agents outside it, and a
record of what it hands to them. -/

namespace Sys2Proof.Machine

/-! ### Memory -/

/-- Sparse memory: the listed bytes, addresses strictly rising. An unlisted address holds no value
the spec gives (rules R32, R259, U2, U13); what reading one yields is said where it is read. -/
abbrev Memory := List Host.Cell

/-- Every listed address is above `a`, and the addresses rise strictly. -/
def Memory.above : Nat → Memory → Bool
  | _, [] => true
  | a, c :: rest => decide (a < c.1) && Memory.above c.1 rest

/-- The canonical form: addresses rise strictly. No entry can equal what an unlisted address reads
as, since an unlisted address reads as no value. -/
def Memory.wf : Memory → Bool
  | [] => true
  | c :: rest => Memory.above c.1 rest

/-! ### Bus Cycle Controller (rules R22 to R25) -/

/-- `bcc.phase` (rule R22). -/
inductive BccPhase where
  | released
  | driving (value : Byte) (strobe : Strobe)
  | holding (strobe : Strobe)
deriving DecidableEq, Repr

/-- How far the boot sequence of rule R302 has come: which of its steps 2 to 4 the next step runs.
In `running` the polling loop has been entered. -/
inductive Stage where
  | readTable
  | selecting
  | running
deriving DecidableEq, Repr

/-- Where the primary loop of rule R134 stands while no cycle is being served. A cycle is kept from
its sample to its own effect and no longer (rule R21). -/
inductive LoopPoint where
  /-- The top of the loop: the flag is tested, then the lines are sampled. -/
  | top
  /-- A selection has run in this turn: the lines are sampled without another test of the flag. -/
  | sampling
  /-- A cycle that calls the driver has been sampled; the call begins at this instant. -/
  | sampled (cycle : BusCycle) (length : Nat)
  /-- The driver call of that cycle is running; it returns after `left` more instants. -/
  | calling (cycle : BusCycle) (left : Nat)
  /-- `Select(n)` is running; it is done after `left` more instants. -/
  | loading (n : Nat) (left : Nat)
deriving DecidableEq, Repr

/-- A driver call or a selection is running: the loop does not sample (rule R313 b, c). -/
def LoopPoint.blind : LoopPoint → Bool
  | .calling _ _ | .loading _ _ => true
  | .top | .sampling | .sampled _ _ => false

/-- The controller. `dout` and `busdir` are functions of `phase` (rules R23, R24). `stage` and
`point` say which line of the boot sequence or of the loop comes next (DESIGN CHOICE, log entries 2
and 11). -/
structure Bcc where
  stage : Stage
  point : LoopPoint
  phase : BccPhase
  /-- `bcc.wait` in the asserted sense (rule R25). -/
  wait : Bool
deriving DecidableEq, Repr

/-! ### Memory Mapper Engine and ROM Backing Store (rules R26 to R32) -/

/-- The selected `MapperConfig` with the image size (rule R26). `windowStart`, `windowEnd`,
`segmentSize` and `triggerTable` are fixed by `kind` and computed from it (log entry 17);
`rbs.size` and `rbs.mapperKind` are the same values as `size` and `kind` (rule R32). -/
structure MapperConfig where
  kind : MapperKind
  baseOffset : Word
  size : Word
deriving DecidableEq, Repr

/-- The ROM Backing Store (rule R32): the bytes of the loaded image, and the record's name. -/
structure Rbs where
  bytes : Memory
  name : Option (List Byte)
deriving DecidableEq, Repr

/-! ### Storage Command Protocol Bridge (rules R33 to R41) -/

/-- How many address bytes are still to come: the `k` of `AwaitAddr(k)` (rule R35). -/
inductive AddrLeft where
  | four | three | two | one
deriving DecidableEq, Repr

/-- `S.phase` (rule R35). -/
inductive StoragePhase where
  | idle
  | awaitAddr (left : AddrLeft)
  | awaitGo
  | xferRead
  | xferWrite
deriving DecidableEq, Repr

/-- `S`, the `StorageCommandState` with the two port registers (rule R33). -/
structure Bridge where
  opcode : Byte
  phase : StoragePhase
  sectorAddress : Word
  bytesPendingIn : Half
  bytesPendingOut : Half
  cursor : Half
  blockBuffer : Block
  ctrlReg : Byte
  dataReg : Byte
deriving DecidableEq, Repr

/-! ### The environment and what it is told (the model's own) -/

/-- The inputs of the agents of rule R80, as far as the state lists them; past the end of a list an
input is a free value of Config. DESIGN CHOICE, log entry 4. -/
structure Env where
  /-- What the host and the second task do, one entry an instant, the current instant first. -/
  inputs : List Instant
  /-- Number of instants elapsed. -/
  time : Nat
  /-- Writes of the second task that the primary loop does not see yet, oldest first (rule R75). -/
  flagWrites : List FlagWrite
  /-- The driver's answers, the next one first. -/
  replies : List Reply
  /-- Number of free values drawn. -/
  draws : Nat
  /-- The records the environment still selects before the loop is entered (rule R302 step 3). -/
  bootSelects : List Nat
deriving DecidableEq, Repr

/-- A call of the external driver (rules R70, R71). -/
inductive DriverCall where
  | init
  | present
  | readSector (index : Word)
  | writeSector (index : Word) (data : Block)
  | sectorCount
deriving DecidableEq, Repr

/-- What keeps the loop from sampling (rule R313 b, c). -/
inductive Blind where
  | driver (call : DriverCall)
  | selection
deriving DecidableEq, Repr

/-- One blind interval, and the wait output while it lasted (rule R131 b, c). -/
structure BlindWindow where
  what : Blind
  wait : Bool
deriving DecidableEq, Repr

/-- What operations handed to somebody outside the block, or returned; no rule reads it (rules R20,
R21): the driver calls and selections made, newest first, the last `BusCycle` that `SAMPLE`
returned, the last list that `READTABLE` returned. DESIGN CHOICE, log entry 14. -/
structure Record where
  blind : List BlindWindow
  sampled : Option BusCycle
  listed : List RomRecord
deriving DecidableEq, Repr

/-! ### The whole state -/

/-- The block (rule R20), its parameters and image, its environment, and the record. -/
structure State where
  params : Params
  /-- `IMG`, the combined image in persistent storage; never written (rules R60, R81). -/
  img : Memory
  bcc : Bcc
  cfg : Option MapperConfig
  /-- The BankRegisterFile (rule R29): 0, 2 or 4 registers. -/
  bank : List Byte
  rbs : Rbs
  bridge : Bridge
  /-- The flag the second task shares with the primary loop, as the loop sees it (rule R45). -/
  reselect : Option Nat
  env : Env
  record : Record
deriving DecidableEq, Repr

/-- Why a step stops with a fault: never. No rule of the spec names a fault (rule R272: "Nothing in
this core is fatal"), so the type has no constructor, and no operation can answer with one. -/
inductive Fault where
deriving DecidableEq, Repr

/-- Why a step is refused. -/
inductive Refusal where
  /-- Raised by an arm of `exec` whose instruction has no meaning yet. Safe: the machine stops where
  the hardware goes on. No arm raises it. -/
  | notModelled (mnemonic : String)
deriving DecidableEq, Repr

/-! ### Reset -/

/-- Firmware start (rules R46, R300, R301) under given parameters, with a given combined image and
given boot selections, before any instant has passed. -/
def State.resetWith (p : Params) (img : Memory) (bootSelects : List Nat) : State where
  params := p
  img := img
  bcc := { stage := .readTable, point := .top, phase := .released, wait := p.useWait }
  cfg := none
  bank := []
  rbs := { bytes := [], name := none }
  bridge :=
    { opcode := 0x00#8, phase := .idle, sectorAddress := 0#32, bytesPendingIn := 0#16,
      bytesPendingOut := 0#16, cursor := 0#16, blockBuffer := Config.blockReset,
      ctrlReg := p.ctrlReset, dataReg := p.dataReset }
  reselect := none
  env := { inputs := [], time := 0, flagWrites := [], replies := [], draws := 0, bootSelects := bootSelects }
  record := { blind := [], sampled := none, listed := [] }

/-- The machine right after reset (rule R46): open parameters without a known value, an image no
byte of which is known, and boot selections nobody knows. DESIGN CHOICE, log entries 2, 3, 9, 26. -/
def State.reset : State := State.resetWith Config.params [] Config.bootSelects

end Sys2Proof.Machine
end

