-- ==== Sys2Proof/Machine/Flags.lean ====
section
/-! DEFINITION. The block's status indications (rule R43: it has no arithmetic flags): the status
byte, the data-line output, the bus-direction output and the wait output. -/

namespace Sys2Proof.Machine

/-- `st(s)`: `0x00` for `Ok`, `0xFF` for `Err` (rule R100). -/
def statusByte : Status → Byte
  | .ok => 0x00#8
  | .err => 0xFF#8

/-- `bcc.dout`: the driven byte, or `none` for `Z` (rule R23). -/
def State.dout (s : State) : Option Byte :=
  match s.bcc.phase with
  | .driving v _ => some v
  | .released | .holding _ => none

/-- `bcc.busdir`, asserted exactly while the phase is `Driving` (rules R24, R132). -/
def State.busdir (s : State) : Bool :=
  match s.bcc.phase with
  | .driving _ _ => true
  | .released | .holding _ => false

/-- The electrical level of the bus-direction line (rule R24). -/
def State.busdirLevel (s : State) : Bool :=
  if s.busdir then s.params.busdirActiveLevel else !s.params.busdirActiveLevel

/-- The level of `WAIT_n`: low while the wait output is asserted (rule R25). -/
def State.waitLevel (s : State) : Bool := !s.bcc.wait

/-- The polling loop has been entered (rule R302 step 4). -/
def State.running (s : State) : Bool := decide (s.bcc.stage = .running)

/-- When the wait output is asserted (rule R131): only with `USE_WAIT`, and then before the loop is
entered or while a driver call or a selection lasts (`busy`). -/
def State.waitCondition (s : State) (busy : Bool) : Bool := s.params.useWait && (busy || !s.running)

/-- `rbs.size`: 0 until an image is loaded (rules R32, R46). -/
def State.rbsSize (s : State) : Nat :=
  match s.cfg with
  | none => 0
  | some c => c.size.toNat

/-- `rbs.mapperKind`, one fact with `cfg.kind` (rule R32). -/
def State.kind (s : State) : Option MapperKind := s.cfg.map (·.kind)

end Sys2Proof.Machine
end

