-- ==== Sys2Proof/Machine/Operands.lean ====
section
/-! DEFINITION. The operand forms: the lines of the current instant, the cycle they show, which
cycles are claimed, the mapper's offset computation, the position of a control-port byte, and the
bytes of the combined image. -/

namespace Sys2Proof.Machine

/-! ### The current instant -/

/-- What the environment does at the current instant: the first listed input, or a free value. -/
def State.now (s : State) : Instant := s.env.inputs.headD (Config.instant s.env.time)

/-- The level of a strobe line now (rule R127: "only line s is looked at"). -/
def State.strobeHigh (s : State) (st : Strobe) : Bool :=
  match st with
  | .rd => s.now.lines.rdN
  | .wr => s.now.lines.wrN

/-- `sample()`: the levels of the lines at the current instant (rule R125). -/
def State.sample (s : State) : BusCycle := cycleOfLines s.now.lines

/-- What the test of the flag finds: the loop tests it at the top of a turn and only there (rules R134,
R284). -/
def State.pendingReselect (s : State) : Option Nat :=
  match s.bcc.point with
  | .top => s.reselect
  | .sampling | .sampled _ _ | .calling _ _ | .loading _ _ => none

/-! ### Claimed cycles -/

/-- `cfg != None and windowStart <= address <= windowEnd` (rules R124, R151). -/
def State.inActiveWindow (s : State) (address : Half) : Bool :=
  match s.cfg with
  | none => false
  | some c => inWindow c.kind address

/-- `address[7:0] in (PORT_CTRL, PORT_DATA)` (rules R124, R191). -/
def State.atPort (s : State) (address : Half) : Bool :=
  portOf address == s.params.portCtrl || portOf address == s.params.portData

/-- A cycle that a sub-block acts on and answers with a byte: the driving cycles of rule R136. -/
def State.claimedRead (s : State) (c : BusCycle) : Bool :=
  match decodeCycle c with
  | .memrd a _ => s.inActiveWindow a
  | .iord _ a _ => s.atPort a
  | _ => false

/-- A cycle that a sub-block acts on without driving. -/
def State.claimedWrite (s : State) (c : BusCycle) : Bool :=
  match decodeCycle c with
  | .memwr a _ => s.inActiveWindow a
  | .iowr _ a _ => s.atPort a
  | _ => false

/-- `claimed(c)` (rule R124). -/
def State.claimed (s : State) (c : BusCycle) : Bool := s.claimedRead c || s.claimedWrite c

/-! ### The offset computation (rule R152) -/

/-- `availableSegments`, floor of size over segment size (rule R28). -/
def availableSegments (c : MapperConfig) : Nat := c.size.toNat / segmentSize c.kind

/-- `address - windowStart`. -/
def windowOffset (k : MapperKind) (address : Half) : Nat := address.toNat - windowStart k

/-- `(address - windowStart) / segmentSize`. -/
def segmentIndex (k : MapperKind) (address : Half) : Nat := windowOffset k address / segmentSize k

/-- The segment a slot shows: its register modulo `availableSegments` for a banked kind, the
constant 0 for the others (rules R29, R152). -/
def segmentOf (c : MapperConfig) (bank : List Byte) (address : Half) : Nat :=
  if banked c.kind then
    ((bank[segmentIndex c.kind address]?).getD
      (Config.missingRegister (segmentIndex c.kind address))).toNat % availableSegments c
  else 0

/-- `romOffset - baseOffset` (rule R152). -/
def imageOffset (c : MapperConfig) (bank : List Byte) (address : Half) : Nat :=
  segmentOf c bank address * segmentSize c.kind + windowOffset c.kind address % segmentSize c.kind

/-- `romOffset` (rule R152), on naturals (rule R167). -/
def romOffset (c : MapperConfig) (bank : List Byte) (address : Half) : Nat :=
  c.baseOffset.toNat + imageOffset c bank address

/-! ### Control-port bytes -/

/-- How many address bytes are still to come (rule R35). -/
def AddrLeft.toNat : AddrLeft → Nat
  | .four => 4
  | .three => 3
  | .two => 2
  | .one => 1

/-- The index `j = 4 - k` of the byte that arrives next (rule R207). -/
def AddrLeft.index (k : AddrLeft) : Nat := 4 - k.toNat

/-- Where a control-port byte stands in the given phase (rules R95, R193). -/
def positionOf : StoragePhase → Position
  | .idle | .xferRead | .xferWrite => .opcode
  | .awaitAddr _ => .address
  | .awaitGo => .trigger

/-- The context in which the block decodes a word now. -/
def State.ctx (s : State) : Ctx where
  kind := s.kind
  konamiWide := s.params.konamiWide
  portCtrl := s.params.portCtrl
  portData := s.params.portData
  position := positionOf s.bridge.phase

/-! ### The combined image -/

/-- `TABLE_BASE = FW_SIZE + 0x8000` (rule R251). -/
def State.tableBase (s : State) : Nat := s.params.fwSize + menuBytes

/-- The listed byte at an address, if there is one. -/
def Memory.read : Memory → Nat → Option Byte
  | [], _ => none
  | c :: rest, a => if c.1 = a then some c.2 else Memory.read rest a

/-- One byte of `IMG`; a byte that persistent storage does not hold is unspecified and fixed for a
run (rule R259). -/
def imgByte (img : Memory) (a : Nat) : Byte := (Memory.read img a).getD (Config.imgByte a)

/-- `MemRead(IMG, a, n)`: the `n` bytes at `a`, lowest address first (rule R11). -/
def imgBytes (img : Memory) (a : Nat) : Nat → List Byte
  | 0 => []
  | n + 1 => imgByte img a :: imgBytes img (a + 1) n

/-- The memory that lists the given bytes from an address up. -/
def Memory.ofBytes (a : Nat) : List Byte → Memory
  | [] => []
  | b :: rest => (a, b) :: Memory.ofBytes (a + 1) rest

end Sys2Proof.Machine
end

