-- ==== Sys2Proof/Machine/Ops.lean ====
section
/-! DEFINITION. The named operations over the state that meanings share: the data lines and the wait
output, a driver call, the one error action of the machine (rule R275, the only "exception"; there
is no return from it, rule R276), bank registers, and the bridge's own transitions. -/

namespace Sys2Proof.Machine

/-! ### Data lines, phases, wait (40_bus_cycle.md) -/

/-- `driveByte(v)`: the data lines become outputs holding `v` until `RD` returns high (rule R126). -/
def drive (v : Byte) (s : State) : State :=
  { s with bcc := { s.bcc with phase := .driving v .rd } }

/-- After a claimed write: wait for `WR` without driving (rule R128). -/
def holdWrite (s : State) : State := { s with bcc := { s.bcc with phase := .holding .wr } }

/-- The controller may sample again (rules R128, R129). -/
def toReleased (s : State) : State := { s with bcc := { s.bcc with phase := .released } }

/-- The wait output takes the level rule R131 gives it. -/
def setWait (busy : Bool) (s : State) : State :=
  { s with bcc := { s.bcc with wait := s.waitCondition busy } }

/-- A blind interval begins: it goes on the record with the wait output of that moment. -/
def noteBlind (what : Blind) (s : State) : State :=
  { s with record := { s.record with blind := { what := what, wait := s.bcc.wait } :: s.record.blind } }

/-- The loop is at the given point. -/
def toPoint (p : LoopPoint) (s : State) : State := { s with bcc := { s.bcc with point := p } }

/-! ### Driver calls (rules R70, R71, R217) -/

/-- The answer the driver gives to the call made now: the next listed one, or a free value. -/
def State.nextReply (s : State) : Reply := s.env.replies.headD (Config.driverReply s.env.draws)

/-- The answer has been used. -/
def takeReply (s : State) : State :=
  { s with env := { s.env with replies := s.env.replies.tail, draws := s.env.draws + 1 } }

/-- A driver call as part of the transition of the cycle that makes it (rule R65), from its start to
its return; the wait output covers it (rule R131 b). The answer is `s.nextReply`. How many instants of
the lines the call takes is said where the loop is (`State.prepare`, log entry 11). -/
def callDriver (call : DriverCall) (s : State) : State :=
  setWait false (takeReply (noteBlind (.driver call) (setWait true s)))

/-! ### Mapper (41_mapper.md) -/

/-- Write a bank register: all 8 bits, unmasked (rules R30, R169). -/
def setBank (r : Nat) (v : Byte) (s : State) : State := { s with bank := s.bank.set r v }

/-- One free value has been drawn. -/
def countDraw (s : State) : State := { s with env := { s.env with draws := s.env.draws + 1 } }

/-- The image byte at an address, where the offset lies in the image (rules R152, R168). -/
def State.mappedByte (s : State) (c : MapperConfig) (address : Half) : Option Byte :=
  if imageOffset c s.bank address < c.size.toNat then
    Memory.read s.rbs.bytes (romOffset c s.bank address)
  else none

/-- `MapperRead(address)`: drive the image byte, or an unspecified byte where the offset is outside
the image (rules R152, R168). -/
def mapperRead (address : Half) (s : State) : State :=
  match s.cfg with
  | none => s
  | some c =>
    match s.mappedByte c address with
    | some v => drive v s
    | none => drive (Config.pastImage s.env.draws) (countDraw s)

/-- `MapperWrite(address, data)`: "if address matches an entry in triggerTable, set
bankRegisterFile[triggerTable[address]] = data" (rules R164, R165, R171). -/
def mapperWrite (address : Half) (data : Byte) (s : State) : State :=
  match s.cfg with
  | none => s
  | some c =>
    match triggerRegister s.params.konamiWide c.kind address with
    | none => s
    | some r => setBank r data s

/-! ### Bridge transitions (42_storage_bridge.md) -/

/-- `DropTransfer()` (rule R194). -/
def Bridge.dropTransfer (b : Bridge) : Bridge :=
  { b with bytesPendingIn := 0#16, bytesPendingOut := 0#16, phase := .idle }

/-- `raise StorageError`: the error code, the counts, the phase, and nothing else (rule R275). -/
def Bridge.raiseStorageError (b : Bridge) : Bridge :=
  { b with ctrlReg := statusByte .err, bytesPendingIn := 0#16, bytesPendingOut := 0#16, phase := .idle }

/-- `SetStatus(s)` (rule R198). -/
def Bridge.setStatus (st : Status) (b : Bridge) : Bridge :=
  match st with
  | .ok => { b with ctrlReg := statusByte .ok }
  | .err => b.raiseStorageError

/-- A recognised opcode is decoded: any transfer is dropped and the opcode recorded (rules R193,
R196). -/
def Bridge.startOpcode (op : Byte) (b : Bridge) : Bridge := { b.dropTransfer with opcode := op }

/-- Stage a 4-byte payload, least significant byte first, and open its transfer (rules R105, R203). -/
def Bridge.stagePayload (x : Word) (b : Bridge) : Bridge :=
  { b with
    blockBuffer :=
      (((b.blockBuffer.set 0 (byteOf x 0)).set 1 (byteOf x 1)).set 2 (byteOf x 2)).set 3 (byteOf x 3)
    cursor := 0#16, bytesPendingOut := BitVec.ofNat 16 Config.idLen, phase := .xferRead }

/-- `BeginAddr()` (rules R206, R210). -/
def Bridge.beginAddr (b : Bridge) : Bridge :=
  { b with sectorAddress := 0#32, phase := .awaitAddr .four }

/-- The fourth address byte of a block write opens the transfer (rule R207). -/
def Bridge.openWrite (b : Bridge) : Bridge :=
  { b with cursor := 0#16, bytesPendingIn := BitVec.ofNat 16 sectorBytes, phase := .xferWrite }

/-- `AddrByte(v)` with `k` bytes to come, this one included (rules R104, R207). After the last one
the opcode decides: a block read awaits its trigger, a block write opens its transfer. -/
def Bridge.addrByte (k : AddrLeft) (v : Byte) (b : Bridge) : Bridge :=
  let b := { b with sectorAddress := b.sectorAddress ||| byteAt v k.index }
  match k with
  | .four => { b with phase := .awaitAddr .three }
  | .three => { b with phase := .awaitAddr .two }
  | .two => { b with phase := .awaitAddr .one }
  | .one => if b.opcode = 0x06#8 then { b with phase := .awaitGo } else b.openWrite

/-- A sector read succeeded: the block is in the buffer and 512 bytes wait (rule R213). -/
def Bridge.openRead (d : Block) (b : Bridge) : Bridge :=
  { b with
    blockBuffer := d, ctrlReg := statusByte .ok, cursor := 0#16,
    bytesPendingOut := BitVec.ofNat 16 sectorBytes, phase := .xferRead }

/-- `buf[S.cursor]`, the byte the cursor points at. -/
def Bridge.byteAtCursor (b : Bridge) : Byte :=
  (b.blockBuffer[b.cursor.toNat]?).getD (Config.pastBuffer b.cursor.toNat)

/-- A data-port read that delivers a payload byte (rule R199, first branch). -/
def Bridge.deliver (b : Bridge) : Bridge :=
  { b with
    cursor := b.cursor + 1#16
    bytesPendingOut := b.bytesPendingOut - 1#16
    dataReg := b.byteAtCursor
    phase := if b.bytesPendingOut - 1#16 = 0#16 then .idle else b.phase }

/-- A data-port write that stores a payload byte (rule R200), before any commit. -/
def Bridge.accept (v : Byte) (b : Bridge) : Bridge :=
  { b with
    dataReg := v
    blockBuffer := b.blockBuffer.setIfInBounds b.cursor.toNat v
    cursor := b.cursor + 1#16
    bytesPendingIn := b.bytesPendingIn - 1#16 }

/-- A sector was committed: the status, the next sector's address, the phase (rule R211). -/
def Bridge.committed (b : Bridge) : Bridge :=
  { b with ctrlReg := statusByte .ok, sectorAddress := b.sectorAddress + 1#32, phase := .idle }

/-- Apply a transition of the bridge. -/
def onBridge (f : Bridge → Bridge) (s : State) : State := { s with bridge := f s.bridge }

/-! ### Which cycle calls the driver -/

/-- The driver call that a cycle makes, if it makes one (rule R217): `INIT`, `PRESENT`, `GETCAP`, the
trigger of `RDSEC`, `RDNEXT`, and the data-port write that is the last one awaited. -/
def State.callOf (s : State) (c : BusCycle) : Option DriverCall :=
  match decodeCycle c with
  | .iowr _ a v =>
    if portOf a = s.params.portCtrl then
      match decodeCommand (positionOf s.bridge.phase) v with
      | .init => some .init
      | .present => some .present
      | .getcap => some .sectorCount
      | .go => some (.readSector s.bridge.sectorAddress)
      | .rdnext => some (.readSector (s.bridge.sectorAddress + 1#32))
      | _ => none
    else if portOf a = s.params.portData ∧ s.bridge.bytesPendingIn = 1#16 then
      some (.writeSector s.bridge.sectorAddress (s.bridge.accept v).blockBuffer)
    else none
  | _ => none

/-! ### Outcomes -/

/-- Apply `f` to a next state; pass a fault or a refusal on. -/
def mapNext (f : State → State) (o : Host.Outcome State Fault Refusal) :
    Host.Outcome State Fault Refusal :=
  match o with
  | .next s => .next (f s)
  | .fault r => .fault r
  | .refused r => .refused r

end Sys2Proof.Machine
end

