-- ==== Sys2Proof/Machine/Mapper.lean ====
section
/-! DEFINITION. The Memory Mapper Engine's rows: the read of each kind (rules R153 to R159) and the
trigger write of each register (rules R160 to R163). A row is a `MEMRD` or `MEMWR` cycle under the
row's condition; where the condition does not hold the row is not the one being issued, the engine
does not act, and the state stays as it is (rules R97, R151; DESIGN CHOICE, log entries 15 and 16). -/

namespace Sys2Proof.Machine

/-- The read row of a kind: that kind is selected and the address lies in its window (rule R151). -/
def readOfKind (k : MapperKind) (address : Half) (s : State) : State :=
  if s.kind = some k ∧ inWindow k address = true then mapperRead address s else s

/-- The trigger row of a kind's register: that kind is selected and the address lies in the
register's range (rule R103). -/
def triggerOfKind (k : MapperKind) (r : Nat) (address : Half) (data : Byte) (s : State) : State :=
  if s.kind = some k ∧ triggerRegister s.params.konamiWide k address = some r then setBank r data s
  else s

/-- `RD.PLAIN16` (rule R153). -/
def execRdPlain16 (address : Half) (_data : Byte) (s : State) : Host.Outcome State Fault Refusal :=
  .next (readOfKind .plain16 address s)

/-- `RD.PLAIN32` (rule R154). -/
def execRdPlain32 (address : Half) (_data : Byte) (s : State) : Host.Outcome State Fault Refusal :=
  .next (readOfKind .plain32 address s)

/-- `RD.LINEAR0` (rule R155). -/
def execRdLinear0 (address : Half) (_data : Byte) (s : State) : Host.Outcome State Fault Refusal :=
  .next (readOfKind .linear0 address s)

/-- `RD.KONAMISCC` (rule R156); no address returns sound-chip registers (rule R166). -/
def execRdKonamiScc (address : Half) (_data : Byte) (s : State) : Host.Outcome State Fault Refusal :=
  .next (readOfKind .konamiScc address s)

/-- `RD.KONAMI` (rule R157). -/
def execRdKonami (address : Half) (_data : Byte) (s : State) : Host.Outcome State Fault Refusal :=
  .next (readOfKind .konami address s)

/-- `RD.ASCII8` (rule R158). -/
def execRdAscii8 (address : Half) (_data : Byte) (s : State) : Host.Outcome State Fault Refusal :=
  .next (readOfKind .ascii8 address s)

/-- `RD.ASCII16` (rule R159). -/
def execRdAscii16 (address : Half) (_data : Byte) (s : State) : Host.Outcome State Fault Refusal :=
  .next (readOfKind .ascii16 address s)

/-- `BANK.KONAMISCC.0` (rule R160). -/
def execBankKonamiScc0 (address : Half) (data : Byte) (s : State) :
    Host.Outcome State Fault Refusal :=
  .next (triggerOfKind .konamiScc 0 address data s)

/-- `BANK.KONAMISCC.1` (rule R160). -/
def execBankKonamiScc1 (address : Half) (data : Byte) (s : State) :
    Host.Outcome State Fault Refusal :=
  .next (triggerOfKind .konamiScc 1 address data s)

/-- `BANK.KONAMISCC.2` (rule R160). -/
def execBankKonamiScc2 (address : Half) (data : Byte) (s : State) :
    Host.Outcome State Fault Refusal :=
  .next (triggerOfKind .konamiScc 2 address data s)

/-- `BANK.KONAMISCC.3` (rule R160). -/
def execBankKonamiScc3 (address : Half) (data : Byte) (s : State) :
    Host.Outcome State Fault Refusal :=
  .next (triggerOfKind .konamiScc 3 address data s)

/-- `BANK.KONAMI.1` (rule R161). -/
def execBankKonami1 (address : Half) (data : Byte) (s : State) : Host.Outcome State Fault Refusal :=
  .next (triggerOfKind .konami 1 address data s)

/-- `BANK.KONAMI.2` (rule R161). -/
def execBankKonami2 (address : Half) (data : Byte) (s : State) : Host.Outcome State Fault Refusal :=
  .next (triggerOfKind .konami 2 address data s)

/-- `BANK.KONAMI.3` (rule R161). -/
def execBankKonami3 (address : Half) (data : Byte) (s : State) : Host.Outcome State Fault Refusal :=
  .next (triggerOfKind .konami 3 address data s)

/-- `BANK.ASCII8.0` (rule R162). -/
def execBankAscii80 (address : Half) (data : Byte) (s : State) : Host.Outcome State Fault Refusal :=
  .next (triggerOfKind .ascii8 0 address data s)

/-- `BANK.ASCII8.1` (rule R162). -/
def execBankAscii81 (address : Half) (data : Byte) (s : State) : Host.Outcome State Fault Refusal :=
  .next (triggerOfKind .ascii8 1 address data s)

/-- `BANK.ASCII8.2` (rule R162). -/
def execBankAscii82 (address : Half) (data : Byte) (s : State) : Host.Outcome State Fault Refusal :=
  .next (triggerOfKind .ascii8 2 address data s)

/-- `BANK.ASCII8.3` (rule R162). -/
def execBankAscii83 (address : Half) (data : Byte) (s : State) : Host.Outcome State Fault Refusal :=
  .next (triggerOfKind .ascii8 3 address data s)

/-- `BANK.ASCII16.0` (rule R163). -/
def execBankAscii160 (address : Half) (data : Byte) (s : State) :
    Host.Outcome State Fault Refusal :=
  .next (triggerOfKind .ascii16 0 address data s)

/-- `BANK.ASCII16.1` (rule R163). -/
def execBankAscii161 (address : Half) (data : Byte) (s : State) :
    Host.Outcome State Fault Refusal :=
  .next (triggerOfKind .ascii16 1 address data s)

end Sys2Proof.Machine
end

