-- ==== Sys2Proof/Machine/Storage.lean ====
section
/-! DEFINITION. The Storage Command Protocol Bridge: the four port operations, the nine opcode rows,
the two sequence steps and the two status values. The opcode rows start from `DropTransfer`, as
every byte in opcode position does (rule R193); issued where the phase makes the byte something
else, a row is not the one being issued and changes nothing (DESIGN CHOICE, log entries 15 and 16). -/

namespace Sys2Proof.Machine

/-! ### Commands (rules R201 to R213) -/

/-- `SectorRead(i)` (rule R213). After a failure the buffer's content is unspecified. -/
def sectorRead (i : Word) (s : State) : State :=
  match s.nextReply.status with
  | .ok => onBridge (Bridge.openRead s.nextReply.data) (callDriver (.readSector i) s)
  | .err =>
    onBridge (fun b => { b.raiseStorageError with blockBuffer := Config.staleBlock s.env.draws })
      (callDriver (.readSector i) s)

/-- `Commit()` (rule R211). -/
def commitSector (s : State) : State :=
  let called := callDriver (.writeSector s.bridge.sectorAddress s.bridge.blockBuffer) s
  match s.nextReply.status with
  | .ok => onBridge Bridge.committed called
  | .err => onBridge Bridge.raiseStorageError called

/-- A command that calls the driver for a status and ends idle (rules R201, R202). -/
def statusCommand (op : Byte) (call : DriverCall) (s : State) : State :=
  onBridge (fun b => { Bridge.setStatus s.nextReply.status b with phase := .idle })
    (callDriver call (onBridge (Bridge.startOpcode op) s))

/-- `INIT` (rule R201). -/
def initCommand (s : State) : State := statusCommand 0x01#8 .init s

/-- `PRESENT` (rule R202). -/
def presentCommand (s : State) : State := statusCommand 0x02#8 .present s

/-- `GETID` (rule R203): no driver call, no status. -/
def getIdCommand (s : State) : State :=
  onBridge (fun b => (b.startOpcode 0x03#8).stagePayload s.params.deviceId) s

/-- `GETSER` (rule R204). -/
def getSerialCommand (s : State) : State :=
  onBridge (fun b => (b.startOpcode 0x04#8).stagePayload s.params.deviceSerial) s

/-- `GETCAP` (rule R205): `sectorCount()` returns no status. -/
def getCapacityCommand (s : State) : State :=
  onBridge (Bridge.stagePayload s.nextReply.count)
    (callDriver .sectorCount (onBridge (Bridge.startOpcode 0x05#8) s))

/-- `RDSEC`, first byte (rule R206). -/
def readSectorCommand (s : State) : State :=
  onBridge (fun b => (b.startOpcode 0x06#8).beginAddr) s

/-- `RDNEXT` (rule R209): increment, then read. -/
def readNextCommand (s : State) : State :=
  let next := s.bridge.sectorAddress + 1#32
  sectorRead next
    (onBridge (fun b => { b.startOpcode 0x07#8 with sectorAddress := next }) s)

/-- `WRSEC`, first byte (rule R210). -/
def writeSectorCommand (s : State) : State :=
  onBridge (fun b => (b.startOpcode 0x08#8).beginAddr) s

/-- `UNREC` (rules R96, R212): the transfer is dropped, nothing else happens. -/
def unrecognised (s : State) : State := onBridge Bridge.dropTransfer s

/-- `Go()` (rule R208). -/
def goCommand (s : State) : State := sectorRead s.bridge.sectorAddress s

/-- `DropTransfer(); Decode(v)` (rules R193, R196). -/
def opcodeByte (v : Byte) (s : State) : State :=
  match v.toNat with
  | 1 => initCommand s
  | 2 => presentCommand s
  | 3 => getIdCommand s
  | 4 => getSerialCommand s
  | 5 => getCapacityCommand s
  | 6 => readSectorCommand s
  | 7 => readNextCommand s
  | 8 => writeSectorCommand s
  | _ => unrecognised s

/-! ### Port operations -/

/-- `CtlRead()` (rule R192). -/
def ctlRead (s : State) : State := drive s.bridge.ctrlReg s

/-- `CtlWrite(v)` (rule R193): the phase says what the byte is. -/
def ctlWrite (v : Byte) (s : State) : State :=
  match s.bridge.phase with
  | .awaitAddr k => onBridge (Bridge.addrByte k v) s
  | .awaitGo => if v = 0x06#8 then goCommand s else opcodeByte v s
  | .idle | .xferRead | .xferWrite => opcodeByte v s

/-- `DatRead()` (rule R199). -/
def datRead (s : State) : State :=
  if s.bridge.bytesPendingOut = 0#16 then drive s.bridge.dataReg s
  else drive s.bridge.byteAtCursor (onBridge Bridge.deliver s)

/-- `DatWrite(v)` (rule R200): the 512th byte commits. -/
def datWrite (v : Byte) (s : State) : State :=
  if s.bridge.bytesPendingIn = 0#16 then onBridge (fun b => { b with dataReg := v }) s
  else
    let stored := onBridge (Bridge.accept v) s
    if stored.bridge.bytesPendingIn = 0#16 then commitSector stored else stored

/-! ### Meanings -/

/-- Issue an opcode row where its byte stands in opcode position (rule R95). -/
def atOpcode (b : Byte) (f : State → State) (s : State) : State :=
  if opcodePosition s.ctx b then f s else s

/-- `CTLRD` (rule R192). -/
def execCtlrd (_cs : Bool) (_high _data : Byte) (s : State) : Host.Outcome State Fault Refusal :=
  .next (ctlRead s)

/-- `CTLWR` (rule R193). -/
def execCtlwr (_cs : Bool) (_high data : Byte) (s : State) : Host.Outcome State Fault Refusal :=
  .next (ctlWrite data s)

/-- `DATRD` (rule R199). -/
def execDatrd (_cs : Bool) (_high _data : Byte) (s : State) : Host.Outcome State Fault Refusal :=
  .next (datRead s)

/-- `DATWR` (rule R200). -/
def execDatwr (_cs : Bool) (_high data : Byte) (s : State) : Host.Outcome State Fault Refusal :=
  .next (datWrite data s)

/-- `INIT` (rules R196, R201). -/
def execInit (s : State) : Host.Outcome State Fault Refusal :=
  .next (atOpcode 0x01#8 initCommand s)

/-- `PRESENT` (rules R196, R202). -/
def execPresent (s : State) : Host.Outcome State Fault Refusal :=
  .next (atOpcode 0x02#8 presentCommand s)

/-- `GETID` (rules R196, R203). -/
def execGetid (s : State) : Host.Outcome State Fault Refusal :=
  .next (atOpcode 0x03#8 getIdCommand s)

/-- `GETSER` (rules R196, R204). -/
def execGetser (s : State) : Host.Outcome State Fault Refusal :=
  .next (atOpcode 0x04#8 getSerialCommand s)

/-- `GETCAP` (rules R196, R205). -/
def execGetcap (s : State) : Host.Outcome State Fault Refusal :=
  .next (atOpcode 0x05#8 getCapacityCommand s)

/-- `RDSEC` (rules R196, R206). -/
def execRdsec (s : State) : Host.Outcome State Fault Refusal :=
  .next (atOpcode 0x06#8 readSectorCommand s)

/-- `RDNEXT` (rules R196, R209). -/
def execRdnext (s : State) : Host.Outcome State Fault Refusal :=
  .next (atOpcode 0x07#8 readNextCommand s)

/-- `WRSEC` (rules R196, R210). -/
def execWrsec (s : State) : Host.Outcome State Fault Refusal :=
  .next (atOpcode 0x08#8 writeSectorCommand s)

/-- `UNREC` (rules R96, R212). -/
def execUnrec (op : Byte) (s : State) : Host.Outcome State Fault Refusal :=
  .next (atOpcode op unrecognised s)

/-- `ADDR` (rule R207), in phase `AwaitAddr(k)`. -/
def execAddr (v : Byte) (s : State) : Host.Outcome State Fault Refusal :=
  match s.bridge.phase with
  | .awaitAddr k => .next (onBridge (Bridge.addrByte k v) s)
  | .idle | .awaitGo | .xferRead | .xferWrite => .next s

/-- `GO` (rule R208), in phase `AwaitGo`. -/
def execGo (s : State) : Host.Outcome State Fault Refusal :=
  match s.bridge.phase with
  | .awaitGo => .next (goCommand s)
  | .idle | .awaitAddr _ | .xferRead | .xferWrite => .next s

/-- `ST.OK`: the status of a driver call that succeeded goes to the control register (rules R100,
R198; DEDUCED, log entry 8). -/
def execStOk (s : State) : Host.Outcome State Fault Refusal :=
  .next (onBridge (Bridge.setStatus .ok) s)

/-- `ST.ERR`: the status of a driver call that failed goes to the control register, and the
transfer is aborted (rules R100, R198, R275; DEDUCED, log entry 8). -/
def execStErr (s : State) : Host.Outcome State Fault Refusal :=
  .next (onBridge (Bridge.setStatus .err) s)

end Sys2Proof.Machine
end

