-- ==== Sys2Proof/Machine/Table.lean ====
section
/-! DEFINITION. The Configuration Table Reader, image selection and load (43_config_table.md). A
`KIND.<kind>` row is a record with that mapper code: its meaning is the selection of that record
(rules R101, R257, R259; DESIGN CHOICE, log entry 7); `SELECT` finds the record in the table first (rule R258). -/

namespace Sys2Proof.Machine

/-- The scan of `readTable`, with at most `fuel` records still to read (rule R253). -/
def scanTable (img : Memory) (base : Nat) : Nat → List RomRecord
  | 0 => []
  | fuel + 1 =>
    let raw := imgBytes img base recordBytes
    if isSentinel raw then []
    else recordOfBytes raw :: scanTable img (base + recordBytes) fuel

/-- `readTable(base)`: up to the first sentinel, at most 256 records (rules R253 to R256). -/
def readTable (img : Memory) (base : Nat) : List RomRecord := scanTable img base maxRecords

/-- The size conditions of a usable record of a kind (rule R257). -/
def usableSize (capacity : Nat) (k : MapperKind) (size : Nat) : Bool :=
  decide (1 ≤ size) && decide (size ≤ capacity) &&
    (!banked k || (decide (segmentSize k ≤ size) && size % segmentSize k == 0))

/-- A record is usable (rule R257). -/
def usable (capacity : Nat) (r : RomRecord) : Bool :=
  match kindOfCode r.mapper with
  | none => false
  | some k => usableSize capacity k r.size.toNat

/-- `Load(rec)` for a record of the given kind (rule R259). -/
def loadImage (k : MapperKind) (r : RomRecord) (s : State) : State :=
  { s with
    rbs :=
      { bytes := Memory.ofBytes 0 (imgBytes s.img r.offset.toNat r.size.toNat)
        name := some r.name }
    cfg := some { kind := k, baseOffset := 0#32, size := r.size }
    bank := bankAfterSelect s.params.bankInit k }

/-- Load a usable record; an unusable one changes nothing (rules R257, R258). -/
def loadIfUsable (r : RomRecord) (s : State) : State :=
  match kindOfCode r.mapper with
  | none => s
  | some k => if usableSize s.params.storeCapacity k r.size.toNat then loadImage k r s else s

/-- A selection from its start to its end; the wait output covers it (rule R131 c). How many instants
of the lines it takes is said where the loop is (`State.prepare`, log entry 11). -/
def duringSelection (f : State → State) (s : State) : State :=
  setWait false (f (noteBlind .selection (setWait true s)))

/-- Select a record. -/
def selectRecord (r : RomRecord) (s : State) : State := duringSelection (loadIfUsable r) s

/-- `Select(n)`: an index past the list or an unusable record changes nothing (rule R258). -/
def selectIndex (n : Nat) (s : State) : State :=
  duringSelection
    (fun t =>
      match (readTable t.img t.tableBase)[n]? with
      | none => t
      | some r => loadIfUsable r t)
    s

/-- The record of a kind's row. -/
def recordOfKind (k : MapperKind) (name : List Byte) (size offset : Word) : RomRecord :=
  { name := name, mapper := kindCode k, size := size, offset := offset }

/-- `KIND.PLAIN16` (rules R101, R150, R259). -/
def execKindPlain16 (name : List Byte) (size offset : Word) (s : State) :
    Host.Outcome State Fault Refusal :=
  .next (selectRecord (recordOfKind .plain16 name size offset) s)

/-- `KIND.PLAIN32` (rules R101, R150, R259). -/
def execKindPlain32 (name : List Byte) (size offset : Word) (s : State) :
    Host.Outcome State Fault Refusal :=
  .next (selectRecord (recordOfKind .plain32 name size offset) s)

/-- `KIND.KONAMISCC` (rules R101, R150, R259). -/
def execKindKonamiScc (name : List Byte) (size offset : Word) (s : State) :
    Host.Outcome State Fault Refusal :=
  .next (selectRecord (recordOfKind .konamiScc name size offset) s)

/-- `KIND.LINEAR0` (rules R101, R150, R259). -/
def execKindLinear0 (name : List Byte) (size offset : Word) (s : State) :
    Host.Outcome State Fault Refusal :=
  .next (selectRecord (recordOfKind .linear0 name size offset) s)

/-- `KIND.ASCII8` (rules R101, R150, R259). -/
def execKindAscii8 (name : List Byte) (size offset : Word) (s : State) :
    Host.Outcome State Fault Refusal :=
  .next (selectRecord (recordOfKind .ascii8 name size offset) s)

/-- `KIND.ASCII16` (rules R101, R150, R259). -/
def execKindAscii16 (name : List Byte) (size offset : Word) (s : State) :
    Host.Outcome State Fault Refusal :=
  .next (selectRecord (recordOfKind .ascii16 name size offset) s)

/-- `KIND.KONAMI` (rules R101, R150, R259). -/
def execKindKonami (name : List Byte) (size offset : Word) (s : State) :
    Host.Outcome State Fault Refusal :=
  .next (selectRecord (recordOfKind .konami name size offset) s)

/-- `READTABLE` (rule R253): no state of the block is written; the list it returns goes on the
record. -/
def execReadtable (base : Nat) (s : State) : Host.Outcome State Fault Refusal :=
  .next { s with record := { s.record with listed := readTable s.img base } }

/-- `SELECT` (rule R258). -/
def execSelect (n : Nat) (s : State) : Host.Outcome State Fault Refusal := .next (selectIndex n s)

end Sys2Proof.Machine
end

