-- ==== Sys2Proof/Machine/Cycle.lean ====
section
/-! DEFINITION. The Bus Cycle Controller: its primitives (rules R125 to R131) and the arms of the
primary loop for the seven kinds of bus cycle (rule R134). A primitive whose precondition does not
hold is not issued by the loop (rule R130) and changes nothing here (DESIGN CHOICE, log entry 15). -/

namespace Sys2Proof.Machine

/-! ### Primitives -/

/-- `SAMPLE` (rule R125): no state of the block changes; the cycle it returns goes on the record. -/
def execSample (s : State) : Host.Outcome State Fault Refusal :=
  match s.bcc.phase with
  | .released => .next { s with record := { s.record with sampled := some s.sample } }
  | .driving _ _ | .holding _ => .next s

/-- `DRIVE` (rule R126): the cycle just sampled is a claimed read. -/
def execDrive (value : Byte) (s : State) : Host.Outcome State Fault Refusal :=
  match s.bcc.phase with
  | .released => .next (if s.claimedRead s.sample then drive value s else s)
  | .driving _ _ | .holding _ => .next s

/-- `POLL` (rules R127, R128): while the strobe is low nothing happens; when it is high a hold ends,
and a drive may be released. -/
def execPoll (strobe : Strobe) (s : State) : Host.Outcome State Fault Refusal :=
  match s.bcc.phase with
  | .holding st => .next (if st = strobe ∧ s.strobeHigh strobe = true then toReleased s else s)
  | .released | .driving _ _ => .next s

/-- `RELEASE` (rule R129): the strobe has been seen high. -/
def execRelease (s : State) : Host.Outcome State Fault Refusal :=
  match s.bcc.phase with
  | .driving _ st => .next (if s.strobeHigh st then toReleased s else s)
  | .released | .holding _ => .next s

/-- `HOLD` (rule R128): the cycle just sampled is a claimed write. -/
def execHold (s : State) : Host.Outcome State Fault Refusal :=
  match s.bcc.phase with
  | .released => .next (if s.claimedWrite s.sample then holdWrite s else s)
  | .driving _ _ | .holding _ => .next s

/-- `WAIT` (rule R131). -/
def execWait (busy : Bool) (s : State) : Host.Outcome State Fault Refusal := .next (setWait busy s)

/-! ### Bus cycles (rule R134) -/

/-- `MEMRD`: inside the active window the mapper's byte is driven, else the cycle is ignored. -/
def execMemrd (address : Half) (_data : Byte) (s : State) : Host.Outcome State Fault Refusal :=
  .next (if s.inActiveWindow address then mapperRead address s else s)

/-- `MEMWR`: inside the active window the mapper acts and the controller holds, else ignored. -/
def execMemwr (address : Half) (data : Byte) (s : State) : Host.Outcome State Fault Refusal :=
  .next (if s.inActiveWindow address then holdWrite (mapperWrite address data s) else s)

/-- `IORD`: the two ports answer, every other port is ignored (rules R94, R191). -/
def execIord (_cs : Bool) (address : Half) (_data : Byte) (s : State) :
    Host.Outcome State Fault Refusal :=
  .next
    (if portOf address = s.params.portCtrl then ctlRead s
     else if portOf address = s.params.portData then datRead s
     else s)

/-- `IOWR`: the two ports act and the controller holds, every other port is ignored. -/
def execIowr (_cs : Bool) (address : Half) (data : Byte) (s : State) :
    Host.Outcome State Fault Refusal :=
  .next
    (if portOf address = s.params.portCtrl then holdWrite (ctlWrite data s)
     else if portOf address = s.params.portData then holdWrite (datWrite data s)
     else s)

/-- `NOSTB`: no strobe asserted, ignored (rules R97, R123). -/
def execNostb (_cs _io : Bool) (_address : Half) (_data : Byte) (s : State) :
    Host.Outcome State Fault Refusal := .next s

/-- `BOTH`: both strobes asserted, ignored (rules R97, R123). -/
def execBoth (_cs _io : Bool) (_address : Half) (_data : Byte) (s : State) :
    Host.Outcome State Fault Refusal := .next s

/-- `NOSEL`: a memory cycle for another slot, ignored (rules R97, R123). -/
def execNosel (_isRead : Bool) (_address : Half) (_data : Byte) (s : State) :
    Host.Outcome State Fault Refusal := .next s

end Sys2Proof.Machine
end

