-- ==== Sys2Proof/Machine/Dispatch.lean ====
section
/-! DEFINITION. One arm per constructor of `Instr`: the meaning of each operation of rule R111. -/

namespace Sys2Proof.Machine

def exec (i : Instr) (s : State) : Host.Outcome State Fault Refusal :=
  match i with
  | .sample => Sys2Proof.Machine.execSample s
  | .drive v => Sys2Proof.Machine.execDrive v s
  | .poll st => Sys2Proof.Machine.execPoll st s
  | .release => Sys2Proof.Machine.execRelease s
  | .hold => Sys2Proof.Machine.execHold s
  | .wait b => Sys2Proof.Machine.execWait b s
  | .memrd a d => Sys2Proof.Machine.execMemrd a d s
  | .memwr a d => Sys2Proof.Machine.execMemwr a d s
  | .iord cs a d => Sys2Proof.Machine.execIord cs a d s
  | .iowr cs a d => Sys2Proof.Machine.execIowr cs a d s
  | .nostb cs io a d => Sys2Proof.Machine.execNostb cs io a d s
  | .both cs io a d => Sys2Proof.Machine.execBoth cs io a d s
  | .nosel r a d => Sys2Proof.Machine.execNosel r a d s
  | .rdPlain16 a d => Sys2Proof.Machine.execRdPlain16 a d s
  | .rdPlain32 a d => Sys2Proof.Machine.execRdPlain32 a d s
  | .rdLinear0 a d => Sys2Proof.Machine.execRdLinear0 a d s
  | .rdKonamiScc a d => Sys2Proof.Machine.execRdKonamiScc a d s
  | .rdKonami a d => Sys2Proof.Machine.execRdKonami a d s
  | .rdAscii8 a d => Sys2Proof.Machine.execRdAscii8 a d s
  | .rdAscii16 a d => Sys2Proof.Machine.execRdAscii16 a d s
  | .bankKonamiScc0 a d => Sys2Proof.Machine.execBankKonamiScc0 a d s
  | .bankKonamiScc1 a d => Sys2Proof.Machine.execBankKonamiScc1 a d s
  | .bankKonamiScc2 a d => Sys2Proof.Machine.execBankKonamiScc2 a d s
  | .bankKonamiScc3 a d => Sys2Proof.Machine.execBankKonamiScc3 a d s
  | .bankKonami1 a d => Sys2Proof.Machine.execBankKonami1 a d s
  | .bankKonami2 a d => Sys2Proof.Machine.execBankKonami2 a d s
  | .bankKonami3 a d => Sys2Proof.Machine.execBankKonami3 a d s
  | .bankAscii80 a d => Sys2Proof.Machine.execBankAscii80 a d s
  | .bankAscii81 a d => Sys2Proof.Machine.execBankAscii81 a d s
  | .bankAscii82 a d => Sys2Proof.Machine.execBankAscii82 a d s
  | .bankAscii83 a d => Sys2Proof.Machine.execBankAscii83 a d s
  | .bankAscii160 a d => Sys2Proof.Machine.execBankAscii160 a d s
  | .bankAscii161 a d => Sys2Proof.Machine.execBankAscii161 a d s
  | .ctlrd cs hi d => Sys2Proof.Machine.execCtlrd cs hi d s
  | .ctlwr cs hi d => Sys2Proof.Machine.execCtlwr cs hi d s
  | .datrd cs hi d => Sys2Proof.Machine.execDatrd cs hi d s
  | .datwr cs hi d => Sys2Proof.Machine.execDatwr cs hi d s
  | .init => Sys2Proof.Machine.execInit s
  | .present => Sys2Proof.Machine.execPresent s
  | .getid => Sys2Proof.Machine.execGetid s
  | .getser => Sys2Proof.Machine.execGetser s
  | .getcap => Sys2Proof.Machine.execGetcap s
  | .rdsec => Sys2Proof.Machine.execRdsec s
  | .rdnext => Sys2Proof.Machine.execRdnext s
  | .wrsec => Sys2Proof.Machine.execWrsec s
  | .unrec op => Sys2Proof.Machine.execUnrec op s
  | .addr v => Sys2Proof.Machine.execAddr v s
  | .go => Sys2Proof.Machine.execGo s
  | .stOk => Sys2Proof.Machine.execStOk s
  | .stErr => Sys2Proof.Machine.execStErr s
  | .kindPlain16 n z o => Sys2Proof.Machine.execKindPlain16 n z o s
  | .kindPlain32 n z o => Sys2Proof.Machine.execKindPlain32 n z o s
  | .kindKonamiScc n z o => Sys2Proof.Machine.execKindKonamiScc n z o s
  | .kindLinear0 n z o => Sys2Proof.Machine.execKindLinear0 n z o s
  | .kindAscii8 n z o => Sys2Proof.Machine.execKindAscii8 n z o s
  | .kindAscii16 n z o => Sys2Proof.Machine.execKindAscii16 n z o s
  | .kindKonami n z o => Sys2Proof.Machine.execKindKonami n z o s
  | .readtable b => Sys2Proof.Machine.execReadtable b s
  | .select n => Sys2Proof.Machine.execSelect n s

end Sys2Proof.Machine
end

