-- ==== Sys2Proof/Machine/Fetch.lean ====
section
/-! DEFINITION. What a step runs: where the machine does not fetch at a program counter (rule R42),
the boot stage, the controller's phase, the point of the loop, the shared flag and the lines say
which operation comes next (rules R134, R302); and how time passes for the environment. -/

namespace Sys2Proof.Machine

/-! ### The next operation -/

/-- The operation of a turn at whose sample the loop has arrived: a pending selection goes first and
keeps the loop busy (rules R134, R284); a sampled cycle that calls the driver is served from the next
instant on (the rows of V-B4); every other cycle is acted on at once. -/
def State.turnInstr (s : State) : Instr :=
  match s.pendingReselect with
  | some _ => .wait true
  | none => if (s.callOf s.sample).isSome then .sample else decodeCycle s.sample

/-- The operation the block performs at this instant: a boot step (rule R302); a poll or a release of
the cycle being served (rules R127 to R129); the wait output while a driver call or a selection runs,
and its effect when it is done (rules R131, R217, R313); else the turn's. -/
def State.nextInstr (s : State) : Instr :=
  match s.bcc.stage with
  | .readTable => .readtable s.tableBase
  | .selecting =>
    match s.env.bootSelects with
    | n :: _ => .select n
    | [] => .wait false
  | .running =>
    match s.bcc.phase with
    | .driving _ st => if s.strobeHigh st then .release else .poll st
    | .holding st => .poll st
    | .released =>
      match s.bcc.point with
      | .sampled _ _ | .calling _ (_ + 1) | .loading _ (_ + 1) => .wait true
      | .calling c 0 => decodeCycle c
      | .loading n 0 => .select n
      | .top | .sampling => s.turnInstr

/-! ### Where the loop goes -/

/-- Where a turn goes on: into the selection, into the driver call, or back to the top. -/
def State.turnPoint (s : State) : LoopPoint :=
  match s.pendingReselect with
  | some n => .loading n s.now.busy
  | none => if (s.callOf s.sample).isSome then .sampled s.sample s.now.busy else .top

/-- What the step takes note of before it runs that operation: the boot sequence or the loop moves on,
a boot selection is used up, and the flag is cleared by the selection that was made for it ("`Select(n);
reselect <- None`", rule R134). -/
def State.prepare (s : State) : State :=
  match s.bcc.stage with
  | .readTable => { s with bcc := { s.bcc with stage := .selecting } }
  | .selecting =>
    match s.env.bootSelects with
    | _ :: rest => { s with env := { s.env with bootSelects := rest } }
    | [] => { s with bcc := { s.bcc with stage := .running } }
  | .running =>
    match s.bcc.phase with
    | .driving _ _ | .holding _ => s
    | .released =>
      match s.bcc.point with
      | .sampled c k | .calling c (k + 1) => toPoint (.calling c k) s
      | .calling _ 0 => toPoint .top s
      | .loading n (k + 1) => toPoint (.loading n k) s
      | .loading _ 0 => toPoint .sampling { s with reselect := none }
      | .top | .sampling => toPoint s.turnPoint s

/-! ### The passing of an instant -/

/-- Every write of the second task that the loop does not see yet, with the one of this instant. -/
def State.flagQueue (s : State) : List FlagWrite := s.env.flagWrites ++ s.now.flagWrite.toList

/-- The writes at the head of a queue that the loop sees now; one cell, so in order (rule R75). -/
def landed (q : List FlagWrite) : List FlagWrite := q.takeWhile fun w => w.delay == 0

/-- The other writes of a queue, one instant nearer. -/
def inFlight (q : List FlagWrite) : List FlagWrite :=
  (q.dropWhile fun w => w.delay == 0).map fun w => { w with delay := w.delay - 1 }

/-- The flag after a queue's writes have landed: the last of them, or what it held (rule R75). -/
def flagAfter (q : List FlagWrite) (held : Option Nat) : Option Nat :=
  match (landed q).getLast? with
  | some w => some w.value
  | none => held

/-- The instant is over: writes of the second task whose delay is over are in the shared flag (rule
R75), and the environment moves to its next instant. DESIGN CHOICE, log entries 1 and 13. -/
def advance (s : State) : State :=
  { s with
    reselect := flagAfter s.flagQueue s.reselect
    env := { s.env with
      inputs := s.env.inputs.tail, time := s.env.time + 1, flagWrites := inFlight s.flagQueue } }

/-! ### Placing a table word -/

/-- Where the loop stands when a placed cycle is what it acts on next: an I/O write has been sampled
and any driver call it makes is done at this instant; every other cycle is about to be sampled. -/
def placePoint (c : BusCycle) : LoopPoint :=
  if c.ioRequest && c.isWrite then .calling c 0 else .sampling

/-- The lines show the given cycle at the current instant, and the loop acts on it at this instant. -/
def placeCycle (c : BusCycle) (s : State) : State :=
  { s with
    bcc := { stage := .running, point := placePoint c, phase := .released, wait := false }
    env := { s.env with
      inputs := { lines := linesOfCycle c, flagWrite := none, busy := 0 } :: s.env.inputs.tail } }

/-- A control-port byte will stand in opcode position (rule R95). -/
def toOpcodePosition (s : State) : State :=
  match s.bridge.phase with
  | .idle | .xferRead | .xferWrite => s
  | .awaitAddr _ | .awaitGo => onBridge Bridge.dropTransfer s

/-- The state in which the next step runs the instruction of a table word: a `BUS28` word is put on
the lines, an 8-bit word is written to the control port in opcode position. DESIGN CHOICE, log entry
21. -/
def placeWord (nbits w : Nat) (s : State) : State :=
  if nbits = 8 then
    placeCycle (portWriteCycle s.params.portCtrl (BitVec.ofNat 8 w)) (toOpcodePosition s)
  else placeCycle (busCycle (BitVec.ofNat 28 w)) s

end Sys2Proof.Machine
end

