-- ==== Sys2Proof/Machine/Step.lean ====
section
/-! DEFINITION. One step of the block at the line level: one turn of the primary loop of rule R134,
or one step of the boot sequence of rule R302, during which one instant passes. -/

namespace Sys2Proof.Machine

/-- Run the operation of this instant, then let the instant pass. -/
def step (s : State) : Host.Outcome State Fault Refusal :=
  mapNext advance (exec s.nextInstr s.prepare)

/-- The state in which the next step runs the instruction of a table word. -/
def State.withFetchWord (s : State) (nbits w : Nat) : State := placeWord nbits w s

end Sys2Proof.Machine
end

