-- ==== Sys2Proof/Machine/Event.lean ====
section
/-! DEFINITION. The event level (rules R12, R133): one transition per `BusCycle`, answered by a byte
or by nothing, and its lift to a list of host cycles. The driver's answers and the draws are in the
state. -/

namespace Sys2Proof.Machine

/-- One host cycle as one event: act on it; the cycle is over when its strobe is high again. -/
def eventStep (c : BusCycle) (s : State) : Host.Outcome State Fault Refusal :=
  mapNext toReleased (exec (decodeCycle c) s)

/-- The response of a cycle: the driven byte, or none (rule R133). -/
def response (c : BusCycle) (s : State) : Option Byte :=
  match exec (decodeCycle c) s with
  | .next t => t.dout
  | .fault _ | .refused _ => none

/-- A list of host cycles, in host order (rule R74). -/
def runEvents : List BusCycle → State → Host.Outcome State Fault Refusal
  | [], s => .next s
  | c :: rest, s =>
    match eventStep c s with
    | .next t => runEvents rest t
    | .fault r => .fault r
    | .refused r => .refused r

/-- The responses of a list of host cycles, in order. -/
def responses : List BusCycle → State → List (Option Byte)
  | [], _ => []
  | c :: rest, s =>
    response c s ::
      (match eventStep c s with
      | .next t => responses rest t
      | .fault _ | .refused _ => [])

/-- `n` steps of the line level. -/
def runSteps : Nat → State → Host.Outcome State Fault Refusal
  | 0, s => .next s
  | n + 1, s =>
    match step s with
    | .next t => runSteps n t
    | .fault r => .fault r
    | .refused r => .refused r

end Sys2Proof.Machine
end

