-- ==== Sys2Proof/Machine/Driver.lean ====
section
/-! DEFINITION. The reference driver of rule R71, "a testing device, not a claim about any real
driver", and the event level run with it as the oracle of rule R133: each cycle that calls the driver
gets the reference driver's answer. The machine itself assumes no law of a driver (log entry 6). -/

namespace Sys2Proof.Machine

/-- "a total map `sect : u32 -> [u8;512]` and a flag `ok`", and the `count` of its sectors (rule R71).
It is an agent's own state, no part of the block's (rules R20, R70). -/
structure RefDriver where
  ok : Bool
  count : Word
  sect : Word → Block

/-- The sector's index is below the driver's count and the driver works. -/
def RefDriver.serves (d : RefDriver) (i : Word) : Bool := d.ok && decide (i.toNat < d.count.toNat)

/-- `Ok` exactly when the condition holds. -/
def statusOf (b : Bool) : Status := if b then .ok else .err

/-- The answer to a call; the parts that the call does not use are filled with the sector count and
sector 0. -/
def RefDriver.reply (d : RefDriver) : DriverCall → Reply
  | .init | .present => { status := statusOf d.ok, data := d.sect 0#32, count := d.count }
  | .readSector i => { status := statusOf (d.serves i), data := d.sect i, count := d.count }
  | .writeSector i _ => { status := statusOf (d.serves i), data := d.sect 0#32, count := d.count }
  | .sectorCount => { status := .ok, data := d.sect 0#32, count := d.count }

/-- The driver after a call: a write that it serves sets the sector. -/
def RefDriver.after (d : RefDriver) : DriverCall → RefDriver
  | .writeSector i data =>
    if d.serves i then { d with sect := fun j => if j = i then data else d.sect j } else d
  | .init | .present | .readSector _ | .sectorCount => d

/-- The state in which the call of a cycle, if it makes one, is answered by the reference driver. -/
def State.answeredBy (s : State) (d : RefDriver) (c : BusCycle) : State :=
  match s.callOf c with
  | none => s
  | some call => { s with env := { s.env with replies := d.reply call :: s.env.replies } }

/-- The driver after a cycle. -/
def RefDriver.afterCycle (d : RefDriver) (s : State) (c : BusCycle) : RefDriver :=
  match s.callOf c with
  | none => d
  | some call => d.after call

/-- A list of host cycles with the reference driver as oracle: the state and the driver at its end. -/
def runWith : List BusCycle → RefDriver → State → Host.Outcome (State × RefDriver) Fault Refusal
  | [], d, s => .next (s, d)
  | c :: rest, d, s =>
    match eventStep c (s.answeredBy d c) with
    | .next t => runWith rest (d.afterCycle s c) t
    | .fault r => .fault r
    | .refused r => .refused r

/-- The responses of such a list, in order. -/
def responsesWith : List BusCycle → RefDriver → State → List (Option Byte)
  | [], _, _ => []
  | c :: rest, d, s =>
    response c (s.answeredBy d c) ::
      (match eventStep c (s.answeredBy d c) with
      | .next t => responsesWith rest (d.afterCycle s c) t
      | .fault _ | .refused _ => [])

end Sys2Proof.Machine
end

