-- ==== Sys2Proof/Safety.lean ====
section
/-! DEFINITION. What holds in every reachable state (rule R47), as one invariant in five parts, and
what "the same but for the environment" means. Nothing in this machine is fatal (rule R272): a safe
run is one that keeps the invariant, and every run does. -/

namespace Sys2Proof.Machine

/-- The two ports differ (rule R8). -/
def ParamsOk (p : Params) : Prop := p.portCtrl ≠ p.portData

/-- The loop has arrived at its sample: at the top with nothing in the flag, or after the selection of
this turn (rule R134). -/
def State.AtSample (s : State) : Prop :=
  s.bcc.point = .sampling ∨ (s.bcc.point = .top ∧ s.reselect = none)

/-- The controller: a drive waits for `RD`, a hold for `WR` (rule R22), no cycle is served and no call
or selection runs before the loop is entered (rule R303 b), none runs while a cycle is being served,
the cycle kept during a call is one that makes it (rule R217), and the wait output has the level of
rule R131. -/
structure BccOk (s : State) : Prop where
  drivingWaitsForRd : ∀ v st, s.bcc.phase = .driving v st → st = .rd
  holdingWaitsForWr : ∀ st, s.bcc.phase = .holding st → st = .wr
  bootServesNothing : s.bcc.stage ≠ .running → s.bcc.phase = .released
  bootAtTop : s.bcc.stage ≠ .running → s.bcc.point = .top
  servedAtTop : s.bcc.phase ≠ .released → s.bcc.point = .top
  callingCalls : ∀ c k, s.bcc.point = .sampled c k ∨ s.bcc.point = .calling c k →
    (s.callOf c).isSome = true
  waitLevel : s.bcc.wait = (s.params.useWait && (!s.running || s.bcc.point.blind))

/-- What a selected image makes true of the mapper and the store (rules R28, R47 items 1 to 3, R259):
the size is well-formed for the kind and fits the store, the register file has the kind's length,
Konami's register 0 keeps its initial value, and the store holds the bytes of the combined image at
some offset, one for each offset below the size and no more. -/
structure ImageOk (s : State) (c : MapperConfig) : Prop where
  baseZero : c.baseOffset = 0#32
  sizeUsable : usableSize s.params.storeCapacity c.kind c.size.toNat = true
  bankLength : s.bank.length = registers c.kind
  konamiFixed : c.kind = .konami → s.bank[0]? = some s.params.bankInit.konami[0]
  storeHoldsImage : ∃ offset, s.rbs.bytes = Memory.ofBytes 0 (imgBytes s.img offset c.size.toNat)
  nameLength : ∃ name, s.rbs.name = some name ∧ name.length = nameBytes

/-- The mapper engine and the backing store: empty, or a selected image (rules R27, R29, R32). -/
def MapperOk (s : State) : Prop :=
  match s.cfg with
  | none => s.bank = [] ∧ s.rbs = { bytes := [], name := none }
  | some c => ImageOk s c

/-- Both memories are in canonical form. -/
def MemoryOk (s : State) : Prop := s.img.wf = true ∧ s.rbs.bytes.wf = true

/-- The bridge (rules R34, R35, R37 to R39, R47 items 4 to 6): a phase transfers exactly while its
count is nonzero, cursor and count add up to the length of the transfer, and the address phases
belong to the opcode that has them. -/
structure BridgeOk (b : Bridge) : Prop where
  readPhase : b.phase = .xferRead ↔ b.bytesPendingOut ≠ 0#16
  writePhase : b.phase = .xferWrite ↔ b.bytesPendingIn ≠ 0#16
  outSum : b.bytesPendingOut ≠ 0#16 →
    b.cursor.toNat + b.bytesPendingOut.toNat = 512 ∨ b.cursor.toNat + b.bytesPendingOut.toNat = 4
  inSum : b.bytesPendingIn ≠ 0#16 → b.cursor.toNat + b.bytesPendingIn.toNat = 512
  cursorRange : b.cursor.toNat ≤ 512
  addressOpcode : ∀ k, b.phase = .awaitAddr k → b.opcode = 0x06#8 ∨ b.opcode = 0x08#8
  triggerOpcode : b.phase = .awaitGo → b.opcode = 0x06#8

/-- The invariant of rule R47, with the facts it needs. -/
structure Inv (s : State) : Prop where
  params : ParamsOk s.params
  bcc : BccOk s
  mapper : MapperOk s
  memory : MemoryOk s
  bridge : BridgeOk s.bridge

/-! ### Words that statements about single operations share -/

/-- The state with another controller phase, all else unchanged. -/
def State.withPhase (s : State) (p : BccPhase) : State := { s with bcc := { s.bcc with phase := p } }

/-- The state with another bridge, all else unchanged. -/
def State.withBridge (s : State) (b : Bridge) : State := { s with bridge := b }

/-- A byte of this value stands in opcode position (rule R95). -/
def InOpcodePosition (b : Bridge) (v : Byte) : Prop :=
  (∀ k, b.phase ≠ .awaitAddr k) ∧ (b.phase = .awaitGo → v ≠ 0x06#8)

/-- What a blind interval leaves in the state apart from its own effect: the wait output back at the
level it has outside such intervals, and the interval on the record, with the wait output asserted
in it exactly when `USE_WAIT` (rule R131). -/
def State.afterBlind (s : State) (what : Blind) : State :=
  { s with
    bcc := { s.bcc with wait := s.params.useWait && !s.running }
    record := { s.record with blind := { what := what, wait := s.params.useWait } :: s.record.blind } }

/-- What a driver call leaves in the state apart from its answer's effect: the blind interval, the
answer used up, one free value counted (rule R71). -/
def State.afterCall (s : State) (call : DriverCall) : State :=
  { s.afterBlind (.driver call) with
    env := { s.env with replies := s.env.replies.tail, draws := s.env.draws + 1 } }

/-- The control-port writes of a command with a sector address: opcode, then four address bytes,
least significant first (rules R104, R106). -/
def addressedCommand (port op : Byte) (sector : Word) : List BusCycle :=
  portWriteCycle port op :: (leBytes sector).map (portWriteCycle port)

end Sys2Proof.Machine
end

