-- ==== Sys2Proof/Certificates/Slice0/Obligations.lean ====
section
/-! DEFINITION. The statements about the model, one `def Obligations.<Name> : Prop` each, in the
order of OBLIGATIONS.json. An equation with a next state is a result, a frame and a completion at
once: every part of the state that the right side does not name is unchanged, all memory included. -/

open Sys2Proof Sys2Proof.Machine

/-! ### Encoding -/

/-- Decoding an encoded operation gives it back, for every row that has an encoding, in every
context in which the row applies (30_encoding.md). -/
def Obligations.DecodeOfEncodeIsTheInstruction : Prop :=
  ∀ (ctx : Ctx) (i : Instr) (w : Code), i.wellFormed = true → rowApplies ctx i = true →
    encode ctx i = some w → decode ctx w = some i

/-- Every `BUS28` word is the encoding of the kind it decodes to: no bit is dropped and no word is
left out (rules R90, R92). -/
def Obligations.EncodeOfDecodedBusWordIsTheWord : Prop :=
  ∀ (ctx : Ctx) (w : BitVec 28), encode ctx (decodeBus w) = some (.bus28 w)

/-- The kind of a cycle by its four booleans, and which sub-block may act on it: only a memory kind
can change the mapper or drive its byte, only an I/O kind can change the bridge, and the other kinds
change nothing (rule R123). -/
def Obligations.CycleKindAndRouteFollowTheFourBooleans : Prop :=
  ∀ (c : BusCycle) (s t : State),
    decodeCycle c =
      (if c.isRead = true ∧ c.isWrite = true then
        .both c.chipSelected c.ioRequest c.address c.data
      else if c.isRead = false ∧ c.isWrite = false then
        .nostb c.chipSelected c.ioRequest c.address c.data
      else if c.ioRequest = true then
        (if c.isRead = true then .iord c.chipSelected c.address c.data
        else .iowr c.chipSelected c.address c.data)
      else if c.chipSelected = true then
        (if c.isRead = true then .memrd c.address c.data else .memwr c.address c.data)
      else .nosel c.isRead c.address c.data) ∧
    (exec (decodeCycle c) s = .next t →
      (t.bridge ≠ s.bridge → c.isRead ≠ c.isWrite ∧ c.ioRequest = true) ∧
      (t.bank ≠ s.bank →
        c.isWrite = true ∧ c.isRead = false ∧ c.ioRequest = false ∧ c.chipSelected = true) ∧
      (c.isRead = c.isWrite ∨ (c.ioRequest = false ∧ c.chipSelected = false) → t = s))

/-- Words written out bit by bit from the tables of 30_encoding.md, for five cycle kinds and one each of
a command byte, a status byte and a record. That an 8-bit word is read as a byte in opcode position is
the model's choice (log entry 20). -/
def Obligations.SpelledOutWordsDecode : Prop :=
  decodeBus 0b1010011000010010001100000000#28 = .memrd 0x6123#16 0x00#8 ∧
  decodeBus 0b1001011010000000000000000101#28 = .memwr 0x6800#16 0x05#8 ∧
  decodeBus 0b0110000000000100000000000000#28 = .iord false 0x0040#16 0x00#8 ∧
  decodeBus 0b1101000000000100000000000110#28 = .iowr true 0x0040#16 0x06#8 ∧
  decodeBus 0b0010010000000000000000000000#28 = .nosel true 0x4000#16 0x00#8 ∧
  decodeTableWord 8 0b00000111 = some .rdnext ∧
  decodeStatus 0b11111111#8 = some .stErr ∧
  decodeRecord (List.replicate 20 0x20#8 ++
      [0b00000101#8, 0x00#8, 0x00#8, 0x02#8, 0x00#8, 0x00#8, 0x40#8, 0x02#8, 0x00#8]) =
    some (.kindAscii8 (List.replicate 20 0x20#8) 0x00020000#32 0x00024000#32)

/-- The byte in opcode position: the eight opcodes, and 248 unrecognised values (rules R95, R96). -/
def Obligations.OpcodePositionBytesAreEightOpcodesOrUnrecognised : Prop :=
  ∀ b : Byte,
    decodeCommand .opcode b =
      (if b = 0x01#8 then .init else if b = 0x02#8 then .present else if b = 0x03#8 then .getid
      else if b = 0x04#8 then .getser else if b = 0x05#8 then .getcap
      else if b = 0x06#8 then .rdsec else if b = 0x07#8 then .rdnext
      else if b = 0x08#8 then .wrsec else .unrec b) ∧
    decodeCommand .address b = .addr b ∧
    (b = 0x06#8 → decodeCommand .trigger b = .go) ∧
    (b ≠ 0x06#8 → decodeCommand .trigger b = decodeCommand .opcode b)

/-! ### Steps -/

/-- When the loop has arrived at its sample and the lines show a cycle that calls no driver, a step is
`exec` of that cycle, after which the instant passes; a cycle that calls the driver is sampled, the
call lasts as many instants as the environment says and one more, and the step in which it returns is
`exec` of the cycle. That one step is one instant is the model's choice (log entries 1 and 11). -/
def Obligations.StepRunsTheSampledCycle : Prop :=
  (∀ (s : State) (w : BitVec 28) (i : Instr), s.bcc.stage = .running → s.bcc.phase = .released →
    s.AtSample → cycleOfLines s.now.lines = busCycle w → decodeBus w = i →
    (s.callOf (busCycle w) = none → step s = mapNext advance (exec i (toPoint .top s))) ∧
    ((s.callOf (busCycle w)).isSome = true →
      step s = mapNext advance (exec .sample (toPoint (.sampled (busCycle w) s.now.busy) s)))) ∧
  (∀ (s : State) (c : BusCycle) (k : Nat), s.bcc.stage = .running → s.bcc.phase = .released →
    (s.bcc.point = .sampled c k ∨ s.bcc.point = .calling c (k + 1) →
      step s = mapNext advance (exec (.wait true) (toPoint (.calling c k) s))) ∧
    (s.bcc.point = .calling c 0 →
      step s = mapNext advance (exec (decodeCycle c) (toPoint .top s))))

/-- The other steps: the poll of a strobe still low, the release once it is high, the end of a hold,
a pending selection (its begin, its length, its effect, after which the lines are sampled without
another test of the flag), and the boot sequence. One instant a step, one step a boot stage and how
long a selection lasts are the model's choices (log entries 1, 2, 11 and 12). -/
def Obligations.StepRunsPollReleaseSelectionAndBoot : Prop :=
  (∀ (s : State) (v : Byte), s.bcc.stage = .running → s.bcc.phase = .driving v .rd →
    (s.now.lines.rdN = false → step s = mapNext advance (exec (.poll .rd) s)) ∧
    (s.now.lines.rdN = true → step s = mapNext advance (exec .release s))) ∧
  (∀ s : State, s.bcc.stage = .running → s.bcc.phase = .holding .wr →
    step s = mapNext advance (exec (.poll .wr) s)) ∧
  (∀ (s : State) (n k : Nat), s.bcc.stage = .running → s.bcc.phase = .released →
    (s.bcc.point = .top → s.reselect = some n →
      step s = mapNext advance (exec (.wait true) (toPoint (.loading n s.now.busy) s))) ∧
    (s.bcc.point = .loading n (k + 1) →
      step s = mapNext advance (exec (.wait true) (toPoint (.loading n k) s))) ∧
    (s.bcc.point = .loading n 0 →
      step s = mapNext advance (exec (.select n) (toPoint .sampling { s with reselect := none })))) ∧
  (∀ s : State, s.bcc.stage = .readTable →
    step s = mapNext advance
      (exec (.readtable (s.params.fwSize + 0x8000))
        { s with bcc := { s.bcc with stage := .selecting } })) ∧
  (∀ (s : State) (n : Nat) (rest : List Nat), s.bcc.stage = .selecting →
    s.env.bootSelects = n :: rest →
    step s = mapNext advance
      (exec (.select n) { s with env := { s.env with bootSelects := rest } })) ∧
  (∀ s : State, s.bcc.stage = .selecting → s.env.bootSelects = [] →
    step s = mapNext advance
      (exec (.wait false) { s with bcc := { s.bcc with stage := .running } }))

/-- No step and no operation stops the machine: nothing in this core is fatal (rule R272). That a hang
is steps that go on, and that an operation executed outside its condition changes nothing, are the
model's (log entries 19 and 15). -/
def Obligations.EveryStepAndOperationAnswersANextState : Prop :=
  (∀ s : State, ∃ t, step s = .next t) ∧ (∀ (i : Instr) (s : State), ∃ t, exec i s = .next t)

/-! ### Invariants -/

/-- The invariant of rule R47 is kept by every step, from every state that meets it. -/
def Obligations.EveryStepKeepsTheInvariant : Prop :=
  ∀ s t : State, Inv s → step s = .next t → Inv t

/-- The invariant holds after reset, under any parameters with two different ports. -/
def Obligations.ResetMeetsTheInvariant : Prop :=
  Inv State.reset ∧
  ∀ (p : Params) (img : Memory) (selects : List Nat), p.portCtrl ≠ p.portData → img.wf = true →
    Inv (State.resetWith p img selects)

/-- What reset leaves, as the table of rule R46 lists it: the controller released and not driving, no
image, the bridge idle with all counts 0. What the table leaves unspecified is a free value (log
entries 5 and 17) and is not named here. -/
def Obligations.ResetValuesFollowTheTable : Prop :=
  ∀ (p : Params) (img : Memory) (selects : List Nat),
    let s := State.resetWith p img selects
    s.bcc.phase = .released ∧ s.dout = none ∧ s.busdir = false ∧ s.bcc.wait = p.useWait ∧
    s.cfg = none ∧ s.bank = [] ∧ s.rbsSize = 0 ∧ s.bridge.opcode = 0x00#8 ∧
    s.bridge.phase = .idle ∧ s.bridge.sectorAddress = 0#32 ∧ s.bridge.bytesPendingIn = 0#16 ∧
    s.bridge.bytesPendingOut = 0#16 ∧ s.bridge.cursor = 0#16 ∧ s.bridge.ctrlReg = p.ctrlReset ∧
    s.bridge.dataReg = p.dataReset ∧ s.reselect = none ∧ s.running = false ∧
    State.reset = State.resetWith Config.params [] Config.bootSelects

/-- Parameters and the combined image are fixed for a run, and the loop once entered is never left
(rules R20, R81, R302). That the state carries the parameters is the model's choice (log entry 3). -/
def Obligations.NoStepChangesParametersImageOrLeavesTheLoop : Prop :=
  ∀ s t : State, step s = .next t →
    t.params = s.params ∧ t.img = s.img ∧ (s.bcc.stage = .running → t.bcc.stage = .running)

/-- No operation reads the record: what it holds never changes what an operation does (rule R21). The
record is the model's own (log entry 14). -/
def Obligations.NoOperationReadsTheRecord : Prop :=
  ∀ (i : Instr) (s t : State) (r : Record), exec i s = .next t →
    ∃ r', exec i { s with record := r } = .next { t with record := r' }

/-! ### The controller -/

/-- `SAMPLE` returns the levels of the lines and changes nothing else (rule R125). Where the result is
put is the model's choice (log entry 14). -/
def Obligations.SampleReturnsTheLineLevels : Prop :=
  ∀ s : State, s.bcc.phase = .released →
    exec .sample s = .next { s with record := { s.record with sampled := some (
      { address := s.now.lines.addr, data := s.now.lines.data,
        isRead := !s.now.lines.rdN, isWrite := !s.now.lines.wrN,
        chipSelected := !s.now.lines.sltslN, ioRequest := !s.now.lines.iorqN } : BusCycle) } }

/-- `DRIVE` after a claimed read puts the byte on the data lines and asserts bus-direction; `RELEASE`
once `RD` is high undoes both (rules R126, R129). -/
def Obligations.DriveAndReleaseMoveTheDataLines : Prop :=
  ∀ (s : State) (v : Byte),
    (s.bcc.phase = .released → s.claimedRead (cycleOfLines s.now.lines) = true →
      exec (.drive v) s = .next (s.withPhase (.driving v .rd)) ∧
      (s.withPhase (.driving v .rd)).dout = some v ∧ (s.withPhase (.driving v .rd)).busdir = true) ∧
    (s.bcc.phase = .driving v .rd → s.now.lines.rdN = true →
      exec .release s = .next (s.withPhase .released) ∧
      (s.withPhase .released).dout = none ∧ (s.withPhase .released).busdir = false)

/-- `HOLD` after a claimed write waits for `WR` without driving; `POLL` leaves the state alone while
the strobe is low and ends a hold when it is high (rules R127, R128). -/
def Obligations.HoldAndPollWaitForTheStrobe : Prop :=
  ∀ s : State,
    (s.bcc.phase = .released → s.claimedWrite (cycleOfLines s.now.lines) = true →
      exec .hold s = .next (s.withPhase (.holding .wr)) ∧
      (s.withPhase (.holding .wr)).dout = none ∧ (s.withPhase (.holding .wr)).busdir = false) ∧
    (s.bcc.phase = .holding .wr → s.now.lines.wrN = false → exec (.poll .wr) s = .next s) ∧
    (s.bcc.phase = .holding .wr → s.now.lines.wrN = true →
      exec (.poll .wr) s = .next (s.withPhase .released)) ∧
    (∀ v, s.bcc.phase = .driving v .rd → exec (.poll .rd) s = .next s)

/-- `WAIT`: the wait output by `USE_WAIT`, the loop and a running call or selection (rule R131). -/
def Obligations.WaitFollowsItsCondition : Prop :=
  ∀ (s : State) (busy : Bool),
    exec (.wait busy) s = .next { s with bcc := { s.bcc with
      wait := s.params.useWait && (busy || decide (s.bcc.stage ≠ .running)) } }

/-- The wait output is asserted exactly with `USE_WAIT`, and then before the loop is entered and while
a driver call or a selection runs (rule R131). A step makes at most one call or selection, and only
with the wait output asserted since an earlier instant; a cycle makes the call that its byte and the
phase name and no other; and while a call or a selection runs nothing else changes. That these
intervals are counted in instants and noted on the record is the model's choice (log entry 11). -/
def Obligations.WaitCoversEveryBlindInterval : Prop :=
  (∀ s t : State, Inv s → step s = .next t →
    t.bcc.wait =
      (s.params.useWait && (decide (t.bcc.stage ≠ .running) || t.bcc.point.blind)) ∧
    (∃ new : List BlindWindow, t.record.blind = new ++ s.record.blind ∧ new.length ≤ 1 ∧
      (∀ w ∈ new, w.wait = s.params.useWait) ∧
      (new ≠ [] → s.bcc.wait = s.params.useWait ∧
        (s.bcc.stage = .running → s.bcc.point.blind = true))) ∧
    (t.bcc.point.blind = true → t.bridge = s.bridge ∧ t.cfg = s.cfg ∧ t.bank = s.bank ∧
      t.rbs = s.rbs ∧ t.record = s.record ∧ t.dout = none)) ∧
  (∀ (s t : State) (c : BusCycle), exec (decodeCycle c) s = .next t →
    t.record.blind = ((s.callOf c).toList.map fun call =>
      { what := .driver call, wait := s.params.useWait }) ++ s.record.blind)

/-- Bus-direction is asserted exactly while the phase is `Driving`, goes active in a claimed read cycle
and in no other, and goes back when `RD` is high (rule R132). That the lines are released in the
instant in which `RD` is first seen high is the model's (log entry 1). -/
def Obligations.OnlyAClaimedReadCycleDrives : Prop :=
  ∀ s t : State, Inv s → step s = .next t →
    (t.busdir = true ↔ ∃ v st, t.bcc.phase = .driving v st) ∧ (t.busdir = true ↔ t.dout ≠ none) ∧
    (s.bcc.stage = .running → s.bcc.phase = .released → s.AtSample →
      s.claimedRead (cycleOfLines s.now.lines) = true → t.busdir = true) ∧
    (s.busdir = false → t.busdir = true →
      s.bcc.stage = .running ∧ s.bcc.phase = .released ∧ s.AtSample ∧ s.now.lines.rdN = false ∧
      s.now.lines.wrN = true ∧ s.claimedRead (cycleOfLines s.now.lines) = true) ∧
    (∀ v, s.bcc.stage = .running → s.bcc.phase = .driving v .rd →
      (s.now.lines.rdN = false → t.dout = some v) ∧
      (s.now.lines.rdN = true → t.dout = none ∧ t.busdir = false))

/-- A cycle that is not claimed changes nothing, and neither do the three kinds nobody acts on
(rule R97). -/
def Obligations.UnclaimedCyclesChangeNothing : Prop :=
  (∀ (c : BusCycle) (s : State), s.claimed c = false → exec (decodeCycle c) s = .next s) ∧
  (∀ (cs io r : Bool) (a : Half) (d : Byte) (s : State),
    exec (.nostb cs io a d) s = .next s ∧ exec (.both cs io a d) s = .next s ∧
    exec (.nosel r a d) s = .next s) ∧
  (∀ (s : State) (c : MapperConfig) (a : Half) (d : Byte), s.cfg = some c →
    0xC000 ≤ a.toNat ∨ (a.toNat < 0x4000 ∧ c.kind ≠ .linear0) →
    exec (.memrd a d) s = .next s ∧ exec (.memwr a d) s = .next s) ∧
  (∀ (s : State) (cs : Bool) (a : Half) (d : Byte), a.extractLsb' 0 8 ≠ s.params.portCtrl →
    a.extractLsb' 0 8 ≠ s.params.portData →
    exec (.iord cs a d) s = .next s ∧ exec (.iowr cs a d) s = .next s)

/-- Bits no row compares never matter: the address above the port number and chip-select in an I/O
cycle (rule R191), and the data field of a read (rule R93). -/
def Obligations.UncomparedBitsNeverMatter : Prop :=
  ∀ (s : State) (cs cs' : Bool) (a a' : Half) (d d' : Byte),
    (a.extractLsb' 0 8 = a'.extractLsb' 0 8 →
      exec (.iord cs a d) s = exec (.iord cs' a' d') s ∧
      exec (.iowr cs a d) s = exec (.iowr cs' a' d) s) ∧
    exec (.memrd a d) s = exec (.memrd a d') s

/-- One action per strobe: while a cycle is being served a step changes nothing but the controller's
phase, the shared flag and the environment's clock, and the phase stays while the strobe is low and
becomes `Released`, in which alone the next cycle is acted on, when it is high (rule R316). One instant
a step is the model's choice (log entry 1). -/
def Obligations.ServedCycleIsActedOnOnce : Prop :=
  ∀ (s t : State) (st : Strobe), s.bcc.stage = .running →
    (s.bcc.phase = .holding st ∨ ∃ v, s.bcc.phase = .driving v st) → step s = .next t →
    t = { s with
      bcc := { s.bcc with
        phase := if (match st with | .rd => s.now.lines.rdN | .wr => s.now.lines.wrN) = true
          then .released else s.bcc.phase }
      reselect := t.reselect
      env := { s.env with
        inputs := s.env.inputs.tail, time := s.env.time + 1, flagWrites := t.env.flagWrites } }

/-- One host cycle, one event: however long its strobe stays low, and however long the driver call it
makes lasts, a claimed cycle on the lines ends in the state of the event-level step; a call runs with
the wait output asserted and no effect yet; and then a read's byte stays on the data lines until the
strobe is high (rule R133). One instant a step is the model's choice (log entries 1 and 11). -/
def Obligations.LineCycleIsOneEvent : Prop :=
  ∀ (s : State) (c : BusCycle) (first high : Instant) (call low rest : List Instant),
    s.bcc.stage = .running → s.bcc.phase = .released → s.AtSample →
    s.env.inputs = first :: call ++ low ++ high :: rest → cycleOfLines first.lines = c →
    s.claimed c = true → call.length = (if s.callOf c = none then 0 else first.busy + 2) →
    (∀ i ∈ low, (if c.isRead = true then i.lines.rdN else i.lines.wrN) = false) →
    (if c.isRead = true then high.lines.rdN else high.lines.wrN) = true →
    s.env.flagWrites = [] → (∀ i ∈ first :: high :: call ++ low, i.flagWrite = none) →
    ∃ e, eventStep c s = .next e ∧
      runSteps (call.length + low.length + 2) s = .next { e with
        bcc := { e.bcc with point := .top }
        env := { e.env with inputs := rest, time := s.env.time + call.length + low.length + 2 }
        record := { e.record with
          sampled := if s.callOf c = none then s.record.sampled else some c } } ∧
      (∀ k < call.length, ∃ u, runSteps (k + 1) s = .next u ∧ u.dout = none ∧
        u.bridge = s.bridge ∧ u.record.blind = s.record.blind ∧
        u.bcc.wait = if k = 0 then s.bcc.wait else s.params.useWait) ∧
      ∀ k ≤ low.length, ∃ u, runSteps (call.length + k + 1) s = .next u ∧
        u.dout = response c s ∧ u.bank = e.bank ∧ u.bridge = e.bridge

/-! ### The mapper: reads -/

/-- A memory read is the read row of the selected kind (rule R151). -/
def Obligations.MemoryReadIsItsKindsRow : Prop :=
  ∀ (s : State) (c : MapperConfig) (a : Half) (d : Byte), s.cfg = some c →
    windowStart c.kind ≤ a.toNat → a.toNat ≤ windowEnd c.kind →
    exec (.memrd a d) s = exec (readRow c.kind a d) s ∧ ∃ v n, exec (.memrd a d) s =
      .next { s.withPhase (.driving v .rd) with env := { s.env with draws := n } }

/-- The offset computation, for every kind (rule R152): the image byte where the offset lies in the
image, an unspecified byte elsewhere. -/
def Obligations.MemoryReadFollowsTheOffsetFormula : Prop :=
  ∀ (s : State) (c : MapperConfig) (a : Half) (d r v : Byte), s.cfg = some c →
    windowStart c.kind ≤ a.toNat → a.toNat ≤ windowEnd c.kind →
    (banked c.kind = true →
      s.bank[(a.toNat - windowStart c.kind) / segmentSize c.kind]? = some r) →
    let bankv := if banked c.kind then r.toNat % (c.size.toNat / segmentSize c.kind) else 0
    let offset := bankv * segmentSize c.kind + (a.toNat - windowStart c.kind) % segmentSize c.kind
    (offset < c.size.toNat → Memory.read s.rbs.bytes (c.baseOffset.toNat + offset) = some v →
      exec (.memrd a d) s = .next (s.withPhase (.driving v .rd))) ∧
    (c.size.toNat ≤ offset →
      exec (.memrd a d) s = .next { s.withPhase (.driving (Config.pastImage s.env.draws) .rd) with
        env := { s.env with draws := s.env.draws + 1 } })

/-- The three fixed mappings (rules R153, R154, R155): the offset is the distance from the window's
start, and a byte past the image is unspecified, not a mirror. -/
def Obligations.FixedMappingReadsAreLinear : Prop :=
  ∀ (s : State) (c : MapperConfig) (a : Half) (d v : Byte) (start : Nat) (i : Instr),
    s.cfg = some c →
    (c.kind = .plain16 ∧ i = .rdPlain16 a d ∧ start = 0x4000 ∨
      c.kind = .plain32 ∧ i = .rdPlain32 a d ∧ start = 0x4000 ∨
      c.kind = .linear0 ∧ i = .rdLinear0 a d ∧ start = 0x0000) →
    start ≤ a.toNat → a.toNat ≤ 0xBFFF →
    (a.toNat - start < c.size.toNat →
      Memory.read s.rbs.bytes (c.baseOffset.toNat + (a.toNat - start)) = some v →
      exec i s = .next (s.withPhase (.driving v .rd))) ∧
    (c.size.toNat ≤ a.toNat - start →
      exec i s = .next { s.withPhase (.driving (Config.pastImage s.env.draws) .rd) with
        env := { s.env with draws := s.env.draws + 1 } })

/-- The four banked kinds (rules R156 to R159): slot `i` shows the segment that register `i` selects
modulo the number of segments, for every image of at least one segment. -/
def Obligations.BankedSlotsShowTheirSegment : Prop :=
  ∀ (s : State) (c : MapperConfig) (a : Half) (d r v : Byte) (i : Instr) (seg : Nat),
    s.cfg = some c →
    (c.kind = .konamiScc ∧ i = .rdKonamiScc a d ∧ seg = 0x2000 ∨
      c.kind = .konami ∧ i = .rdKonami a d ∧ seg = 0x2000 ∨
      c.kind = .ascii8 ∧ i = .rdAscii8 a d ∧ seg = 0x2000 ∨
      c.kind = .ascii16 ∧ i = .rdAscii16 a d ∧ seg = 0x4000) →
    0x4000 ≤ a.toNat → a.toNat ≤ 0xBFFF → seg ≤ c.size.toNat →
    s.bank[(a.toNat - 0x4000) / seg]? = some r →
    Memory.read s.rbs.bytes (c.baseOffset.toNat +
      ((r.toNat % (c.size.toNat / seg)) * seg + (a.toNat - 0x4000) % seg)) = some v →
    exec i s = .next (s.withPhase (.driving v .rd))

/-- Under the invariant a read of a banked kind always drives a byte of the combined image, and draws
no free value (rules R152, R259). -/
def Obligations.BankedReadStaysInsideTheImage : Prop :=
  ∀ (s : State) (c : MapperConfig) (a : Half) (d : Byte), Inv s → s.cfg = some c →
    banked c.kind = true → 0x4000 ≤ a.toNat → a.toNat ≤ 0xBFFF →
    ∃ offset k, k < c.size.toNat ∧
      s.rbs.bytes = Memory.ofBytes 0 (imgBytes s.img offset c.size.toNat) ∧
      exec (.memrd a d) s = .next (s.withPhase (.driving (imgByte s.img (offset + k)) .rd))

/-- Two register files that agree modulo the number of segments answer every read alike: values are
stored whole and reduced when read (rule R169). -/
def Obligations.RegistersAreReducedOnlyWhenRead : Prop :=
  (∀ (s : State) (c : MapperConfig) (a : Half) (d : Byte) (other : List Byte), s.cfg = some c →
    other.length = s.bank.length →
    (∀ (i : Nat) (x y : Byte), s.bank[i]? = some x → other[i]? = some y →
      x.toNat % (c.size.toNat / segmentSize c.kind) =
        y.toNat % (c.size.toNat / segmentSize c.kind)) →
    mapNext (fun t => { t with bank := [] }) (exec (.memrd a d) { s with bank := other }) =
      mapNext (fun t => { t with bank := [] }) (exec (.memrd a d) s)) ∧
  (∀ (s t : State) (a : Half) (d : Byte), exec (.memwr a d) s = .next t →
    t.bank = s.bank ∨ ∃ r, t.bank = s.bank.set r d)

/-! ### The mapper: writes -/

/-- KonamiSCC's four trigger ranges, and no other address (rule R160). -/
def Obligations.KonamiSccTriggersWriteTheirRegister : Prop :=
  ∀ (s : State) (c : MapperConfig) (a : Half) (d : Byte), s.cfg = some c → c.kind = .konamiScc →
    0x4000 ≤ a.toNat → a.toNat ≤ 0xBFFF →
    exec (.memwr a d) s = .next { s.withPhase (.holding .wr) with bank := (
      if 0x5000 ≤ a.toNat ∧ a.toNat ≤ 0x57FF then s.bank.set 0 d
      else if 0x7000 ≤ a.toNat ∧ a.toNat ≤ 0x77FF then s.bank.set 1 d
      else if 0x9000 ≤ a.toNat ∧ a.toNat ≤ 0x97FF then s.bank.set 2 d
      else if 0xB000 ≤ a.toNat ∧ a.toNat ≤ 0xB7FF then s.bank.set 3 d
      else s.bank) } ∧
    (0x5000 ≤ a.toNat → a.toNat ≤ 0x57FF →
      exec (.bankKonamiScc0 a d) s = .next { s with bank := s.bank.set 0 d }) ∧
    (0x7000 ≤ a.toNat → a.toNat ≤ 0x77FF →
      exec (.bankKonamiScc1 a d) s = .next { s with bank := s.bank.set 1 d }) ∧
    (0x9000 ≤ a.toNat → a.toNat ≤ 0x97FF →
      exec (.bankKonamiScc2 a d) s = .next { s with bank := s.bank.set 2 d }) ∧
    (0xB000 ≤ a.toNat → a.toNat ≤ 0xB7FF →
      exec (.bankKonamiScc3 a d) s = .next { s with bank := s.bank.set 3 d })

/-- Konami's three trigger ranges at either width; register 0 has none (rule R161). -/
def Obligations.KonamiTriggersWriteTheirRegister : Prop :=
  ∀ (s : State) (c : MapperConfig) (a : Half) (d : Byte) (width : Nat), s.cfg = some c →
    c.kind = .konami → 0x4000 ≤ a.toNat → a.toNat ≤ 0xBFFF →
    width = (if s.params.konamiWide = true then 0x2000 else 0x800) →
    exec (.memwr a d) s = .next { s.withPhase (.holding .wr) with bank := (
      if 0x6000 ≤ a.toNat ∧ a.toNat ≤ 0x6000 + width - 1 then s.bank.set 1 d
      else if 0x8000 ≤ a.toNat ∧ a.toNat ≤ 0x8000 + width - 1 then s.bank.set 2 d
      else if 0xA000 ≤ a.toNat ∧ a.toNat ≤ 0xA000 + width - 1 then s.bank.set 3 d
      else s.bank) } ∧
    (0x6000 ≤ a.toNat → a.toNat ≤ 0x6000 + width - 1 →
      exec (.bankKonami1 a d) s = .next { s with bank := s.bank.set 1 d }) ∧
    (0x8000 ≤ a.toNat → a.toNat ≤ 0x8000 + width - 1 →
      exec (.bankKonami2 a d) s = .next { s with bank := s.bank.set 2 d }) ∧
    (0xA000 ≤ a.toNat → a.toNat ≤ 0xA000 + width - 1 →
      exec (.bankKonami3 a d) s = .next { s with bank := s.bank.set 3 d })

/-- ASCII8's four ranges tile `0x6000` to `0x7FFF` (rule R162). -/
def Obligations.Ascii8TriggersWriteTheirRegister : Prop :=
  ∀ (s : State) (c : MapperConfig) (a : Half) (d : Byte), s.cfg = some c → c.kind = .ascii8 →
    0x4000 ≤ a.toNat → a.toNat ≤ 0xBFFF →
    exec (.memwr a d) s = .next { s.withPhase (.holding .wr) with bank := (
      if 0x6000 ≤ a.toNat ∧ a.toNat ≤ 0x67FF then s.bank.set 0 d
      else if 0x6800 ≤ a.toNat ∧ a.toNat ≤ 0x6FFF then s.bank.set 1 d
      else if 0x7000 ≤ a.toNat ∧ a.toNat ≤ 0x77FF then s.bank.set 2 d
      else if 0x7800 ≤ a.toNat ∧ a.toNat ≤ 0x7FFF then s.bank.set 3 d
      else s.bank) } ∧
    (0x6000 ≤ a.toNat → a.toNat ≤ 0x67FF →
      exec (.bankAscii80 a d) s = .next { s with bank := s.bank.set 0 d }) ∧
    (0x6800 ≤ a.toNat → a.toNat ≤ 0x6FFF →
      exec (.bankAscii81 a d) s = .next { s with bank := s.bank.set 1 d }) ∧
    (0x7000 ≤ a.toNat → a.toNat ≤ 0x77FF →
      exec (.bankAscii82 a d) s = .next { s with bank := s.bank.set 2 d }) ∧
    (0x7800 ≤ a.toNat → a.toNat ≤ 0x7FFF →
      exec (.bankAscii83 a d) s = .next { s with bank := s.bank.set 3 d })

/-- ASCII16's two ranges (rule R163). -/
def Obligations.Ascii16TriggersWriteTheirRegister : Prop :=
  ∀ (s : State) (c : MapperConfig) (a : Half) (d : Byte), s.cfg = some c → c.kind = .ascii16 →
    0x4000 ≤ a.toNat → a.toNat ≤ 0xBFFF →
    exec (.memwr a d) s = .next { s.withPhase (.holding .wr) with bank := (
      if 0x6000 ≤ a.toNat ∧ a.toNat ≤ 0x67FF then s.bank.set 0 d
      else if 0x7000 ≤ a.toNat ∧ a.toNat ≤ 0x77FF then s.bank.set 1 d
      else s.bank) } ∧
    (0x6000 ≤ a.toNat → a.toNat ≤ 0x67FF →
      exec (.bankAscii160 a d) s = .next { s with bank := s.bank.set 0 d }) ∧
    (0x7000 ≤ a.toNat → a.toNat ≤ 0x77FF →
      exec (.bankAscii161 a d) s = .next { s with bank := s.bank.set 1 d })

/-- Under an unbanked kind a write in the window changes no register and no byte, and the controller
holds; no write changes the image under any kind (rule R165). -/
def Obligations.UnbankedKindsIgnoreWrites : Prop :=
  (∀ (s : State) (c : MapperConfig) (a : Half) (d : Byte), s.cfg = some c →
    c.kind = .plain16 ∨ c.kind = .plain32 ∨ c.kind = .linear0 →
    windowStart c.kind ≤ a.toNat → a.toNat ≤ 0xBFFF →
    exec (.memwr a d) s = .next (s.withPhase (.holding .wr))) ∧
  (∀ (c : BusCycle) (s t : State), exec (decodeCycle c) s = .next t →
    t.rbs = s.rbs ∧ t.img = s.img)

/-- The two sub-blocks share no state: a memory cycle leaves the bridge, an I/O cycle leaves the
mapper and the store, a selection leaves the bridge (rule R219). -/
def Obligations.SubBlocksShareNoState : Prop :=
  (∀ (s t : State) (a : Half) (d : Byte),
    exec (.memrd a d) s = .next t ∨ exec (.memwr a d) s = .next t →
    t.bridge = s.bridge ∧ t.cfg = s.cfg ∧ t.rbs = s.rbs) ∧
  (∀ (s t : State) (cs : Bool) (a : Half) (d : Byte),
    exec (.iord cs a d) s = .next t ∨ exec (.iowr cs a d) s = .next t →
    t.cfg = s.cfg ∧ t.bank = s.bank ∧ t.rbs = s.rbs) ∧
  (∀ (s t : State) (n : Nat), exec (.select n) s = .next t → t.bridge = s.bridge)

/-! ### The bridge -/

/-- Reading the control port drives the status and changes nothing else (rule R192). -/
def Obligations.ControlReadDrivesTheStatus : Prop :=
  ∀ (s : State) (cs : Bool) (hi d : Byte),
    exec (.ctlrd cs hi d) s = .next (s.withPhase (.driving s.bridge.ctrlReg .rd)) ∧
    exec (.iord cs (hi ++ s.params.portCtrl) d) s = exec (.ctlrd cs hi d) s

/-- A control-port write is the row that its byte and the phase name; as a bus cycle it then holds
(rule R193). -/
def Obligations.ControlWriteIsTheRowThePhaseNames : Prop :=
  ∀ (s : State) (cs : Bool) (hi v : Byte),
    exec (.ctlwr cs hi v) s = exec (decodeCommand (positionOf s.bridge.phase) v) s ∧
    (∃ t, exec (.ctlwr cs hi v) s = .next t ∧
      exec (.iowr cs (hi ++ s.params.portCtrl) v) s = .next (t.withPhase (.holding .wr)))

/-- All phase transitions, from every state that meets the bridge's invariant; and five bytes `0x00`
bring the bridge to idle from any phase (rule R197). -/
def Obligations.PhaseTransitionsFollowTheTable : Prop :=
  (∀ (s : State) (cs : Bool) (hi v : Byte), BridgeOk s.bridge →
    (∃ t, exec (.ctlwr cs hi v) s = .next t ∧
      t.bridge.phase =
        match s.bridge.phase with
        | .awaitAddr .four => .awaitAddr .three
        | .awaitAddr .three => .awaitAddr .two
        | .awaitAddr .two => .awaitAddr .one
        | .awaitAddr .one => if s.bridge.opcode = 0x06#8 then .awaitGo else .xferWrite
        | p =>
          if v = 0x06#8 then
            (if p = .awaitGo then (if s.nextReply.status = .ok then .xferRead else .idle)
            else .awaitAddr .four)
          else if v = 0x08#8 then .awaitAddr .four
          else if v = 0x07#8 then (if s.nextReply.status = .ok then .xferRead else .idle)
          else if v = 0x03#8 ∨ v = 0x04#8 ∨ v = 0x05#8 then .xferRead
          else .idle) ∧
    (∃ t, exec (.datrd cs hi v) s = .next t ∧
      t.bridge.phase =
        if s.bridge.phase = .xferRead ∧ s.bridge.bytesPendingOut = 1#16 then .idle
        else s.bridge.phase) ∧
    (∃ t, exec (.datwr cs hi v) s = .next t ∧
      t.bridge.phase =
        if s.bridge.phase = .xferWrite ∧ s.bridge.bytesPendingIn = 1#16 then .idle
        else s.bridge.phase) ∧
    (∃ t, exec (.ctlrd cs hi v) s = .next t ∧ t.bridge.phase = s.bridge.phase)) ∧
  (∀ s : State,
    ∃ t, runEvents (List.replicate 5 (portWriteCycle s.params.portCtrl 0x00#8)) s = .next t ∧
      t.bridge.phase = .idle ∧ t.record = s.record)

/-- `INIT` and `PRESENT` report the driver's status and end idle (rules R201, R202). -/
def Obligations.StatusCommandsReportTheDriversStatus : Prop :=
  ∀ (s : State) (op : Byte) (call : DriverCall) (i : Instr),
    (op = 0x01#8 ∧ call = .init ∧ i = .init ∨ op = 0x02#8 ∧ call = .present ∧ i = .present) →
    InOpcodePosition s.bridge op →
    exec i s = .next ((s.afterCall call).withBridge { s.bridge with
      opcode := op, bytesPendingIn := 0#16, bytesPendingOut := 0#16, phase := .idle
      ctrlReg := if s.nextReply.status = .ok then 0x00#8 else 0xFF#8 })

/-- `GETID` and `GETSER` stage their parameter, least significant byte first, and open a transfer of
four bytes without a driver call or a status (rules R203, R204). -/
def Obligations.IdentifierAndSerialAreStagedLittleEndian : Prop :=
  ∀ (s : State) (op : Byte) (x : Word) (i : Instr),
    (op = 0x03#8 ∧ x = s.params.deviceId ∧ i = .getid ∨
      op = 0x04#8 ∧ x = s.params.deviceSerial ∧ i = .getser) →
    InOpcodePosition s.bridge op →
    ∃ buf : Block, exec i s = .next (s.withBridge { s.bridge with
        opcode := op, bytesPendingIn := 0#16, bytesPendingOut := 4#16, cursor := 0#16
        phase := .xferRead, blockBuffer := buf }) ∧
      buf[0] = x.extractLsb' 0 8 ∧ buf[1] = x.extractLsb' 8 8 ∧ buf[2] = x.extractLsb' 16 8 ∧
      buf[3] = x.extractLsb' 24 8 ∧
      ∀ k : Fin 512, 4 ≤ k.val → buf[k] = s.bridge.blockBuffer[k]

/-- `GETCAP` stages the driver's sector count, least significant byte first; no status is written
(rule R205). -/
def Obligations.CapacityIsStagedLittleEndian : Prop :=
  ∀ s : State, InOpcodePosition s.bridge 0x05#8 →
    ∃ buf : Block, exec .getcap s = .next ((s.afterCall .sectorCount).withBridge { s.bridge with
        opcode := 0x05#8, bytesPendingIn := 0#16, bytesPendingOut := 4#16, cursor := 0#16
        phase := .xferRead, blockBuffer := buf }) ∧
      buf[0] = s.nextReply.count.extractLsb' 0 8 ∧ buf[1] = s.nextReply.count.extractLsb' 8 8 ∧
      buf[2] = s.nextReply.count.extractLsb' 16 8 ∧ buf[3] = s.nextReply.count.extractLsb' 24 8 ∧
      ∀ k : Fin 512, 4 ≤ k.val → buf[k] = s.bridge.blockBuffer[k]

/-- `RDSEC` and `WRSEC` clear the sector address and await four address bytes; no driver call, no
status (rules R206, R210). -/
def Obligations.AddressedCommandsBeginWithAClearAddress : Prop :=
  ∀ (s : State) (op : Byte) (i : Instr),
    (op = 0x06#8 ∧ i = .rdsec ∨ op = 0x08#8 ∧ i = .wrsec) → InOpcodePosition s.bridge op →
    exec i s = .next (s.withBridge { s.bridge with
      opcode := op, bytesPendingIn := 0#16, bytesPendingOut := 0#16, sectorAddress := 0#32
      phase := .awaitAddr .four })

/-- An address byte is or-ed in at its own position, and the last one opens what the opcode asks for
(rule R207). -/
def Obligations.AddressByteIsOredInAtItsPosition : Prop :=
  ∀ (s : State) (v : Byte) (k : AddrLeft) (j : Nat), s.bridge.phase = .awaitAddr k →
    j = 4 - k.toNat →
    (k ≠ .one → ∃ k', k'.toNat + 1 = k.toNat ∧ exec (.addr v) s = .next (s.withBridge { s.bridge with
      sectorAddress := s.bridge.sectorAddress ||| (v.setWidth 32 <<< (8 * j))
      phase := .awaitAddr k' })) ∧
    (k = .one → s.bridge.opcode = 0x06#8 → exec (.addr v) s = .next (s.withBridge { s.bridge with
      sectorAddress := s.bridge.sectorAddress ||| (v.setWidth 32 <<< (8 * j))
      phase := .awaitGo })) ∧
    (k = .one → s.bridge.opcode = 0x08#8 → exec (.addr v) s = .next (s.withBridge { s.bridge with
      sectorAddress := s.bridge.sectorAddress ||| (v.setWidth 32 <<< (8 * j))
      cursor := 0#16, bytesPendingIn := 512#16, phase := .xferWrite }))

/-- Four address bytes after `RDSEC` or `WRSEC` assemble the sector address, first byte least
significant, whatever the register held before (rule R104). -/
def Obligations.FourAddressBytesAssembleLittleEndian : Prop :=
  ∀ (s : State) (op b0 b1 b2 b3 : Byte), op = 0x06#8 ∨ op = 0x08#8 → InOpcodePosition s.bridge op →
    ∃ t, runEvents ([op, b0, b1, b2, b3].map (portWriteCycle s.params.portCtrl)) s = .next t ∧
      t.bridge.sectorAddress = b3 ++ b2 ++ b1 ++ b0 ∧
      t.record = s.record ∧
      t.bridge.phase = (if op = 0x06#8 then .awaitGo else .xferWrite)

/-- `GO` reads the addressed sector: all 512 bytes on success, none and the error code on failure;
the address is not advanced (rules R208, R213). -/
def Obligations.GoReadsTheAddressedSector : Prop :=
  ∀ s : State, s.bridge.phase = .awaitGo →
    (s.nextReply.status = .ok →
      exec .go s = .next ((s.afterCall (.readSector s.bridge.sectorAddress)).withBridge
        { s.bridge with
          blockBuffer := s.nextReply.data, ctrlReg := 0x00#8, cursor := 0#16
          bytesPendingOut := 512#16, phase := .xferRead })) ∧
    (s.nextReply.status = .err →
      ∃ junk : Block,
        exec .go s = .next ((s.afterCall (.readSector s.bridge.sectorAddress)).withBridge
          { s.bridge with
            blockBuffer := junk, ctrlReg := 0xFF#8, bytesPendingIn := 0#16
            bytesPendingOut := 0#16, phase := .idle }))

/-- `RDNEXT` advances the address modulo `2^32` and reads that sector; the advance is kept when the
read fails (rule R209). -/
def Obligations.ReadNextAdvancesThenReads : Prop :=
  ∀ (s : State) (next : Word), InOpcodePosition s.bridge 0x07#8 →
    next.toNat = (s.bridge.sectorAddress.toNat + 1) % 2 ^ 32 →
    (s.nextReply.status = .ok →
      exec .rdnext s = .next ((s.afterCall (.readSector next)).withBridge { s.bridge with
        opcode := 0x07#8, sectorAddress := next, blockBuffer := s.nextReply.data
        ctrlReg := 0x00#8, cursor := 0#16, bytesPendingIn := 0#16, bytesPendingOut := 512#16
        phase := .xferRead })) ∧
    (s.nextReply.status = .err →
      ∃ junk : Block, exec .rdnext s = .next ((s.afterCall (.readSector next)).withBridge
        { s.bridge with
          opcode := 0x07#8, sectorAddress := next, blockBuffer := junk, ctrlReg := 0xFF#8
          bytesPendingIn := 0#16, bytesPendingOut := 0#16, phase := .idle }))

/-- A data-port read delivers the byte at the cursor while bytes are pending, and repeats `data_reg`
otherwise (rule R199). -/
def Obligations.DataReadDeliversOrRepeats : Prop :=
  ∀ (s : State) (cs : Bool) (hi d : Byte), s.params.portCtrl ≠ s.params.portData →
    exec (.iord cs (hi ++ s.params.portData) d) s = exec (.datrd cs hi d) s ∧
    (s.bridge.bytesPendingOut = 0#16 →
      exec (.datrd cs hi d) s = .next (s.withPhase (.driving s.bridge.dataReg .rd))) ∧
    (∀ k : Fin 512, s.bridge.bytesPendingOut ≠ 0#16 → s.bridge.cursor.toNat = k.val →
      exec (.datrd cs hi d) s =
        .next ((s.withBridge { s.bridge with
          cursor := s.bridge.cursor + 1#16, bytesPendingOut := s.bridge.bytesPendingOut - 1#16
          dataReg := s.bridge.blockBuffer[k]
          phase := if s.bridge.bytesPendingOut = 1#16 then .idle else s.bridge.phase }).withPhase
            (.driving s.bridge.blockBuffer[k] .rd)))

/-- A data-port write sets `data_reg`, stores the byte while bytes are awaited, and with the last one
hands the whole buffer to the driver (rule R200). -/
def Obligations.DataWriteStoresAndCommits : Prop :=
  ∀ (s : State) (cs : Bool) (hi v : Byte), s.params.portCtrl ≠ s.params.portData →
    (∃ t, exec (.datwr cs hi v) s = .next t ∧
      exec (.iowr cs (hi ++ s.params.portData) v) s = .next (t.withPhase (.holding .wr))) ∧
    (s.bridge.bytesPendingIn = 0#16 →
      exec (.datwr cs hi v) s = .next (s.withBridge { s.bridge with dataReg := v })) ∧
    (∀ k : Fin 512, s.bridge.cursor.toNat = k.val →
      (s.bridge.bytesPendingIn ≠ 0#16 → s.bridge.bytesPendingIn ≠ 1#16 →
        exec (.datwr cs hi v) s = .next (s.withBridge { s.bridge with
          dataReg := v, blockBuffer := s.bridge.blockBuffer.set k v
          cursor := s.bridge.cursor + 1#16
          bytesPendingIn := s.bridge.bytesPendingIn - 1#16 })) ∧
      (s.bridge.bytesPendingIn = 1#16 → s.nextReply.status = .ok →
        exec (.datwr cs hi v) s =
          .next ((s.afterCall (.writeSector s.bridge.sectorAddress
            (s.bridge.blockBuffer.set k v))).withBridge { s.bridge with
              dataReg := v, blockBuffer := s.bridge.blockBuffer.set k v
              cursor := s.bridge.cursor + 1#16, bytesPendingIn := 0#16
              ctrlReg := 0x00#8, sectorAddress := s.bridge.sectorAddress + 1#32
              phase := .idle })) ∧
      (s.bridge.bytesPendingIn = 1#16 → s.nextReply.status = .err →
        exec (.datwr cs hi v) s =
          .next ((s.afterCall (.writeSector s.bridge.sectorAddress
            (s.bridge.blockBuffer.set k v))).withBridge { s.bridge with
              dataReg := v, blockBuffer := s.bridge.blockBuffer.set k v
              cursor := s.bridge.cursor + 1#16, bytesPendingIn := 0#16, bytesPendingOut := 0#16
              ctrlReg := 0xFF#8, phase := .idle })))

/-- An unrecognised opcode drops any transfer and does nothing else (rule R212). -/
def Obligations.UnrecognisedOpcodeOnlyDropsTheTransfer : Prop :=
  ∀ (s : State) (op : Byte), op.toNat = 0 ∨ 9 ≤ op.toNat → InOpcodePosition s.bridge op →
    exec (.unrec op) s = .next (s.withBridge { s.bridge with
      bytesPendingIn := 0#16, bytesPendingOut := 0#16, phase := .idle })

/-- The two status values as they reach the control register; the failing one is the one error
action of the machine (rule R275). That the rows `ST.OK` and `ST.ERR` stand for this is the model's
reading (log entry 8). -/
def Obligations.StatusValuesReachTheControlRegister : Prop :=
  ∀ s : State,
    exec .stOk s = .next (s.withBridge { s.bridge with ctrlReg := 0x00#8 }) ∧
    exec .stErr s = .next (s.withBridge { s.bridge with
      ctrlReg := 0xFF#8, bytesPendingIn := 0#16, bytesPendingOut := 0#16, phase := .idle })

/-- Whatever byte abandons a transfer, no sector is written: a control-port write never calls
`writeSector` (rule R195). -/
def Obligations.ControlWritesNeverWriteASector : Prop :=
  ∀ (s t : State) (cs : Bool) (hi v : Byte), exec (.ctlwr cs hi v) s = .next t →
    ∃ new : List BlindWindow, t.record.blind = new ++ s.record.blind ∧
      ∀ w ∈ new, ∀ i d, w.what ≠ .driver (.writeSector i d)

/-- A block read delivers exactly the driver's 512 bytes, in order, and ends idle (rule R215, item
1). -/
def Obligations.BlockReadDeliversTheSectorInOrder : Prop :=
  ∀ (s : State) (n : Word) (d : Block), s.params.portCtrl ≠ s.params.portData →
    InOpcodePosition s.bridge 0x06#8 → s.nextReply.status = .ok → s.nextReply.data = d →
    let cycles := addressedCommand s.params.portCtrl 0x06#8 n ++
      portWriteCycle s.params.portCtrl 0x06#8 ::
      List.replicate 512 (portReadCycle s.params.portData)
    responses cycles s = List.replicate 6 none ++ d.toList.map some ∧
    ∃ t, runEvents cycles s = .next t ∧ t.bridge.phase = .idle ∧ t.bridge.ctrlReg = 0x00#8 ∧
      t.bridge.bytesPendingOut = 0#16 ∧ t.bridge.sectorAddress = n ∧
      t.record.blind =
        { what := .driver (.readSector n), wait := s.params.useWait } :: s.record.blind

/-- A block write calls the driver once, with exactly the 512 bytes written, when the last one
arrives and not before (rule R214). With the reference driver as oracle a block write of a sector it
serves, followed by a block read of that sector, answers the 512 bytes written, and no other sector
has changed (rule R215, item 4). -/
def Obligations.BlockWriteCommitsExactlyItsBytes : Prop :=
  (∀ (s : State) (n : Word) (d : Block) (k : Nat), s.params.portCtrl ≠ s.params.portData →
    InOpcodePosition s.bridge 0x08#8 → k ≤ 512 →
    ∃ t, runEvents (addressedCommand s.params.portCtrl 0x08#8 n ++
        (d.toList.take k).map (portWriteCycle s.params.portData)) s = .next t ∧
      (k < 512 → t.record.blind = s.record.blind ∧ t.bridge.phase = .xferWrite ∧
        t.bridge.ctrlReg = s.bridge.ctrlReg) ∧
      (k = 512 →
        t.record.blind =
          { what := .driver (.writeSector n d), wait := s.params.useWait } :: s.record.blind ∧
        t.bridge.phase = .idle ∧
        (s.nextReply.status = .ok →
          t.bridge.ctrlReg = 0x00#8 ∧ t.bridge.sectorAddress = n + 1#32) ∧
        (s.nextReply.status = .err → t.bridge.ctrlReg = 0xFF#8 ∧ t.bridge.sectorAddress = n))) ∧
  (∀ (s : State) (driver : RefDriver) (n : Word) (d : Block),
    s.params.portCtrl ≠ s.params.portData → InOpcodePosition s.bridge 0x08#8 →
    driver.ok = true → n.toNat < driver.count.toNat →
    let cycles := (addressedCommand s.params.portCtrl 0x08#8 n ++
        d.toList.map (portWriteCycle s.params.portData)) ++
      (addressedCommand s.params.portCtrl 0x06#8 n ++
        portWriteCycle s.params.portCtrl 0x06#8 ::
        List.replicate 512 (portReadCycle s.params.portData))
    responsesWith cycles driver s = List.replicate 523 none ++ d.toList.map some ∧
    ∃ t after, runWith cycles driver s = .next (t, after) ∧ t.bridge.ctrlReg = 0x00#8 ∧
      after.ok = driver.ok ∧ after.count = driver.count ∧
      ∀ m, after.sect m = if m = n then d else driver.sect m)

/-- After a failed block read no byte of the sector is exposed: the status is the error code and every
data-port read returns `data_reg` (rule R215, item 3). -/
def Obligations.FailedReadExposesNothing : Prop :=
  ∀ (s : State) (n : Word) (m : Nat), s.params.portCtrl ≠ s.params.portData →
    InOpcodePosition s.bridge 0x06#8 → s.nextReply.status = .err →
    let command := addressedCommand s.params.portCtrl 0x06#8 n ++
      [portWriteCycle s.params.portCtrl 0x06#8]
    responses (command ++ portReadCycle s.params.portCtrl ::
        List.replicate m (portReadCycle s.params.portData)) s =
      List.replicate 6 none ++ some 0xFF#8 :: List.replicate m (some s.bridge.dataReg) ∧
    ∃ t, runEvents command s = .next t ∧ t.bridge.bytesPendingOut = 0#16 ∧ t.bridge.phase = .idle

/-! ### Table, selection, load -/

/-- `READTABLE` lists the records before the first sentinel, at most 256, each assembled from its 29
bytes (rule R253). Where the list is put is the model's choice (log entry 14). -/
def Obligations.TableScanStopsAtTheSentinel : Prop :=
  ∀ (s : State) (base : Nat), ∃ out : List RomRecord,
    exec (.readtable base) s = .next { s with record := { s.record with listed := out } } ∧
    out.length ≤ 256 ∧
    (∀ (n : Nat) (r : RomRecord), out[n]? = some r →
      (∃ k < 29, imgByte s.img (base + 29 * n + k) ≠ 0xFF#8) ∧
      r.name = imgBytes s.img (base + 29 * n) 20 ∧
      r.mapper = imgByte s.img (base + 29 * n + 20) ∧
      r.size = imgByte s.img (base + 29 * n + 24) ++ imgByte s.img (base + 29 * n + 23) ++
        imgByte s.img (base + 29 * n + 22) ++ imgByte s.img (base + 29 * n + 21) ∧
      r.offset = imgByte s.img (base + 29 * n + 28) ++ imgByte s.img (base + 29 * n + 27) ++
        imgByte s.img (base + 29 * n + 26) ++ imgByte s.img (base + 29 * n + 25)) ∧
    (out.length = 256 ∨
      ∀ k < 29, imgByte s.img (base + 29 * out.length + k) = 0xFF#8)

/-- The conditions under which a record is usable (rule R257): codes 3, 5 and 7 have segments of
`0x2000` bytes, code 6 of `0x4000`, codes 1, 2 and 4 no registers. -/
def Obligations.UsableRecordsMeetTheSizeConditions : Prop :=
  ∀ (capacity : Nat) (r : RomRecord), usable capacity r = true ↔
    (1 ≤ r.mapper.toNat ∧ r.mapper.toNat ≤ 7) ∧
    (1 ≤ r.size.toNat ∧ r.size.toNat ≤ capacity) ∧
    (r.mapper = 3#8 ∨ r.mapper = 5#8 ∨ r.mapper = 7#8 →
      0x2000 ≤ r.size.toNat ∧ r.size.toNat % 0x2000 = 0) ∧
    (r.mapper = 6#8 → 0x4000 ≤ r.size.toNat ∧ r.size.toNat % 0x4000 = 0)

/-- `SELECT` of a usable record loads it: the kind's configuration, its initial registers (`BANK_INIT`, 0,
1, 2, ... in the table of rule R31) and the image's bytes; of any other index or record it changes
nothing of the block (rules R258, R259). That the store lists no byte from the size on is log entry 17,
and the noted interval with the wait output back at its level outside one is log entry 11. -/
def Obligations.SelectLoadsAUsableRecordOrNothing : Prop :=
  ∀ (s : State) (n : Nat),
    (∀ (r : RomRecord) (k : MapperKind),
      (readTable s.img (s.params.fwSize + 0x8000))[n]? = some r → r.mapper = kindCode k →
      1 ≤ r.size.toNat → r.size.toNat ≤ s.params.storeCapacity →
      (banked k = true → segmentSize k ≤ r.size.toNat ∧ r.size.toNat % segmentSize k = 0) →
      ∃ bytes : Memory,
        exec (.select n) s = .next { s.afterBlind .selection with
          cfg := some { kind := k, baseOffset := 0#32, size := r.size }
          bank := bankAfterSelect s.params.bankInit k
          rbs := { bytes := bytes, name := some r.name } } ∧
        bytes.wf = true ∧
        (s.params.bankInit = .identity →
          bankAfterSelect s.params.bankInit k = (List.range (registers k)).map (BitVec.ofNat 8)) ∧
        ∀ a, Memory.read bytes a =
          if a < r.size.toNat then some (imgByte s.img (r.offset.toNat + a)) else none) ∧
    ((∀ r, (readTable s.img (s.params.fwSize + 0x8000))[n]? = some r →
        usable s.params.storeCapacity r = false) →
      exec (.select n) s = .next (s.afterBlind .selection))

/-- The seven mapper codes: a usable record with a kind's code configures that kind and loads its
image; an unusable one changes nothing (rule R259). That a mapper-code row means the selection of a
record with that code is the model's reading (log entry 7). -/
def Obligations.MapperCodesConfigureTheirKind : Prop :=
  ∀ (s : State) (k : MapperKind) (code : Byte) (name : List Byte) (size offset : Word) (i : Instr),
    (k = .plain16 ∧ code = 1#8 ∧ i = .kindPlain16 name size offset ∨
      k = .plain32 ∧ code = 2#8 ∧ i = .kindPlain32 name size offset ∨
      k = .konamiScc ∧ code = 3#8 ∧ i = .kindKonamiScc name size offset ∨
      k = .linear0 ∧ code = 4#8 ∧ i = .kindLinear0 name size offset ∨
      k = .ascii8 ∧ code = 5#8 ∧ i = .kindAscii8 name size offset ∨
      k = .ascii16 ∧ code = 6#8 ∧ i = .kindAscii16 name size offset ∨
      k = .konami ∧ code = 7#8 ∧ i = .kindKonami name size offset) →
    (usable s.params.storeCapacity
        { name := name, mapper := code, size := size, offset := offset } = true →
      ∃ bytes : Memory,
        exec i s = .next { s.afterBlind .selection with
          cfg := some { kind := k, baseOffset := 0#32, size := size }
          bank := bankAfterSelect s.params.bankInit k
          rbs := { bytes := bytes, name := some name } } ∧
        bytes.wf = true ∧
        ∀ a, Memory.read bytes a =
          if a < size.toNat then some (imgByte s.img (offset.toNat + a)) else none) ∧
    (usable s.params.storeCapacity
        { name := name, mapper := code, size := size, offset := offset } = false →
      exec i s = .next (s.afterBlind .selection))

/-- A step changes the selected image, the register file's length or the store only by a selection: a
boot selection, or in the loop the end of one that began at the top of the loop, between two bus
cycles, with the flag set (rule R284). How long it lasts is the model's choice (log entry 11). -/
def Obligations.SelectionHappensOnlyBetweenCycles : Prop :=
  ∀ s t : State, step s = .next t →
    (t.cfg ≠ s.cfg ∨ t.rbs ≠ s.rbs ∨ t.bank.length ≠ s.bank.length →
      (s.bcc.stage = .selecting ∧ s.env.bootSelects ≠ []) ∨
      (s.bcc.stage = .running ∧ s.bcc.phase = .released ∧ ∃ n, s.bcc.point = .loading n 0)) ∧
    (∀ n k, s.bcc.stage = .running → t.bcc.point = .loading n k →
      s.bcc.phase = .released ∧ s.bcc.point = .top ∧ s.reselect = some n ∨
      s.bcc.point = .loading n (k + 1) ∨ (s.bcc.phase ≠ .released ∧ s.bcc.point = .loading n k))

/-- The shared flag: it changes only by a write of the second task that lands and by the end of the
selection made for it, and every write is seen after a finite time: at the latest when the longest
delay of the writes before it and its own are over (rules R75, R318). When within an instant a write
lands is the model's choice (log entry 13). -/
def Obligations.FlagHoldsTheLastWriteUntilTaken : Prop :=
  (∀ s t : State, s.bcc.stage = .running → step s = .next t → s.env.flagWrites = [] →
    (∀ w, s.now.flagWrite = some w → w.delay = 0 → t.reselect = some w.value) ∧
    (s.now.flagWrite = none → t.env.flagWrites = [] ∧
      (s.bcc.phase = .released ∧ (∃ n, s.bcc.point = .loading n 0) → t.reselect = none) ∧
      (¬(s.bcc.phase = .released ∧ ∃ n, s.bcc.point = .loading n 0) →
        t.reselect = s.reselect))) ∧
  (∀ (s : State) (w : FlagWrite) (first : Instant) (later rest : List Instant),
    s.env.inputs = first :: later ++ rest → first.flagWrite = some w → w.delay ≤ later.length →
    (∀ q ∈ s.env.flagWrites, q.delay ≤ later.length) → (∀ i ∈ later, i.flagWrite = none) →
    ∃ j ≤ later.length, ∃ t, runSteps (j + 1) s = .next t ∧ t.reselect = some w.value ∧
      t.env.flagWrites = [])
end

