-- ==== Sys2Proof/Laws/Bytes.lean ====
section
/-! SUPPORT. The packing of a bus cycle and of 32-bit quantities, and back. -/

namespace Sys2Proof.Machine

/-- Each bit of a packed cycle (rules R90, R91). -/
theorem busWord_getLsbD (c : BusCycle) (i : Nat) : (busWord c).getLsbD i =
    if i < 8 then c.data.getLsbD i else if i - 8 < 16 then c.address.getLsbD (i - 8)
    else if i - 24 < 1 then (BitVec.ofBool c.isWrite).getLsbD (i - 24)
    else if i - 25 < 1 then (BitVec.ofBool c.isRead).getLsbD (i - 25)
    else if i - 26 < 1 then (BitVec.ofBool c.ioRequest).getLsbD (i - 26)
    else (BitVec.ofBool c.chipSelected).getLsbD (i - 27) := by
  have h : (BitVec.ofBool c.chipSelected ++ BitVec.ofBool c.ioRequest ++ BitVec.ofBool c.isRead ++
      BitVec.ofBool c.isWrite ++ c.address ++ c.data : BitVec (1 + 1 + 1 + 1 + 16 + 8)).getLsbD i =
      if i < 8 then c.data.getLsbD i else if i - 8 < 16 then c.address.getLsbD (i - 8)
      else if i - 24 < 1 then (BitVec.ofBool c.isWrite).getLsbD (i - 24)
      else if i - 25 < 1 then (BitVec.ofBool c.isRead).getLsbD (i - 25)
      else if i - 26 < 1 then (BitVec.ofBool c.ioRequest).getLsbD (i - 26)
      else (BitVec.ofBool c.chipSelected).getLsbD (i - 27) := by
    simp only [BitVec.getLsbD_append, Nat.sub_sub]
  exact h

/-- Unpacking a packed cycle gives it back (rules R90, R91). -/
@[simp] theorem busCycle_busWord (c : BusCycle) : busCycle (busWord c) = c := by
  obtain ⟨a, d, rd, wr, cs, io⟩ := c
  simp only [busCycle, BusCycle.mk.injEq, busWord_getLsbD]
  refine ⟨?_, ?_, by simp, by simp, by simp, by simp⟩
  · refine BitVec.eq_of_getLsbD_eq fun i hi => ?_
    rw [BitVec.getLsbD_extractLsb', busWord_getLsbD]
    simp [hi]
  · refine BitVec.eq_of_getLsbD_eq fun i hi => ?_
    rw [BitVec.getLsbD_extractLsb', busWord_getLsbD]
    simp [hi]

/-- Packing an unpacked word gives it back: the fields cover all 28 bits (rule R90). -/
@[simp] theorem busWord_busCycle (w : BitVec 28) : busWord (busCycle w) = w := by
  simp only [busWord, busCycle]
  ext i hi
  simp only [BitVec.getElem_append, BitVec.getElem_extractLsb']
  interval_cases i <;> simp

/-- The cycle that a cycle's own line levels show (rule R91). -/
@[simp] theorem cycleOfLines_linesOfCycle (c : BusCycle) : cycleOfLines (linesOfCycle c) = c := by
  obtain ⟨a, d, rd, wr, cs, io⟩ := c
  simp [cycleOfLines, linesOfCycle]

@[simp] theorem portOf_ioAddress (high port : Byte) : portOf (ioAddress high port) = port := by
  refine BitVec.eq_of_getLsbD_eq fun i hi => ?_
  rw [portOf, BitVec.getLsbD_extractLsb']
  refine (congrArg _ (BitVec.getLsbD_append (x := high) (y := port))).trans ?_
  simp [hi]

@[simp] theorem portHigh_ioAddress (high port : Byte) : portHigh (ioAddress high port) = high := by
  refine BitVec.eq_of_getLsbD_eq fun i hi => ?_
  rw [portHigh, BitVec.getLsbD_extractLsb']
  refine (congrArg _ (BitVec.getLsbD_append (x := high) (y := port))).trans ?_
  simp [hi]

/-- An I/O address is its two halves. -/
@[simp] theorem ioAddress_portOf (a : Half) : ioAddress (portHigh a) (portOf a) = a := by
  refine BitVec.eq_of_getLsbD_eq fun i hi => ?_
  refine (BitVec.getLsbD_append (x := portHigh a) (y := portOf a)).trans ?_
  simp only [portHigh, portOf, BitVec.getLsbD_extractLsb']
  split
  · simp [*]
  · rw [show 8 + (i - 8) = i by omega]; simp; omega

/-- Four bytes with the first least significant are the concatenation with the first last (rules
R104, R105). -/
theorem leWord_eq (b0 b1 b2 b3 : Byte) : leWord b0 b1 b2 b3 = b3 ++ b2 ++ b1 ++ b0 := by
  refine BitVec.eq_of_getLsbD_eq fun i hi => ?_
  have h : (b3 ++ b2 ++ b1 ++ b0 : BitVec (8 + 8 + 8 + 8)).getLsbD i =
      if i < 8 then b0.getLsbD i else if i - 8 < 8 then b1.getLsbD (i - 8)
      else if i - 16 < 8 then b2.getLsbD (i - 16) else b3.getLsbD (i - 24) := by
    simp only [BitVec.getLsbD_append, Nat.sub_sub]
  refine Eq.trans ?_ h.symm
  simp only [leWord, byteAt, BitVec.getLsbD_or, BitVec.getLsbD_shiftLeft, BitVec.getLsbD_setWidth]
  interval_cases i <;> simp

/-- The four bytes of a value, put together again (rules R104, R105). -/
@[simp] theorem leWord_byteOf (v : Word) :
    leWord (byteOf v 0) (byteOf v 1) (byteOf v 2) (byteOf v 3) = v := by
  refine BitVec.eq_of_getLsbD_eq fun i hi => ?_
  simp only [leWord, byteAt, byteOf, BitVec.getLsbD_or, BitVec.getLsbD_shiftLeft,
    BitVec.getLsbD_setWidth, BitVec.getLsbD_extractLsb']
  interval_cases i <;> simp

/-- Reading the fields of a record's own bytes gives the record back (rule R107). -/
theorem recordOfBytes_bytesOfRecord (r : RomRecord) (h : r.name.length = nameBytes) :
    recordOfBytes (bytesOfRecord r) = r ∧ (bytesOfRecord r).length = recordBytes := by
  obtain ⟨name, mapper, size, offset⟩ := r
  simp only at h
  simp only [recordOfBytes, bytesOfRecord, leBytes, List.append_assoc]
  have key : ∀ (k : Nat) (l : List Byte), (name ++ l).getD (20 + k) 0#8 = l.getD k 0#8 := by
    intro k l
    rw [List.getD_append_right _ _ _ _ (by rw [h]; simp [nameBytes])]
    rw [h]; simp [nameBytes]
  refine ⟨?_, by simp [h]⟩
  have k0 := key 0; have k1 := key 1; have k2 := key 2; have k3 := key 3; have k4 := key 4
  have k5 := key 5; have k6 := key 6; have k7 := key 7; have k8 := key 8
  norm_num at k0 k1 k2 k3 k4 k5 k6 k7 k8
  rw [RomRecord.mk.injEq]
  refine ⟨?_, ?_, ?_, ?_⟩
  · rw [← h]; simp
  · simp [k0]
  · simp [k1, k2, k3, k4]
  · simp [k5, k6, k7, k8]

end Sys2Proof.Machine
end

