-- ==== Sys2Proof/Laws/Kinds.lean ====
section
/-! SUPPORT. The trigger table of each kind as address ranges (rules R160 to R163, R165). -/

namespace Sys2Proof.Machine

/-- The first entry of a trigger table whose range holds the address. -/
theorem find_trigger_cons (a : Half) (width b r : Nat) (rest : List (Nat × Nat)) :
    (((b, r) :: rest).find? fun t => inRange t.1 width a).map (·.2) =
      if b ≤ a.toNat ∧ a.toNat < b + width then some r
      else (rest.find? fun t => inRange t.1 width a).map (·.2) := by
  by_cases h : b ≤ a.toNat ∧ a.toNat < b + width
  · rw [if_pos h, List.find?_cons_of_pos (by simp [inRange, h])]; rfl
  · rw [if_neg h, List.find?_cons_of_neg (by simpa [inRange] using h)]

theorem triggerRegister_konamiScc (w : Bool) (a : Half) : triggerRegister w .konamiScc a =
    if 0x5000 ≤ a.toNat ∧ a.toNat ≤ 0x57FF then some 0
    else if 0x7000 ≤ a.toNat ∧ a.toNat ≤ 0x77FF then some 1
    else if 0x9000 ≤ a.toNat ∧ a.toNat ≤ 0x97FF then some 2
    else if 0xB000 ≤ a.toNat ∧ a.toNat ≤ 0xB7FF then some 3 else none := by
  simp only [triggerRegister, triggers, triggerWidth, find_trigger_cons, List.find?_nil,
    Option.map_none]
  repeat' split
  all_goals first | rfl | omega

theorem triggerRegister_konami (w : Bool) (a : Half) : triggerRegister w .konami a =
    if 0x6000 ≤ a.toNat ∧ a.toNat ≤ 0x6000 + (if w then 0x2000 else 0x800) - 1 then some 1
    else if 0x8000 ≤ a.toNat ∧ a.toNat ≤ 0x8000 + (if w then 0x2000 else 0x800) - 1 then some 2
    else if 0xA000 ≤ a.toNat ∧ a.toNat ≤ 0xA000 + (if w then 0x2000 else 0x800) - 1 then some 3
    else none := by
  simp only [triggerRegister, triggers, triggerWidth, find_trigger_cons, List.find?_nil,
    Option.map_none]
  cases w <;> simp only [Bool.false_eq_true, if_true, if_false] <;> repeat' split
  all_goals first | rfl | omega

theorem triggerRegister_ascii8 (w : Bool) (a : Half) : triggerRegister w .ascii8 a =
    if 0x6000 ≤ a.toNat ∧ a.toNat ≤ 0x67FF then some 0
    else if 0x6800 ≤ a.toNat ∧ a.toNat ≤ 0x6FFF then some 1
    else if 0x7000 ≤ a.toNat ∧ a.toNat ≤ 0x77FF then some 2
    else if 0x7800 ≤ a.toNat ∧ a.toNat ≤ 0x7FFF then some 3 else none := by
  simp only [triggerRegister, triggers, triggerWidth, find_trigger_cons, List.find?_nil,
    Option.map_none]
  repeat' split
  all_goals first | rfl | omega

theorem triggerRegister_ascii16 (w : Bool) (a : Half) : triggerRegister w .ascii16 a =
    if 0x6000 ≤ a.toNat ∧ a.toNat ≤ 0x67FF then some 0
    else if 0x7000 ≤ a.toNat ∧ a.toNat ≤ 0x77FF then some 1 else none := by
  simp only [triggerRegister, triggers, triggerWidth, find_trigger_cons, List.find?_nil,
    Option.map_none]
  repeat' split
  all_goals first | rfl | omega

/-- A kind without bank registers has no trigger (rule R165). -/
theorem triggerRegister_unbanked (w : Bool) {k : MapperKind} (h : banked k = false) (a : Half) :
    triggerRegister w k a = none := by
  revert h; cases k <;> simp [banked, registers, triggerRegister, triggers]

/-- Every window ends at `0xBFFF`, and starts at `0x4000` for a banked kind (rule R150). -/
theorem windowEnd_eq (k : MapperKind) : windowEnd k = 0xBFFF := by cases k <;> rfl

theorem windowStart_banked {k : MapperKind} (h : banked k = true) : windowStart k = 0x4000 := by
  revert h; cases k <;> simp [banked, registers, windowStart]

theorem segmentSize_pos (k : MapperKind) : 0 < segmentSize k := by
  cases k <;> simp [segmentSize]

/-- The offset of a banked kind stays inside any image of at least one segment (rule R168). -/
theorem imageOffset_lt {c : MapperConfig} (hb : banked c.kind = true)
    (hs : segmentSize c.kind ≤ c.size.toNat) (bank : List Byte) (a : Half) :
    imageOffset c bank a < c.size.toNat := by
  simp only [imageOffset, segmentOf, hb, if_true, availableSegments]
  have hpos := segmentSize_pos c.kind
  generalize ((bank[segmentIndex c.kind a]?).getD _).toNat = x
  have h1 := Nat.mod_lt x (Nat.div_pos hs hpos)
  have h2 := Nat.mod_lt (windowOffset c.kind a) hpos
  have h3 := Nat.div_mul_le_self c.size.toNat (segmentSize c.kind)
  have h4 := Nat.mul_le_mul_right (segmentSize c.kind) (Nat.succ_le_of_lt h1)
  rw [Nat.succ_mul] at h4
  omega

/-! ### The register file after a selection -/

/-- After a selection the register file has the kind's length, under any `BANK_INIT` (rule R47). -/
theorem bankAfterSelect_length (t : BankInit) (k : MapperKind) :
    (bankAfterSelect t k).length = registers k := by
  cases k <;> simp [bankAfterSelect, registers]

/-- With the table of rule R8 register `i` holds `i` (rule R31). -/
theorem bankAfterSelect_identity (k : MapperKind) :
    bankAfterSelect .identity k = (List.range (registers k)).map (BitVec.ofNat 8) := by
  cases k <;> rfl

end Sys2Proof.Machine
end

