-- ==== Sys2Proof/Laws/Memory.lean ====
section
/-! SUPPORT. The laws of sparse memory: what reading a listed run of bytes gives, and the canonical
form, which every operation that makes a memory gives it. The block never stores a single byte: its
one memory operation is the load of a whole image (rule R259). -/

namespace Sys2Proof.Machine

/-! ### The canonical form -/

theorem Memory.wf_of_above {a : Nat} {m : Memory} (h : Memory.above a m = true) : m.wf = true := by
  cases m with
  | nil => rfl
  | cons c rest => simp only [Memory.above, Bool.and_eq_true] at h; exact h.2

theorem Memory.above_ofBytes (bytes : List Byte) :
    ∀ a b : Nat, a < b → Memory.above a (Memory.ofBytes b bytes) = true := by
  induction bytes with
  | nil => intro a b _; rfl
  | cons x rest ih =>
    intro a b h
    simp only [Memory.ofBytes, Memory.above, Bool.and_eq_true, decide_eq_true_eq]
    exact ⟨h, ih b (b + 1) (Nat.lt_succ_self b)⟩

/-- The memory a load makes is in canonical form. -/
theorem Memory.wf_ofBytes (a : Nat) (bytes : List Byte) : (Memory.ofBytes a bytes).wf = true := by
  cases bytes with
  | nil => rfl
  | cons x rest => exact Memory.above_ofBytes rest a (a + 1) (Nat.lt_succ_self a)

/-- `Load` keeps the canonical form of the store (rule R259). -/
theorem loadImage_wf (k : MapperKind) (r : RomRecord) (s : State) :
    (loadImage k r s).rbs.bytes.wf = true := Memory.wf_ofBytes 0 _

/-- Both memories after reset are in canonical form. -/
theorem resetWith_wf (p : Params) (img : Memory) (n : List Nat) (h : img.wf = true) :
    (State.resetWith p img n).img.wf = true ∧ (State.resetWith p img n).rbs.bytes.wf = true :=
  ⟨h, rfl⟩

/-! ### Reading -/

/-- Reading a listed run of bytes: the byte at that place inside the run, nothing outside it. -/
theorem Memory.read_ofBytes (bytes : List Byte) : ∀ a x : Nat,
    Memory.read (Memory.ofBytes a bytes) x = if x < a then none else bytes[x - a]? := by
  induction bytes with
  | nil => intro a x; simp [Memory.ofBytes, Memory.read]
  | cons b rest ih =>
    intro a x
    simp only [Memory.ofBytes, Memory.read, ih]
    rcases Nat.lt_trichotomy a x with h | h | h
    · rw [if_neg (by omega), if_neg (by omega), if_neg (by omega)]
      rw [show x - a = (x - (a + 1)) + 1 by omega, List.getElem?_cons_succ]
    · subst h; simp
    · rw [if_neg (by omega), if_pos (by omega), if_pos (by omega)]

@[simp] theorem imgBytes_length (img : Memory) (n : Nat) : ∀ a, (imgBytes img a n).length = n := by
  induction n with
  | zero => intro a; rfl
  | succ n ih => intro a; simp [imgBytes, ih]

/-- The `i`-th of the image bytes at `a` is the image byte at `a + i`. -/
theorem imgBytes_getElem? (img : Memory) (n : Nat) : ∀ a i,
    (imgBytes img a n)[i]? = if i < n then some (imgByte img (a + i)) else none := by
  induction n with
  | zero => intro a i; simp [imgBytes]
  | succ n ih =>
    intro a i
    cases i with
    | zero => simp [imgBytes]
    | succ i => simp [imgBytes, ih, Nat.add_comm, Nat.add_left_comm]

/-- What the store holds after a load: the image's bytes at the record's offset, one for each
address below the size (rule R259). -/
theorem read_loaded (img : Memory) (offset size a : Nat) :
    Memory.read (Memory.ofBytes 0 (imgBytes img offset size)) a =
      if a < size then some (imgByte img (offset + a)) else none := by
  rw [Memory.read_ofBytes]; simp [imgBytes_getElem?]

/-- A run of image bytes is all `0xFF` exactly when each of its bytes is. -/
theorem isSentinel_imgBytes (img : Memory) (a n : Nat) :
    isSentinel (imgBytes img a n) = true ↔ ∀ k < n, imgByte img (a + k) = 0xFF#8 := by
  induction n generalizing a with
  | zero => simp [imgBytes, isSentinel]
  | succ n ih =>
    have h := ih (a + 1)
    simp only [isSentinel] at h
    simp only [imgBytes, isSentinel, List.all_cons, Bool.and_eq_true, beq_iff_eq, h]
    constructor
    · rintro ⟨h0, h1⟩ k hk
      cases k with
      | zero => exact h0
      | succ k => rw [show a + (k + 1) = a + 1 + k by omega]; exact h1 k (by omega)
    · intro h
      refine ⟨h 0 (by omega), fun k hk => ?_⟩
      rw [show a + 1 + k = a + (k + 1) by omega]; exact h (k + 1) (by omega)

end Sys2Proof.Machine
end

