-- ==== Sys2Proof/Laws/State.lean ====
section
/-! SUPPORT. One lemma per field per shared update of the state, each true by unfolding the update
once, so that no later proof unfolds a record update. -/

namespace Sys2Proof.Machine

variable (s : State)

/-! ### `drive` -/

@[simp] theorem drive_params (v : Byte) : (drive v s).params = s.params := rfl
@[simp] theorem drive_img (v : Byte) : (drive v s).img = s.img := rfl
@[simp] theorem drive_bcc (v : Byte) :
    (drive v s).bcc = { s.bcc with phase := .driving v .rd } := rfl
@[simp] theorem drive_cfg (v : Byte) : (drive v s).cfg = s.cfg := rfl
@[simp] theorem drive_bank (v : Byte) : (drive v s).bank = s.bank := rfl
@[simp] theorem drive_rbs (v : Byte) : (drive v s).rbs = s.rbs := rfl
@[simp] theorem drive_bridge (v : Byte) : (drive v s).bridge = s.bridge := rfl
@[simp] theorem drive_reselect (v : Byte) : (drive v s).reselect = s.reselect := rfl
@[simp] theorem drive_env (v : Byte) : (drive v s).env = s.env := rfl
@[simp] theorem drive_record (v : Byte) : (drive v s).record = s.record := rfl

/-! ### `holdWrite` -/

@[simp] theorem holdWrite_params : (holdWrite s).params = s.params := rfl
@[simp] theorem holdWrite_img : (holdWrite s).img = s.img := rfl
@[simp] theorem holdWrite_bcc : (holdWrite s).bcc = { s.bcc with phase := .holding .wr } := rfl
@[simp] theorem holdWrite_cfg : (holdWrite s).cfg = s.cfg := rfl
@[simp] theorem holdWrite_bank : (holdWrite s).bank = s.bank := rfl
@[simp] theorem holdWrite_rbs : (holdWrite s).rbs = s.rbs := rfl
@[simp] theorem holdWrite_bridge : (holdWrite s).bridge = s.bridge := rfl
@[simp] theorem holdWrite_reselect : (holdWrite s).reselect = s.reselect := rfl
@[simp] theorem holdWrite_env : (holdWrite s).env = s.env := rfl
@[simp] theorem holdWrite_record : (holdWrite s).record = s.record := rfl

/-! ### `toReleased` -/

@[simp] theorem toReleased_params : (toReleased s).params = s.params := rfl
@[simp] theorem toReleased_img : (toReleased s).img = s.img := rfl
@[simp] theorem toReleased_bcc : (toReleased s).bcc = { s.bcc with phase := .released } := rfl
@[simp] theorem toReleased_cfg : (toReleased s).cfg = s.cfg := rfl
@[simp] theorem toReleased_bank : (toReleased s).bank = s.bank := rfl
@[simp] theorem toReleased_rbs : (toReleased s).rbs = s.rbs := rfl
@[simp] theorem toReleased_bridge : (toReleased s).bridge = s.bridge := rfl
@[simp] theorem toReleased_reselect : (toReleased s).reselect = s.reselect := rfl
@[simp] theorem toReleased_env : (toReleased s).env = s.env := rfl
@[simp] theorem toReleased_record : (toReleased s).record = s.record := rfl

/-! ### `setWait` -/

@[simp] theorem setWait_params (b : Bool) : (setWait b s).params = s.params := rfl
@[simp] theorem setWait_img (b : Bool) : (setWait b s).img = s.img := rfl
@[simp] theorem setWait_bcc (b : Bool) :
    (setWait b s).bcc = { s.bcc with wait := s.waitCondition b } := rfl
@[simp] theorem setWait_cfg (b : Bool) : (setWait b s).cfg = s.cfg := rfl
@[simp] theorem setWait_bank (b : Bool) : (setWait b s).bank = s.bank := rfl
@[simp] theorem setWait_rbs (b : Bool) : (setWait b s).rbs = s.rbs := rfl
@[simp] theorem setWait_bridge (b : Bool) : (setWait b s).bridge = s.bridge := rfl
@[simp] theorem setWait_reselect (b : Bool) : (setWait b s).reselect = s.reselect := rfl
@[simp] theorem setWait_env (b : Bool) : (setWait b s).env = s.env := rfl
@[simp] theorem setWait_record (b : Bool) : (setWait b s).record = s.record := rfl

/-! ### `noteBlind` -/

@[simp] theorem noteBlind_params (w : Blind) : (noteBlind w s).params = s.params := rfl
@[simp] theorem noteBlind_img (w : Blind) : (noteBlind w s).img = s.img := rfl
@[simp] theorem noteBlind_bcc (w : Blind) : (noteBlind w s).bcc = s.bcc := rfl
@[simp] theorem noteBlind_cfg (w : Blind) : (noteBlind w s).cfg = s.cfg := rfl
@[simp] theorem noteBlind_bank (w : Blind) : (noteBlind w s).bank = s.bank := rfl
@[simp] theorem noteBlind_rbs (w : Blind) : (noteBlind w s).rbs = s.rbs := rfl
@[simp] theorem noteBlind_bridge (w : Blind) : (noteBlind w s).bridge = s.bridge := rfl
@[simp] theorem noteBlind_reselect (w : Blind) : (noteBlind w s).reselect = s.reselect := rfl
@[simp] theorem noteBlind_env (w : Blind) : (noteBlind w s).env = s.env := rfl
@[simp] theorem noteBlind_record (w : Blind) :
    (noteBlind w s).record = { s.record with blind := { what := w, wait := s.bcc.wait } :: s.record.blind } := rfl

/-! ### `toPoint` -/

@[simp] theorem toPoint_params (p : LoopPoint) : (toPoint p s).params = s.params := rfl
@[simp] theorem toPoint_img (p : LoopPoint) : (toPoint p s).img = s.img := rfl
@[simp] theorem toPoint_bcc (p : LoopPoint) : (toPoint p s).bcc = { s.bcc with point := p } := rfl
@[simp] theorem toPoint_cfg (p : LoopPoint) : (toPoint p s).cfg = s.cfg := rfl
@[simp] theorem toPoint_bank (p : LoopPoint) : (toPoint p s).bank = s.bank := rfl
@[simp] theorem toPoint_rbs (p : LoopPoint) : (toPoint p s).rbs = s.rbs := rfl
@[simp] theorem toPoint_bridge (p : LoopPoint) : (toPoint p s).bridge = s.bridge := rfl
@[simp] theorem toPoint_reselect (p : LoopPoint) : (toPoint p s).reselect = s.reselect := rfl
@[simp] theorem toPoint_env (p : LoopPoint) : (toPoint p s).env = s.env := rfl
@[simp] theorem toPoint_record (p : LoopPoint) : (toPoint p s).record = s.record := rfl

/-! ### `LoopPoint.blind` -/

@[simp] theorem blind_top : LoopPoint.top.blind = false := rfl
@[simp] theorem blind_sampling : LoopPoint.sampling.blind = false := rfl
@[simp] theorem blind_sampled (c : BusCycle) (k : Nat) : (LoopPoint.sampled c k).blind = false := rfl
@[simp] theorem blind_calling (c : BusCycle) (k : Nat) : (LoopPoint.calling c k).blind = true := rfl
@[simp] theorem blind_loading (n k : Nat) : (LoopPoint.loading n k).blind = true := rfl

/-! ### `takeReply` -/

@[simp] theorem takeReply_params : (takeReply s).params = s.params := rfl
@[simp] theorem takeReply_img : (takeReply s).img = s.img := rfl
@[simp] theorem takeReply_bcc : (takeReply s).bcc = s.bcc := rfl
@[simp] theorem takeReply_cfg : (takeReply s).cfg = s.cfg := rfl
@[simp] theorem takeReply_bank : (takeReply s).bank = s.bank := rfl
@[simp] theorem takeReply_rbs : (takeReply s).rbs = s.rbs := rfl
@[simp] theorem takeReply_bridge : (takeReply s).bridge = s.bridge := rfl
@[simp] theorem takeReply_reselect : (takeReply s).reselect = s.reselect := rfl
@[simp] theorem takeReply_env :
    (takeReply s).env = { s.env with replies := s.env.replies.tail, draws := s.env.draws + 1 } := rfl
@[simp] theorem takeReply_record : (takeReply s).record = s.record := rfl

/-! ### `setBank` -/

@[simp] theorem setBank_params (r : Nat) (v : Byte) : (setBank r v s).params = s.params := rfl
@[simp] theorem setBank_img (r : Nat) (v : Byte) : (setBank r v s).img = s.img := rfl
@[simp] theorem setBank_bcc (r : Nat) (v : Byte) : (setBank r v s).bcc = s.bcc := rfl
@[simp] theorem setBank_cfg (r : Nat) (v : Byte) : (setBank r v s).cfg = s.cfg := rfl
@[simp] theorem setBank_bank (r : Nat) (v : Byte) : (setBank r v s).bank = s.bank.set r v := rfl
@[simp] theorem setBank_rbs (r : Nat) (v : Byte) : (setBank r v s).rbs = s.rbs := rfl
@[simp] theorem setBank_bridge (r : Nat) (v : Byte) : (setBank r v s).bridge = s.bridge := rfl
@[simp] theorem setBank_reselect (r : Nat) (v : Byte) : (setBank r v s).reselect = s.reselect := rfl
@[simp] theorem setBank_env (r : Nat) (v : Byte) : (setBank r v s).env = s.env := rfl
@[simp] theorem setBank_record (r : Nat) (v : Byte) : (setBank r v s).record = s.record := rfl

/-! ### `countDraw` -/

@[simp] theorem countDraw_params : (countDraw s).params = s.params := rfl
@[simp] theorem countDraw_img : (countDraw s).img = s.img := rfl
@[simp] theorem countDraw_bcc : (countDraw s).bcc = s.bcc := rfl
@[simp] theorem countDraw_cfg : (countDraw s).cfg = s.cfg := rfl
@[simp] theorem countDraw_bank : (countDraw s).bank = s.bank := rfl
@[simp] theorem countDraw_rbs : (countDraw s).rbs = s.rbs := rfl
@[simp] theorem countDraw_bridge : (countDraw s).bridge = s.bridge := rfl
@[simp] theorem countDraw_reselect : (countDraw s).reselect = s.reselect := rfl
@[simp] theorem countDraw_env : (countDraw s).env = { s.env with draws := s.env.draws + 1 } := rfl
@[simp] theorem countDraw_record : (countDraw s).record = s.record := rfl

/-! ### `onBridge` -/

@[simp] theorem onBridge_params (f : Bridge → Bridge) : (onBridge f s).params = s.params := rfl
@[simp] theorem onBridge_img (f : Bridge → Bridge) : (onBridge f s).img = s.img := rfl
@[simp] theorem onBridge_bcc (f : Bridge → Bridge) : (onBridge f s).bcc = s.bcc := rfl
@[simp] theorem onBridge_cfg (f : Bridge → Bridge) : (onBridge f s).cfg = s.cfg := rfl
@[simp] theorem onBridge_bank (f : Bridge → Bridge) : (onBridge f s).bank = s.bank := rfl
@[simp] theorem onBridge_rbs (f : Bridge → Bridge) : (onBridge f s).rbs = s.rbs := rfl
@[simp] theorem onBridge_bridge (f : Bridge → Bridge) : (onBridge f s).bridge = f s.bridge := rfl
@[simp] theorem onBridge_reselect (f : Bridge → Bridge) :
    (onBridge f s).reselect = s.reselect := rfl
@[simp] theorem onBridge_env (f : Bridge → Bridge) : (onBridge f s).env = s.env := rfl
@[simp] theorem onBridge_record (f : Bridge → Bridge) : (onBridge f s).record = s.record := rfl

/-! ### `callDriver` -/

@[simp] theorem callDriver_params (c : DriverCall) : (callDriver c s).params = s.params := rfl
@[simp] theorem callDriver_img (c : DriverCall) : (callDriver c s).img = s.img := rfl
@[simp] theorem callDriver_bcc (c : DriverCall) :
    (callDriver c s).bcc = { s.bcc with wait := s.waitCondition false } := rfl
@[simp] theorem callDriver_cfg (c : DriverCall) : (callDriver c s).cfg = s.cfg := rfl
@[simp] theorem callDriver_bank (c : DriverCall) : (callDriver c s).bank = s.bank := rfl
@[simp] theorem callDriver_rbs (c : DriverCall) : (callDriver c s).rbs = s.rbs := rfl
@[simp] theorem callDriver_bridge (c : DriverCall) : (callDriver c s).bridge = s.bridge := rfl
@[simp] theorem callDriver_reselect (c : DriverCall) : (callDriver c s).reselect = s.reselect := rfl
@[simp] theorem callDriver_env (c : DriverCall) :
    (callDriver c s).env = { s.env with replies := s.env.replies.tail, draws := s.env.draws + 1 } := rfl
@[simp] theorem callDriver_record (c : DriverCall) :
    (callDriver c s).record = { s.record with blind := { what := .driver c, wait := s.waitCondition true } :: s.record.blind } := rfl

/-! ### `loadImage` -/

@[simp] theorem loadImage_params (k : MapperKind) (r : RomRecord) :
    (loadImage k r s).params = s.params := rfl
@[simp] theorem loadImage_img (k : MapperKind) (r : RomRecord) :
    (loadImage k r s).img = s.img := rfl
@[simp] theorem loadImage_bcc (k : MapperKind) (r : RomRecord) :
    (loadImage k r s).bcc = s.bcc := rfl
@[simp] theorem loadImage_cfg (k : MapperKind) (r : RomRecord) :
    (loadImage k r s).cfg = some { kind := k, baseOffset := 0#32, size := r.size } := rfl
@[simp] theorem loadImage_bank (k : MapperKind) (r : RomRecord) :
    (loadImage k r s).bank = bankAfterSelect s.params.bankInit k := rfl
@[simp] theorem loadImage_rbs (k : MapperKind) (r : RomRecord) :
    (loadImage k r s).rbs = { bytes := Memory.ofBytes 0 (imgBytes s.img r.offset.toNat r.size.toNat), name := some r.name } := rfl
@[simp] theorem loadImage_bridge (k : MapperKind) (r : RomRecord) :
    (loadImage k r s).bridge = s.bridge := rfl
@[simp] theorem loadImage_reselect (k : MapperKind) (r : RomRecord) :
    (loadImage k r s).reselect = s.reselect := rfl
@[simp] theorem loadImage_env (k : MapperKind) (r : RomRecord) :
    (loadImage k r s).env = s.env := rfl
@[simp] theorem loadImage_record (k : MapperKind) (r : RomRecord) :
    (loadImage k r s).record = s.record := rfl

/-! ### `advance` -/

@[simp] theorem advance_params : (advance s).params = s.params := rfl
@[simp] theorem advance_img : (advance s).img = s.img := rfl
@[simp] theorem advance_bcc : (advance s).bcc = s.bcc := rfl
@[simp] theorem advance_cfg : (advance s).cfg = s.cfg := rfl
@[simp] theorem advance_bank : (advance s).bank = s.bank := rfl
@[simp] theorem advance_rbs : (advance s).rbs = s.rbs := rfl
@[simp] theorem advance_bridge : (advance s).bridge = s.bridge := rfl
@[simp] theorem advance_reselect :
    (advance s).reselect = flagAfter s.flagQueue s.reselect := rfl
@[simp] theorem advance_env :
    (advance s).env = { s.env with
      inputs := s.env.inputs.tail, time := s.env.time + 1, flagWrites := inFlight s.flagQueue } := rfl
@[simp] theorem advance_record : (advance s).record = s.record := rfl

/-! ### What only the inputs and the clock decide -/

/-- What is on its way to the flag: writes in flight and the one of this instant. -/
theorem flagQueue_of_env {s t : State} (hi : t.env.inputs = s.env.inputs)
    (ht : t.env.time = s.env.time) (hw : t.env.flagWrites = s.env.flagWrites) :
    t.flagQueue = s.flagQueue := by
  simp only [State.flagQueue, State.now, hi, ht, hw]

theorem now_of_env {s t : State} (hi : t.env.inputs = s.env.inputs) (ht : t.env.time = s.env.time) :
    t.now = s.now := by
  simp only [State.now, hi, ht]

/-! ### The two fields a state shows through its controller -/

@[simp] theorem drive_dout (v : Byte) : (drive v s).dout = some v := rfl
@[simp] theorem drive_busdir (v : Byte) : (drive v s).busdir = true := rfl
@[simp] theorem holdWrite_dout : (holdWrite s).dout = none := rfl
@[simp] theorem holdWrite_busdir : (holdWrite s).busdir = false := rfl
@[simp] theorem toReleased_dout : (toReleased s).dout = none := rfl
@[simp] theorem toReleased_busdir : (toReleased s).busdir = false := rfl
@[simp] theorem advance_dout : (advance s).dout = s.dout := rfl
@[simp] theorem advance_busdir : (advance s).busdir = s.busdir := rfl
@[simp] theorem toPoint_dout (p : LoopPoint) : (toPoint p s).dout = s.dout := rfl
@[simp] theorem toPoint_busdir (p : LoopPoint) : (toPoint p s).busdir = s.busdir := rfl

end Sys2Proof.Machine
end

