-- ==== Sys2Proof/Laws/Ops.lean ====
section
/-! SUPPORT. One lemma for each shared operation, saying once what it can do, so that a proof cites
the lemma and does not unfold the operation. -/

namespace Sys2Proof.Machine

variable (s : State)

/-! ### Blind intervals -/

/-- A driver call leaves the blind interval on the record, the answer used up, and nothing else. -/
theorem callDriver_eq (call : DriverCall) : callDriver call s = s.afterCall call := by
  simp [callDriver, setWait, takeReply, noteBlind, State.afterCall, State.afterBlind,
    State.waitCondition, State.running]

/-- A selection whose effect leaves the controller, the parameters and the record alone is that
effect in the state after the blind interval. -/
theorem duringSelection_eq (f : State → State)
    (hb : ∀ t : State, (f t).bcc = t.bcc) (hp : ∀ t : State, (f t).params = t.params)
    (hw : ∀ (t : State) (w : Bool),
      f { t with bcc := { t.bcc with wait := w } } =
        { f t with bcc := { t.bcc with wait := w } }) :
    duringSelection f s = f (s.afterBlind .selection) := by
  unfold duringSelection
  have h : noteBlind .selection (setWait true s) =
      { s.afterBlind .selection with
        bcc := { (s.afterBlind .selection).bcc with wait := s.waitCondition true } } := by
    simp [noteBlind, setWait, State.afterBlind, State.waitCondition]
  rw [h, hw]
  generalize hu : f (s.afterBlind .selection) = u
  have hub := hb (s.afterBlind .selection)
  have hup := hp (s.afterBlind .selection)
  rw [hu] at hub hup
  have key : u.bcc = { u.bcc with wait := s.params.useWait && !s.running } := by
    rw [hub]; simp [State.afterBlind]
  cases u
  simp only at hub hup key
  subst hub hup
  simp [setWait, State.waitCondition, State.running, State.afterBlind]
  rfl

theorem loadIfUsable_eq (r : RomRecord) : loadIfUsable r s = s ∨
    ∃ k, kindOfCode r.mapper = some k ∧
      usableSize s.params.storeCapacity k r.size.toNat = true ∧
      loadIfUsable r s = loadImage k r s := by
  unfold loadIfUsable
  cases hk : kindOfCode r.mapper with
  | none => exact .inl rfl
  | some k =>
    by_cases hu : usableSize s.params.storeCapacity k r.size.toNat = true
    · exact .inr ⟨k, rfl, hu, by simp [hu]⟩
    · exact .inl (by simp [hu])

theorem loadIfUsable_of_usable {r : RomRecord} {k : MapperKind} (hk : kindOfCode r.mapper = some k)
    (hu : usableSize s.params.storeCapacity k r.size.toNat = true) :
    loadIfUsable r s = loadImage k r s := by
  simp [loadIfUsable, hk, hu]

theorem loadIfUsable_of_not_usable {r : RomRecord}
    (h : usable s.params.storeCapacity r = false) : loadIfUsable r s = s := by
  unfold loadIfUsable usable at *
  cases hk : kindOfCode r.mapper with
  | none => rfl
  | some k => simp [hk] at h; simp [h]

/-- Selecting a record loads it, after the blind interval. -/
theorem selectRecord_eq (r : RomRecord) :
    selectRecord r s = loadIfUsable r (s.afterBlind .selection) := by
  refine duringSelection_eq s _ (fun t => ?_) (fun t => ?_) (fun t w => ?_)
  · rcases loadIfUsable_eq t r with h | ⟨k, _, _, h⟩ <;> simp [h]
  · rcases loadIfUsable_eq t r with h | ⟨k, _, _, h⟩ <;> simp [h]
  · unfold loadIfUsable
    split
    · rfl
    · split <;> rfl

/-- Selecting an index loads the record the table lists there, after the blind interval. -/
theorem selectIndex_eq (n : Nat) :
    selectIndex n s = match (readTable s.img s.tableBase)[n]? with
      | none => s.afterBlind .selection
      | some r => loadIfUsable r (s.afterBlind .selection) := by
  unfold selectIndex
  rw [duringSelection_eq]
  · rfl
  · intro t
    split
    · rfl
    · rcases loadIfUsable_eq t ‹_› with h | ⟨k, _, _, h⟩ <;> simp [h]
  · intro t
    split
    · rfl
    · rcases loadIfUsable_eq t ‹_› with h | ⟨k, _, _, h⟩ <;> simp [h]
  · intro t w
    dsimp only [State.tableBase]
    split
    · rfl
    · unfold loadIfUsable
      split
      · rfl
      · split <;> rfl

/-! ### The mapper -/

/-- A mapper read drives one byte: an image byte, or a free value where there is none. -/
theorem mapperRead_eq {c : MapperConfig} (h : s.cfg = some c) (a : Half) :
    mapperRead a s = match s.mappedByte c a with
      | some v => drive v s
      | none => drive (Config.pastImage s.env.draws) (countDraw s) := by
  cases hm : s.mappedByte c a <;> simp [mapperRead, h, hm]

/-- Inside the active window a mapper read always drives a byte. -/
theorem mapperRead_drives {a : Half} (h : s.inActiveWindow a = true) :
    ∃ v, mapperRead a s = drive v s ∨ mapperRead a s = drive v (countDraw s) := by
  unfold State.inActiveWindow at h
  cases hc : s.cfg with
  | none => simp [hc] at h
  | some c =>
    rw [mapperRead_eq s hc]
    cases s.mappedByte c a with
    | some v => exact ⟨v, .inl rfl⟩
    | none => exact ⟨_, .inr rfl⟩

/-- Every trigger of a kind names one of its registers. -/
theorem triggerRegister_lt {w : Bool} {k : MapperKind} {a : Half} {r : Nat}
    (h : triggerRegister w k a = some r) : r < registers k ∧ (k = .konami → r ≠ 0) := by
  simp only [triggerRegister, Option.map_eq_some_iff] at h
  obtain ⟨t, ht, rfl⟩ := h
  have hm := List.mem_of_find?_eq_some ht
  cases k <;> simp [triggers] at hm <;>
    rcases hm with rfl | rfl | rfl | rfl <;> simp [registers]

/-- A mapper write changes at most one register, to the data byte. -/
theorem mapperWrite_eq (a : Half) (d : Byte) : mapperWrite a d s = s ∨
    ∃ c r, s.cfg = some c ∧ triggerRegister s.params.konamiWide c.kind a = some r ∧
      mapperWrite a d s = setBank r d s := by
  unfold mapperWrite
  split
  · exact .inl rfl
  · split
    · exact .inl rfl
    · exact .inr ⟨_, _, ‹_›, ‹_›, rfl⟩

/-! ### The bridge -/

/-- A sector read is the call and then one transition of the bridge. -/
theorem sectorRead_eq (i : Word) : ∃ f : Bridge → Bridge,
    sectorRead i s = onBridge f (s.afterCall (.readSector i)) ∧
    ((s.nextReply.status = .ok ∧ f = Bridge.openRead s.nextReply.data) ∨
      (s.nextReply.status = .err ∧
        f = fun b => { b.raiseStorageError with blockBuffer := Config.staleBlock s.env.draws })) := by
  unfold sectorRead
  rw [callDriver_eq]
  cases h : s.nextReply.status
  · exact ⟨_, rfl, .inl ⟨rfl, rfl⟩⟩
  · exact ⟨_, rfl, .inr ⟨rfl, rfl⟩⟩

/-- A commit is the call and then one transition of the bridge. -/
theorem commitSector_eq : commitSector s =
    onBridge (if s.nextReply.status = .ok then Bridge.committed else Bridge.raiseStorageError)
      (s.afterCall (.writeSector s.bridge.sectorAddress s.bridge.blockBuffer)) := by
  unfold commitSector
  rw [callDriver_eq]
  cases s.nextReply.status <;> rfl

/-- What an operation of the bridge leaves unchanged. -/
structure SameButBridge (s t : State) : Prop where
  params : t.params = s.params
  img : t.img = s.img
  stage : t.bcc.stage = s.bcc.stage
  point : t.bcc.point = s.bcc.point
  phase : t.bcc.phase = s.bcc.phase
  cfg : t.cfg = s.cfg
  bank : t.bank = s.bank
  rbs : t.rbs = s.rbs
  reselect : t.reselect = s.reselect
  inputs : t.env.inputs = s.env.inputs
  time : t.env.time = s.env.time
  flagWrites : t.env.flagWrites = s.env.flagWrites
  boot : t.env.bootSelects = s.env.bootSelects
  sampled : t.record.sampled = s.record.sampled
  listed : t.record.listed = s.record.listed

theorem SameButBridge.refl : SameButBridge s s := by constructor <;> rfl

theorem SameButBridge.onBridge {s t : State} (h : SameButBridge s t) (f : Bridge → Bridge) :
    SameButBridge s (onBridge f t) :=
  ⟨h.params, h.img, h.stage, h.point, h.phase, h.cfg, h.bank, h.rbs, h.reselect, h.inputs, h.time,
    h.flagWrites, h.boot, h.sampled, h.listed⟩

theorem SameButBridge.afterCall {s t : State} (h : SameButBridge s t) (c : DriverCall) :
    SameButBridge s (t.afterCall c) :=
  ⟨h.params, h.img, h.stage, h.point, h.phase, h.cfg, h.bank, h.rbs, h.reselect, h.inputs, h.time,
    h.flagWrites, h.boot, h.sampled, h.listed⟩

theorem sectorRead_same {s t : State} (h : SameButBridge s t) (i : Word) :
    SameButBridge s (sectorRead i t) := by
  obtain ⟨f, hf, _⟩ := sectorRead_eq t i
  rw [hf]; exact (h.afterCall _).onBridge f

theorem opcodeByte_same (v : Byte) : SameButBridge s (opcodeByte v s) := by
  have h := SameButBridge.refl s
  unfold opcodeByte
  split
  · unfold initCommand statusCommand; rw [callDriver_eq]
    exact ((h.onBridge _).afterCall _).onBridge _
  · unfold presentCommand statusCommand; rw [callDriver_eq]
    exact ((h.onBridge _).afterCall _).onBridge _
  · exact h.onBridge _
  · exact h.onBridge _
  · unfold getCapacityCommand; rw [callDriver_eq]
    exact ((h.onBridge _).afterCall _).onBridge _
  · exact h.onBridge _
  · exact sectorRead_same (h.onBridge _) _
  · exact h.onBridge _
  · exact h.onBridge _

/-- A control-port write changes nothing but the bridge, the driver's answers and the record. -/
theorem ctlWrite_same (v : Byte) : SameButBridge s (ctlWrite v s) := by
  unfold ctlWrite
  split
  · exact (SameButBridge.refl s).onBridge _
  · split
    · exact sectorRead_same (SameButBridge.refl s) _
    · exact opcodeByte_same s v
  · exact opcodeByte_same s v
  · exact opcodeByte_same s v
  · exact opcodeByte_same s v

/-- So does a data-port write. -/
theorem datWrite_same (v : Byte) : SameButBridge s (datWrite v s) := by
  unfold datWrite
  split
  · exact (SameButBridge.refl s).onBridge _
  · dsimp only
    split
    · rw [commitSector_eq]
      exact (((SameButBridge.refl s).onBridge _).afterCall _).onBridge _
    · exact (SameButBridge.refl s).onBridge _

/-- A data-port read drives one byte, with at most one transition of the bridge before it. -/
theorem datRead_eq : datRead s = drive s.bridge.dataReg s ∧ s.bridge.bytesPendingOut = 0#16 ∨
    datRead s = drive s.bridge.byteAtCursor (onBridge Bridge.deliver s) ∧
      s.bridge.bytesPendingOut ≠ 0#16 := by
  unfold datRead
  split
  · exact .inl ⟨rfl, ‹_›⟩
  · exact .inr ⟨rfl, ‹_›⟩

/-! ### Cycles -/

/-- The kind of a cycle, one case for each row of rule R123. -/
theorem decodeCycle_cases (c : BusCycle) :
    (c.isRead = c.isWrite ∧ (∃ cs io a d, decodeCycle c = .nostb cs io a d ∨
      decodeCycle c = .both cs io a d)) ∨
    (c.ioRequest = true ∧ c.isRead = true ∧ c.isWrite = false ∧
      decodeCycle c = .iord c.chipSelected c.address c.data) ∨
    (c.ioRequest = true ∧ c.isRead = false ∧ c.isWrite = true ∧
      decodeCycle c = .iowr c.chipSelected c.address c.data) ∨
    (c.ioRequest = false ∧ c.chipSelected = true ∧ c.isRead = true ∧ c.isWrite = false ∧
      decodeCycle c = .memrd c.address c.data) ∨
    (c.ioRequest = false ∧ c.chipSelected = true ∧ c.isRead = false ∧ c.isWrite = true ∧
      decodeCycle c = .memwr c.address c.data) ∨
    (c.ioRequest = false ∧ c.chipSelected = false ∧ c.isRead ≠ c.isWrite ∧
      decodeCycle c = .nosel c.isRead c.address c.data) := by
  obtain ⟨a, d, rd, wr, cs, io⟩ := c
  cases rd <;> cases wr <;> cases cs <;> cases io <;> simp [decodeCycle]

/-- What a bus cycle does: nothing when it is not claimed, else one action of one sub-block, after
which the block drives (a read) or holds (a write) (rule R134). -/
theorem exec_cycle_cases {c : BusCycle} {s u : State} (h : exec (decodeCycle c) s = .next u) :
    (s.claimed c = false ∧ u = s) ∨
    (c.isRead = true ∧ c.isWrite = false ∧ s.claimedRead c = true ∧
      ((s.inActiveWindow c.address = true ∧ u = mapperRead c.address s) ∨ u = ctlRead s ∨
        u = datRead s)) ∨
    (c.isRead = false ∧ c.isWrite = true ∧ s.claimedWrite c = true ∧
      (u = holdWrite (mapperWrite c.address c.data s) ∨ u = holdWrite (ctlWrite c.data s) ∨
        u = holdWrite (datWrite c.data s))) := by
  simp only [State.claimed, State.claimedRead, State.claimedWrite]
  rcases decodeCycle_cases c with ⟨-, cs, io, a, d, he | he⟩ | ⟨-, h2, h3, he⟩ | ⟨-, h2, h3, he⟩ |
    ⟨-, -, h2, h3, he⟩ | ⟨-, -, h2, h3, he⟩ | ⟨-, -, -, he⟩ <;> rw [he] at h <;> simp only [he]
  · exact .inl ⟨rfl, by simpa [exec, execNostb] using h.symm⟩
  · exact .inl ⟨rfl, by simpa [exec, execBoth] using h.symm⟩
  · obtain rfl : _ = u := by simpa [exec, execIord] using h
    simp only [State.atPort]
    by_cases hc : portOf c.address = s.params.portCtrl
    · exact .inr (.inl ⟨h2, h3, by simp [hc], .inr (.inl (by simp [hc]))⟩)
    · by_cases hd : portOf c.address = s.params.portData
      · refine .inr (.inl ⟨h2, h3, by simp [hd], .inr (.inr ?_)⟩)
        rw [if_neg hc, if_pos hd]
      · refine .inl ⟨by simp [hc, hd], ?_⟩
        rw [if_neg hc, if_neg hd]
  · obtain rfl : _ = u := by simpa [exec, execIowr] using h
    simp only [State.atPort]
    by_cases hc : portOf c.address = s.params.portCtrl
    · exact .inr (.inr ⟨h2, h3, by simp [hc], .inr (.inl (by simp [hc]))⟩)
    · by_cases hd : portOf c.address = s.params.portData
      · refine .inr (.inr ⟨h2, h3, by simp [hd], .inr (.inr ?_)⟩)
        rw [if_neg hc, if_pos hd]
      · refine .inl ⟨by simp [hc, hd], ?_⟩
        rw [if_neg hc, if_neg hd]
  · obtain rfl : _ = u := by simpa [exec, execMemrd] using h
    by_cases hw : s.inActiveWindow c.address = true
    · exact .inr (.inl ⟨h2, h3, hw, .inl ⟨hw, by simp [hw]⟩⟩)
    · exact .inl ⟨by simp [hw], by simp [hw]⟩
  · obtain rfl : _ = u := by simpa [exec, execMemwr] using h
    by_cases hw : s.inActiveWindow c.address = true
    · exact .inr (.inr ⟨h2, h3, hw, .inl (by simp [hw])⟩)
    · exact .inl ⟨by simp [hw], by simp [hw]⟩
  · exact .inl ⟨rfl, by simpa [exec, execNosel] using h.symm⟩

/-- What one cycle leaves unchanged, whatever it is: all but the controller's phase and wait output,
the bank registers, the bridge, the driver's answers, the draws and the blind intervals. -/
structure CycleFrame (s t : State) : Prop where
  params : t.params = s.params
  img : t.img = s.img
  stage : t.bcc.stage = s.bcc.stage
  point : t.bcc.point = s.bcc.point
  cfg : t.cfg = s.cfg
  bank : t.bank.length = s.bank.length
  rbs : t.rbs = s.rbs
  reselect : t.reselect = s.reselect
  inputs : t.env.inputs = s.env.inputs
  time : t.env.time = s.env.time
  flagWrites : t.env.flagWrites = s.env.flagWrites
  boot : t.env.bootSelects = s.env.bootSelects
  sampled : t.record.sampled = s.record.sampled
  listed : t.record.listed = s.record.listed

theorem CycleFrame.refl : CycleFrame s s := by constructor <;> rfl

/-- Driving or holding at the end of a cycle. -/
theorem CycleFrame.drive {s t : State} (h : CycleFrame s t) (v : Byte) : CycleFrame s (drive v t) :=
  ⟨h.1, h.2, h.3, h.4, h.5, h.6, h.7, h.8, h.9, h.10, h.11, h.12, h.13, h.14⟩

theorem CycleFrame.holdWrite {s t : State} (h : CycleFrame s t) : CycleFrame s (holdWrite t) :=
  ⟨h.1, h.2, h.3, h.4, h.5, h.6, h.7, h.8, h.9, h.10, h.11, h.12, h.13, h.14⟩

theorem SameButBridge.cycleFrame {s t : State} (h : SameButBridge s t) : CycleFrame s t :=
  ⟨h.params, h.img, h.stage, h.point, h.cfg, by rw [h.bank], h.rbs, h.reselect, h.inputs, h.time,
    h.flagWrites, h.boot, h.sampled, h.listed⟩

/-- The frame of a bus cycle (rules R97, R134). -/
theorem exec_cycle_frame {c : BusCycle} {s u : State} (h : exec (decodeCycle c) s = .next u) :
    CycleFrame s u := by
  have hr := CycleFrame.refl s
  rcases exec_cycle_cases h with ⟨-, rfl⟩ | ⟨-, -, -, ⟨ha, rfl⟩ | rfl | rfl⟩ |
    ⟨-, -, -, rfl | rfl | rfl⟩
  · exact hr
  · obtain ⟨v, e | e⟩ := mapperRead_drives s ha <;> rw [e]
    · exact hr.drive v
    · constructor <;> rfl
  · exact hr.drive _
  · rcases datRead_eq s with ⟨e, _⟩ | ⟨e, _⟩ <;> rw [e]
    · exact hr.drive _
    · exact ((SameButBridge.refl s).onBridge _).cycleFrame.drive _
  · rcases mapperWrite_eq s c.address c.data with e | ⟨_, _, _, _, e⟩ <;> rw [e]
    · exact hr.holdWrite
    · constructor <;> simp
  · exact (ctlWrite_same s _).cycleFrame.holdWrite
  · exact (datWrite_same s _).cycleFrame.holdWrite

/-! ### Steps -/

@[simp] theorem mapNext_next (f : State → State) (t : State) : mapNext f (.next t) = .next (f t) :=
  rfl

theorem mapNext_eq_next {f : State → State} {o : Host.Outcome State Fault Refusal} {t : State}
    (h : mapNext f o = .next t) : ∃ u, o = .next u ∧ t = f u := by
  cases o with
  | next u => exact ⟨u, rfl, by simpa using h.symm⟩
  | fault r => simp [mapNext] at h
  | refused r => simp [mapNext] at h

/-- A step is one operation, run in the prepared state, and then the instant passes. -/
theorem step_eq_next {s t : State} (h : step s = .next t) :
    ∃ u, exec s.nextInstr s.prepare = .next u ∧ t = advance u := mapNext_eq_next h

/-- All that one step of the running loop can do (rule R134), apart from the passing of the instant. -/
inductive Turn (s : State) : State → Prop where
  /-- A driven or held cycle: its strobe is polled (rules R127 to R129). -/
  | served (st : Strobe) (hp : s.bcc.phase = .holding st ∨ ∃ v, s.bcc.phase = .driving v st) :
    Turn s (if s.strobeHigh st then toReleased s else s)
  /-- The flag is set at the top of the loop: the selection begins (rule R284). -/
  | beginSelect (n : Nat) (hp : s.bcc.phase = .released) (ht : s.bcc.point = .top)
    (hn : s.reselect = some n) : Turn s (setWait true (toPoint (.loading n s.now.busy) s))
  /-- The selection goes on. -/
  | waitSelect (n k : Nat) (hp : s.bcc.phase = .released) (ht : s.bcc.point = .loading n (k + 1)) :
    Turn s (setWait true (toPoint (.loading n k) s))
  /-- The selection is done, and the flag cleared. -/
  | select (n : Nat) (hp : s.bcc.phase = .released) (ht : s.bcc.point = .loading n 0) :
    Turn s (selectIndex n (toPoint .sampling { s with reselect := none }))
  /-- A cycle that calls the driver is sampled. -/
  | beginCall (hp : s.bcc.phase = .released) (hs : s.AtSample)
    (hc : (s.callOf s.sample).isSome = true) :
    Turn s { toPoint (.sampled s.sample s.now.busy) s with
      record := { s.record with sampled := some s.sample } }
  /-- The driver call begins or goes on. -/
  | waitCall (c : BusCycle) (k : Nat) (hp : s.bcc.phase = .released)
    (ht : s.bcc.point = .sampled c k ∨ s.bcc.point = .calling c (k + 1)) :
    Turn s (setWait true (toPoint (.calling c k) s))
  /-- The driver call returns, and the cycle has its effect. -/
  | returnCall (c : BusCycle) (u : State) (hp : s.bcc.phase = .released)
    (ht : s.bcc.point = .calling c 0) (hu : exec (decodeCycle c) (toPoint .top s) = .next u) :
    Turn s u
  /-- A cycle that calls nobody is sampled and acted on. -/
  | cycle (u : State) (hp : s.bcc.phase = .released) (hs : s.AtSample)
    (hc : s.callOf s.sample = none)
    (hu : exec (decodeCycle s.sample) (toPoint .top s) = .next u) : Turn s u

/-- What the test of the flag finds, by the point of the loop. -/
theorem pendingReselect_eq_none {s : State} (h : s.AtSample) : s.pendingReselect = none := by
  rcases h with h | ⟨h, h'⟩ <;> simp [State.pendingReselect, h]
  exact h'

/-- `SAMPLE` at the point where a driver call begins. -/
theorem exec_sample {s : State} {p : LoopPoint} (hp : s.bcc.phase = .released) :
    exec .sample (toPoint p s) = .next { toPoint p s with
      record := { s.record with sampled := some s.sample } } := by
  show execSample _ = _
  unfold execSample
  rw [show (toPoint p s).bcc.phase = .released from hp]
  rfl

/-- A running step is one turn (or part of one), and then the instant passes. -/
theorem running_step {s t : State} (hr : s.bcc.stage = .running) (h : step s = .next t) :
    ∃ u, Turn s u ∧ t = advance u := by
  obtain ⟨u, hu, rfl⟩ := step_eq_next h
  refine ⟨u, ?_, rfl⟩
  unfold State.nextInstr State.prepare at hu
  rw [hr] at hu
  dsimp only at hu
  cases hp : s.bcc.phase with
  | driving v st =>
    rw [hp] at hu
    have : u = if s.strobeHigh st then toReleased s else s := by
      by_cases hs : s.strobeHigh st = true <;> simp [hs, exec, execRelease, execPoll, hp] at hu <;>
        subst hu <;> simp [hs]
    exact this ▸ .served st (.inr ⟨v, hp⟩)
  | holding st =>
    rw [hp] at hu
    have : u = if s.strobeHigh st then toReleased s else s := by
      simp [exec, execPoll, hp] at hu; simp [hu]
    exact this ▸ .served st (.inl hp)
  | released =>
    rw [hp] at hu
    dsimp only at hu
    have turn : (s.bcc.point = .top ∨ s.bcc.point = .sampling) →
        exec s.turnInstr (toPoint s.turnPoint s) = .next u → Turn s u := by
      intro hpt hu
      unfold State.turnInstr State.turnPoint at hu
      cases hn : s.pendingReselect with
      | some n =>
        rw [hn] at hu
        obtain rfl : _ = u := by simpa [exec, execWait] using hu
        rcases hpt with ht | ht <;> simp [State.pendingReselect, ht] at hn
        exact .beginSelect n hp ht hn
      | none =>
        rw [hn] at hu
        have hs : s.AtSample := by
          rcases hpt with ht | ht
          · exact .inr ⟨ht, by simpa [State.pendingReselect, ht] using hn⟩
          · exact .inl ht
        dsimp only at hu
        by_cases hc : (s.callOf s.sample).isSome = true
        · rw [if_pos hc, if_pos hc, exec_sample hp] at hu
          obtain rfl := Host.Outcome.next.inj hu
          exact .beginCall hp hs hc
        · rw [if_neg hc, if_neg hc] at hu
          exact .cycle u hp hs (by simpa using hc) hu
    cases ht : s.bcc.point with
    | top => rw [ht] at hu; exact turn (.inl ht) hu
    | sampling => rw [ht] at hu; exact turn (.inr ht) hu
    | sampled c k =>
      rw [ht] at hu
      obtain rfl := Host.Outcome.next.inj hu
      exact .waitCall c k hp (.inl ht)
    | calling c k =>
      rw [ht] at hu
      cases k with
      | zero => exact .returnCall c u hp ht hu
      | succ k =>
        obtain rfl := Host.Outcome.next.inj hu
        exact .waitCall c k hp (.inr ht)
    | loading n k =>
      rw [ht] at hu
      cases k with
      | zero =>
        obtain rfl := Host.Outcome.next.inj hu
        exact .select n hp ht
      | succ k =>
        obtain rfl := Host.Outcome.next.inj hu
        exact .waitSelect n k hp ht

/-- What a boot step does. -/
theorem boot_step_cases {s t : State} (hr : s.bcc.stage ≠ .running) (h : step s = .next t) :
    (s.bcc.stage = .readTable ∧
      t = advance { s with
        bcc := { s.bcc with stage := .selecting }
        record := { s.record with listed := readTable s.img s.tableBase } }) ∨
    (∃ n rest, s.bcc.stage = .selecting ∧ s.env.bootSelects = n :: rest ∧
      t = advance (selectIndex n { s with env := { s.env with bootSelects := rest } })) ∨
    (s.bcc.stage = .selecting ∧ s.env.bootSelects = [] ∧
      t = advance (setWait false { s with bcc := { s.bcc with stage := .running } })) := by
  obtain ⟨u, hu, rfl⟩ := step_eq_next h
  unfold State.nextInstr State.prepare at hu
  cases hs : s.bcc.stage with
  | running => exact absurd hs hr
  | readTable =>
    rw [hs] at hu
    simp [exec, execReadtable] at hu
    exact .inl ⟨rfl, by simp [← hu]⟩
  | selecting =>
    rw [hs] at hu
    dsimp only at hu
    cases hb : s.env.bootSelects with
    | nil =>
      rw [hb] at hu
      simp [exec, execWait] at hu
      exact .inr (.inr ⟨rfl, rfl, by simp [← hu]⟩)
    | cons n rest =>
      rw [hb] at hu
      simp [exec, execSelect] at hu
      exact .inr (.inl ⟨n, rest, rfl, rfl, by simp [← hu]⟩)

end Sys2Proof.Machine
end

