-- ==== Sys2Proof/Laws/Bridge.lean ====
section
/-! SUPPORT. What the bridge's transitions do, one lemma each, and what a port access does at the
event level. -/

namespace Sys2Proof.Machine

variable (s : State)

/-! ### Positions -/

/-- A byte in opcode position is one the opcode rows act on (rule R95). -/
theorem opcodePosition_of_in {s : State} {v : Byte} (h : InOpcodePosition s.bridge v) :
    opcodePosition s.ctx v = true := by
  obtain ⟨h1, h2⟩ := h
  simp only [opcodePosition, State.ctx, positionOf]
  cases hp : s.bridge.phase with
  | awaitAddr k => exact absurd hp (h1 k)
  | awaitGo => simp [h2 hp]
  | idle | xferRead | xferWrite => simp

/-- A control-port byte in opcode position is decoded as an opcode (rule R193). -/
theorem ctlWrite_of_in {s : State} {v : Byte} (h : InOpcodePosition s.bridge v) :
    ctlWrite v s = opcodeByte v s := by
  obtain ⟨h1, h2⟩ := h
  unfold ctlWrite
  cases hp : s.bridge.phase with
  | awaitAddr k => exact absurd hp (h1 k)
  | awaitGo => simp [h2 hp]
  | idle | xferRead | xferWrite => rfl

/-- In phase `AwaitAddr(k)` a control-port byte is an address byte (rule R193). -/
theorem ctlWrite_address {s : State} {k : AddrLeft} (h : s.bridge.phase = .awaitAddr k) (v : Byte) :
    ctlWrite v s = onBridge (Bridge.addrByte k v) s := by
  simp only [ctlWrite, h]

/-- In phase `AwaitGo` the trigger byte starts the read (rule R193). -/
theorem ctlWrite_trigger {s : State} (h : s.bridge.phase = .awaitGo) :
    ctlWrite 0x06#8 s = sectorRead s.bridge.sectorAddress s := by
  simp [ctlWrite, h, goCommand]

/-! ### Payloads -/

/-- The buffer after staging four bytes: they are at indexes 0 to 3, the rest is unchanged (rules
R203 to R205). -/
theorem stagePayload_buffer (b : Bridge) (x : Word) :
    (b.stagePayload x).blockBuffer[0] = byteOf x 0 ∧ (b.stagePayload x).blockBuffer[1] = byteOf x 1 ∧
    (b.stagePayload x).blockBuffer[2] = byteOf x 2 ∧ (b.stagePayload x).blockBuffer[3] = byteOf x 3 ∧
    ∀ k : Fin 512, 4 ≤ k.val → (b.stagePayload x).blockBuffer[k] = b.blockBuffer[k] := by
  refine ⟨by simp [Bridge.stagePayload], by simp [Bridge.stagePayload],
    by simp [Bridge.stagePayload], by simp [Bridge.stagePayload], fun k hk => ?_⟩
  simp only [Bridge.stagePayload, Fin.getElem_fin, Vector.getElem_set]
  rw [if_neg (by omega), if_neg (by omega), if_neg (by omega), if_neg (by omega)]

/-- The byte the cursor points at, inside the buffer. -/
theorem byteAtCursor_eq {b : Bridge} {k : Fin 512} (h : b.cursor.toNat = k.val) :
    b.byteAtCursor = b.blockBuffer[k] := by
  simp [Bridge.byteAtCursor, h]

/-- Storing a byte with the cursor inside the buffer (rule R200). -/
theorem accept_eq {b : Bridge} {k : Fin 512} (h : b.cursor.toNat = k.val) (v : Byte) :
    b.accept v = { b with
      dataReg := v, blockBuffer := b.blockBuffer.set k v, cursor := b.cursor + 1#16
      bytesPendingIn := b.bytesPendingIn - 1#16 } := by
  have hs : b.blockBuffer.setIfInBounds k.val v = b.blockBuffer.set k.val v := by
    refine Vector.ext fun i hi => ?_
    rw [Vector.getElem_setIfInBounds hi, Vector.getElem_set]
  simp only [Bridge.accept, h]
  rw [hs]

/-- One less than a count is zero exactly when the count is one. -/
theorem sub_one_eq_zero (x : Half) : x - 1#16 = 0#16 ↔ x = 1#16 := by
  simp [BitVec.sub_eq_iff_eq_add]

/-- A data-port write while no byte is awaited only sets `data_reg` (rule R200). -/
theorem datWrite_idle {s : State} (h : s.bridge.bytesPendingIn = 0#16) (v : Byte) :
    datWrite v s = onBridge (fun b => { b with dataReg := v }) s := by
  unfold datWrite
  rw [if_pos h]

/-- A data-port write that is not the last stores its byte (rule R200). -/
theorem datWrite_store {s : State} (h0 : s.bridge.bytesPendingIn ≠ 0#16)
    (h1 : s.bridge.bytesPendingIn ≠ 1#16) (v : Byte) :
    datWrite v s = onBridge (Bridge.accept v) s := by
  have h : (onBridge (Bridge.accept v) s).bridge.bytesPendingIn ≠ 0#16 :=
    fun e => h1 ((sub_one_eq_zero _).1 e)
  unfold datWrite
  rw [if_neg h0]
  exact if_neg h

/-- The last data-port write stores its byte and commits (rule R200). -/
theorem datWrite_last {s : State} (h1 : s.bridge.bytesPendingIn = 1#16) (v : Byte) :
    datWrite v s = commitSector (onBridge (Bridge.accept v) s) := by
  have h : (onBridge (Bridge.accept v) s).bridge.bytesPendingIn = 0#16 := (sub_one_eq_zero _).2 h1
  unfold datWrite
  rw [if_neg (by rw [h1]; decide)]
  exact if_pos h

/-! ### Port accesses as events -/

/-- A write at the control port, as one event (rules R133, R193). -/
theorem eventStep_ctlWrite (v : Byte) :
    eventStep (portWriteCycle s.params.portCtrl v) s = .next (toReleased (ctlWrite v s)) := by
  simp [eventStep, portWriteCycle, decodeCycle, exec, execIowr]
  rfl

/-- A write at the data port, as one event (rules R133, R200). -/
theorem eventStep_datWrite (h : s.params.portCtrl ≠ s.params.portData) (v : Byte) :
    eventStep (portWriteCycle s.params.portData v) s = .next (toReleased (datWrite v s)) := by
  simp [eventStep, portWriteCycle, decodeCycle, exec, execIowr, Ne.symm h]
  rfl

/-- A read at the control port, as one event: the status byte (rules R133, R192). -/
theorem eventStep_ctlRead :
    eventStep (portReadCycle s.params.portCtrl) s = .next (toReleased s) ∧
    response (portReadCycle s.params.portCtrl) s = some s.bridge.ctrlReg := by
  simp [eventStep, response, portReadCycle, decodeCycle, exec, execIord, ctlRead]
  rfl

/-- A read at the data port, as one event (rules R133, R199). -/
theorem eventStep_datRead (h : s.params.portCtrl ≠ s.params.portData) :
    eventStep (portReadCycle s.params.portData) s = .next (toReleased (datRead s)) ∧
    response (portReadCycle s.params.portData) s = (datRead s).dout := by
  simp [eventStep, response, portReadCycle, decodeCycle, exec, execIord, Ne.symm h]

/-! ### Which cycle calls the driver -/

/-- What a driver call, or none, leaves of itself: the blind interval, the wait output, the answer used
up. -/
structure CallEffect (s t : State) (call : Option DriverCall) : Prop where
  blind : t.record.blind =
    (call.toList.map fun k => { what := .driver k, wait := s.params.useWait }) ++ s.record.blind
  wait : t.bcc.wait = if call.isSome then s.params.useWait && !s.running else s.bcc.wait
  replies : t.env.replies = if call.isSome then s.env.replies.tail else s.env.replies

theorem CallEffect.refl : CallEffect s s none := ⟨rfl, rfl, rfl⟩

theorem CallEffect.afterCall (k : DriverCall) : CallEffect s (s.afterCall k) (some k) :=
  ⟨rfl, rfl, rfl⟩

/-- A transition of the bridge around a call changes nothing of this. -/
theorem CallEffect.onBridge {s t : State} {k : Option DriverCall} (h : CallEffect s t k)
    (f : Bridge → Bridge) : CallEffect s (onBridge f t) k := ⟨h.1, h.2, h.3⟩

theorem CallEffect.of_onBridge {s t : State} {k : Option DriverCall} (f : Bridge → Bridge)
    (h : CallEffect (Machine.onBridge f s) t k) : CallEffect s t k := ⟨h.1, h.2, h.3⟩

theorem CallEffect.holdWrite {s t : State} {k : Option DriverCall} (h : CallEffect s t k) :
    CallEffect s (holdWrite t) k := ⟨h.1, h.2, h.3⟩

theorem CallEffect.drive {s t : State} {k : Option DriverCall} (h : CallEffect s t k) (v : Byte) :
    CallEffect s (drive v t) k := ⟨h.1, h.2, h.3⟩

theorem sectorRead_call (i : Word) : CallEffect s (sectorRead i s) (some (.readSector i)) := by
  obtain ⟨f, hf, _⟩ := sectorRead_eq s i
  rw [hf]; exact (CallEffect.afterCall s _).onBridge f

/-- The driver call of a control-port byte that is this operation. -/
def callOfInstr (s : State) : Instr → Option DriverCall
  | .init => some .init
  | .present => some .present
  | .getcap => some .sectorCount
  | .go => some (.readSector s.bridge.sectorAddress)
  | .rdnext => some (.readSector (s.bridge.sectorAddress + 1#32))
  | _ => none

/-- The opcode row that a byte is, with what it does (rules R95, R96, R196). -/
theorem opcode_cases (v : Byte) :
    (decodeOpcode v = .init ∧ opcodeByte v = initCommand) ∨
    (decodeOpcode v = .present ∧ opcodeByte v = presentCommand) ∨
    (decodeOpcode v = .getid ∧ opcodeByte v = getIdCommand) ∨
    (decodeOpcode v = .getser ∧ opcodeByte v = getSerialCommand) ∨
    (decodeOpcode v = .getcap ∧ opcodeByte v = getCapacityCommand) ∨
    (decodeOpcode v = .rdsec ∧ opcodeByte v = readSectorCommand) ∨
    (decodeOpcode v = .rdnext ∧ opcodeByte v = readNextCommand) ∨
    (decodeOpcode v = .wrsec ∧ opcodeByte v = writeSectorCommand) ∨
    (decodeOpcode v = .unrec v ∧ opcodeByte v = unrecognised) := by
  have ho : opcodeByte v = fun s => opcodeByte v s := rfl
  rw [ho]
  unfold decodeOpcode opcodeByte
  generalize v.toNat = n
  rcases n with _ | _ | _ | _ | _ | _ | _ | _ | _ | n <;> simp

theorem opcodeByte_call (v : Byte) :
    CallEffect s (opcodeByte v s) (callOfInstr s (decodeOpcode v)) := by
  have hr := CallEffect.refl s
  rcases opcode_cases v with ⟨hd, ho⟩ | ⟨hd, ho⟩ | ⟨hd, ho⟩ | ⟨hd, ho⟩ | ⟨hd, ho⟩ | ⟨hd, ho⟩ |
    ⟨hd, ho⟩ | ⟨hd, ho⟩ | ⟨hd, ho⟩ <;> rw [hd, ho]
  · unfold initCommand statusCommand; simp only [callDriver_eq]
    exact (CallEffect.of_onBridge _ (.afterCall _ _)).onBridge _
  · unfold presentCommand statusCommand; simp only [callDriver_eq]
    exact (CallEffect.of_onBridge _ (.afterCall _ _)).onBridge _
  · exact hr.onBridge _
  · exact hr.onBridge _
  · unfold getCapacityCommand; simp only [callDriver_eq]
    exact (CallEffect.of_onBridge _ (.afterCall _ _)).onBridge _
  · exact hr.onBridge _
  · exact .of_onBridge _ (sectorRead_call _ _)
  · exact hr.onBridge _
  · exact hr.onBridge _

theorem ctlWrite_call (v : Byte) : CallEffect s (ctlWrite v s)
    (callOfInstr s (decodeCommand (positionOf s.bridge.phase) v)) := by
  unfold ctlWrite
  cases hp : s.bridge.phase with
  | awaitAddr k => exact (CallEffect.refl s).onBridge _
  | awaitGo =>
    by_cases hv : v = 0x06#8
    · subst hv; exact sectorRead_call s _
    · simp only [positionOf, decodeCommand, if_neg hv]; exact opcodeByte_call s v
  | idle | xferRead | xferWrite => exact opcodeByte_call s v

theorem datWrite_call (v : Byte) : CallEffect s (datWrite v s)
    (if s.bridge.bytesPendingIn = 1#16 then
      some (.writeSector s.bridge.sectorAddress (s.bridge.accept v).blockBuffer) else none) := by
  have hr := CallEffect.refl s
  by_cases h0 : s.bridge.bytesPendingIn = 0#16
  · rw [datWrite_idle h0, if_neg (by rw [h0]; decide)]; exact hr.onBridge _
  · by_cases h1 : s.bridge.bytesPendingIn = 1#16
    · rw [datWrite_last h1, if_pos h1, commitSector_eq]
      exact (CallEffect.of_onBridge (Bridge.accept v) (.afterCall _ _)).onBridge _
    · rw [datWrite_store h0 h1, if_neg h1]; exact hr.onBridge _

/-- A cycle makes the driver call that `State.callOf` names, and no other (rule R217). -/
theorem exec_cycle_call {c : BusCycle} {s u : State} (h : exec (decodeCycle c) s = .next u) :
    CallEffect s u (s.callOf c) := by
  have hr := CallEffect.refl s
  unfold State.callOf
  rcases decodeCycle_cases c with ⟨-, cs, io, a, d, he | he⟩ | ⟨-, -, -, he⟩ | ⟨-, -, -, he⟩ |
    ⟨-, -, -, -, he⟩ | ⟨-, -, -, -, he⟩ | ⟨-, -, -, he⟩ <;> rw [he] at h ⊢ <;> dsimp only
  · obtain rfl := Host.Outcome.next.inj h; exact hr
  · obtain rfl := Host.Outcome.next.inj h; exact hr
  · obtain rfl := Host.Outcome.next.inj h
    split
    · exact hr.drive _
    · split
      · rcases datRead_eq s with ⟨e, _⟩ | ⟨e, _⟩ <;> rw [e]
        · exact hr.drive _
        · exact (hr.onBridge _).drive _
      · exact hr
  · obtain rfl := Host.Outcome.next.inj h
    by_cases hc : portOf c.address = s.params.portCtrl
    · rw [if_pos hc, if_pos hc]; exact (ctlWrite_call s _).holdWrite
    · rw [if_neg hc, if_neg hc]
      by_cases hd : portOf c.address = s.params.portData
      · have := (datWrite_call s c.data).holdWrite
        by_cases h1 : s.bridge.bytesPendingIn = 1#16 <;> simpa [hd, h1] using this
      · simpa [hd] using hr
  · obtain rfl := Host.Outcome.next.inj h
    split
    · obtain ⟨v, e | e⟩ := mapperRead_drives s ‹_› <;> rw [e]
      · exact hr.drive _
      · constructor <;> rfl
    · exact hr
  · obtain rfl := Host.Outcome.next.inj h
    split
    · rcases mapperWrite_eq s c.address c.data with e | ⟨_, _, _, _, e⟩ <;> rw [e]
      · exact hr.holdWrite
      · constructor <;> rfl
    · exact hr
  · obtain rfl := Host.Outcome.next.inj h; exact hr

/-- Only a claimed I/O write calls the driver. -/
theorem claimedWrite_of_callOf {s : State} {c : BusCycle} (h : (s.callOf c).isSome = true) :
    s.claimedWrite c = true := by
  unfold State.callOf at h
  unfold State.claimedWrite
  split at h
  · rename_i cs a v he
    rw [he]
    simp only [State.atPort]
    split at h
    · simp [*]
    · split at h
      · simp [*]
      · simp at h
  · simp at h

/-- Which call a cycle makes depends on the parameters and the bridge alone. -/
theorem callOf_congr {s t : State} (hp : t.params = s.params) (hb : t.bridge = s.bridge)
    (c : BusCycle) : t.callOf c = s.callOf c := by
  simp only [State.callOf, hp, hb]

end Sys2Proof.Machine
end

