-- ==== Sys2Proof/Laws/Event.lean ====
section
/-! SUPPORT. Lists of host cycles: one cycle at a time, the control-port writes of a command with a
sector address as one step, and the same with the reference driver as oracle. -/

namespace Sys2Proof.Machine

/-- A control-port write at the head of a list of cycles. -/
theorem runEvents_ctlWrite {s : State} {p : Byte} (h : s.params.portCtrl = p) (v : Byte)
    (rest : List BusCycle) :
    runEvents (portWriteCycle p v :: rest) s = runEvents rest (toReleased (ctlWrite v s)) ∧
    responses (portWriteCycle p v :: rest) s =
      none :: responses rest (toReleased (ctlWrite v s)) := by
  subst h
  rw [runEvents, responses, eventStep_ctlWrite]
  refine ⟨rfl, ?_⟩
  congr 1
  simp [response, portWriteCycle, decodeCycle, exec, execIowr]

/-- A data-port write at the head of a list of cycles. -/
theorem runEvents_datWrite {s : State} {p : Byte} (h : s.params.portData = p)
    (hne : s.params.portCtrl ≠ p) (v : Byte) (rest : List BusCycle) :
    runEvents (portWriteCycle p v :: rest) s = runEvents rest (toReleased (datWrite v s)) := by
  subst h
  rw [runEvents, eventStep_datWrite s hne]

/-- A data-port read at the head of a list of cycles. -/
theorem runEvents_datRead {s : State} {p : Byte} (h : s.params.portData = p)
    (hne : s.params.portCtrl ≠ p) (rest : List BusCycle) :
    runEvents (portReadCycle p :: rest) s = runEvents rest (toReleased (datRead s)) ∧
    responses (portReadCycle p :: rest) s =
      (datRead s).dout :: responses rest (toReleased (datRead s)) := by
  subst h
  obtain ⟨h1, h2⟩ := eventStep_datRead s hne
  rw [runEvents, responses, h1, h2]
  exact ⟨rfl, rfl⟩

/-- Four address bytes, whatever they are. -/
theorem runEvents_address {s : State} {p : Byte} (h : s.params.portCtrl = p)
    (hp : s.bridge.phase = .awaitAddr .four) (b0 b1 b2 b3 : Byte) (rest : List BusCycle) :
    let b := (((s.bridge.addrByte .four b0).addrByte .three b1).addrByte .two b2).addrByte .one b3
    runEvents ([b0, b1, b2, b3].map (portWriteCycle p) ++ rest) s =
      runEvents rest (toReleased (s.withBridge b)) ∧
    responses ([b0, b1, b2, b3].map (portWriteCycle p) ++ rest) s =
      List.replicate 4 none ++ responses rest (toReleased (s.withBridge b)) := by
  intro b
  simp only [List.map_cons, List.map_nil, List.cons_append, List.nil_append]
  have hp2 : (toReleased (onBridge (Bridge.addrByte .four b0) s)).bridge.phase =
    .awaitAddr .three := rfl
  have hp3 : (toReleased (onBridge (Bridge.addrByte .three b1)
    (toReleased (onBridge (Bridge.addrByte .four b0) s)))).bridge.phase = .awaitAddr .two := rfl
  have hp4 : (toReleased (onBridge (Bridge.addrByte .two b2)
    (toReleased (onBridge (Bridge.addrByte .three b1)
      (toReleased (onBridge (Bridge.addrByte .four b0) s)))))).bridge.phase =
    .awaitAddr .one := rfl
  rw [(runEvents_ctlWrite h _ _).1, (runEvents_ctlWrite h _ _).2, ctlWrite_address hp]
  rw [(runEvents_ctlWrite (by exact h) _ _).1, (runEvents_ctlWrite (by exact h) _ _).2,
    ctlWrite_address hp2]
  rw [(runEvents_ctlWrite (by exact h) _ _).1, (runEvents_ctlWrite (by exact h) _ _).2,
    ctlWrite_address hp3]
  rw [(runEvents_ctlWrite (by exact h) _ _).1, (runEvents_ctlWrite (by exact h) _ _).2,
    ctlWrite_address hp4]
  refine ⟨rfl, ?_⟩
  simp only [List.replicate, List.cons_append, List.nil_append]
  rfl

/-- The bridge after the four bytes of a sector number, from a cleared address (rules R104, R207). -/
theorem addrByte_four {b : Bridge} (h : b.sectorAddress = 0#32) (n : Word) :
    (((b.addrByte .four (byteOf n 0)).addrByte .three (byteOf n 1)).addrByte .two
      (byteOf n 2)).addrByte .one (byteOf n 3) =
    if b.opcode = 0x06#8 then { b with sectorAddress := n, phase := .awaitGo }
    else { b with
      sectorAddress := n, cursor := 0#16, bytesPendingIn := 512#16, phase := .xferWrite } := by
  have hn : 0#32 ||| byteAt (byteOf n 0) 0 ||| byteAt (byteOf n 1) 1 ||| byteAt (byteOf n 2) 2 |||
      byteAt (byteOf n 3) 3 = n := by
    have := leWord_byteOf n
    simpa [leWord] using this
  simp only [Bridge.addrByte, AddrLeft.index, AddrLeft.toNat, Nat.reduceSub, h, Bridge.openWrite]
  split <;> rw [hn]

/-- Opcode and address of a block read or a block write (rules R106, R206, R210): the address is
assembled and the command waits for its trigger, or its transfer is open. -/
theorem runEvents_addressedCommand {s : State} {p op : Byte} (h : s.params.portCtrl = p)
    (hop : op = 0x06#8 ∨ op = 0x08#8) (hi : InOpcodePosition s.bridge op) (n : Word)
    (rest : List BusCycle) :
    let t := toReleased (s.withBridge (
      if op = 0x06#8 then { s.bridge with
        opcode := op, bytesPendingIn := 0#16, bytesPendingOut := 0#16, sectorAddress := n
        phase := .awaitGo }
      else { s.bridge with
        opcode := op, bytesPendingIn := 512#16, bytesPendingOut := 0#16, sectorAddress := n
        cursor := 0#16, phase := .xferWrite }))
    runEvents (addressedCommand p op n ++ rest) s = runEvents rest t ∧
    responses (addressedCommand p op n ++ rest) s =
      List.replicate 5 none ++ responses rest t := by
  intro t
  have h0 : ctlWrite op s = onBridge (fun b => (b.startOpcode op).beginAddr) s := by
    rw [ctlWrite_of_in hi]
    rcases hop with rfl | rfl <;> rfl
  simp only [addressedCommand, leBytes, List.cons_append]
  rw [(runEvents_ctlWrite h _ _).1, (runEvents_ctlWrite h _ _).2, h0]
  obtain ⟨h1, h2⟩ := runEvents_address (s := toReleased (onBridge
    (fun b => (b.startOpcode op).beginAddr) s)) h rfl (byteOf n 0) (byteOf n 1) (byteOf n 2)
    (byteOf n 3) rest
  rw [h1, h2]
  have hb : (toReleased (onBridge (fun b => (b.startOpcode op).beginAddr) s)).bridge =
    (s.bridge.startOpcode op).beginAddr := rfl
  rw [hb, addrByte_four rfl n]
  rcases hop with rfl | rfl
  · exact ⟨rfl, rfl⟩
  · exact ⟨rfl, rfl⟩

/-! ### The reference driver as oracle (rules R71, R133) -/

/-- An event adds to the record exactly the call its cycle makes. -/
theorem eventStep_blind {c : BusCycle} {s t : State} (h : eventStep c s = .next t) :
    t.record.blind = ((s.callOf c).toList.map fun k =>
      { what := .driver k, wait := s.params.useWait }) ++ s.record.blind := by
  obtain ⟨u, hu, rfl⟩ := mapNext_eq_next h
  exact (exec_cycle_call hu).blind

/-- A list of cycles only adds to the record. -/
theorem runEvents_blind_length {l : List BusCycle} {s t : State} (h : runEvents l s = .next t) :
    s.record.blind.length ≤ t.record.blind.length := by
  induction l generalizing s with
  | nil => obtain rfl := Host.Outcome.next.inj h; exact le_refl _
  | cons c rest ih =>
    rw [runEvents] at h
    cases he : eventStep c s with
    | fault r => rw [he] at h; cases h
    | refused r => rw [he] at h; cases h
    | next u =>
      rw [he] at h
      have := ih h
      rw [eventStep_blind he, List.length_append] at this
      omega

/-- Cycles that call no driver run with the reference driver as they run without it. -/
theorem runWith_of_quiet {l : List BusCycle} {s t : State} (h : runEvents l s = .next t)
    (hq : t.record.blind = s.record.blind) (d : RefDriver) (rest : List BusCycle) :
    runWith (l ++ rest) d s = runWith rest d t ∧
    responsesWith (l ++ rest) d s = responses l s ++ responsesWith rest d t := by
  induction l generalizing s with
  | nil => obtain rfl := Host.Outcome.next.inj h; exact ⟨rfl, rfl⟩
  | cons c l ih =>
    rw [runEvents] at h
    cases he : eventStep c s with
    | fault r => rw [he] at h; cases h
    | refused r => rw [he] at h; cases h
    | next u =>
      rw [he] at h
      have hl := runEvents_blind_length h
      have hb := eventStep_blind he
      have hn : s.callOf c = none := by
        cases hc : s.callOf c with
        | none => rfl
        | some k =>
          rw [hb, hq, hc] at hl
          simp at hl
      have ha : s.answeredBy d c = s := by rw [State.answeredBy, hn]
      have hd : d.afterCycle s c = d := by rw [RefDriver.afterCycle, hn]
      obtain ⟨h1, h2⟩ := ih h (by rw [hq, hb, hn]; rfl)
      rw [List.cons_append, runWith, responsesWith, responses, ha, hd, he]
      exact ⟨h1, by dsimp only; rw [h2]; rfl⟩

/-- A cycle that calls the driver, with the reference driver's answer. -/
theorem runWith_cons_call {c : BusCycle} {s t : State} {d : RefDriver} {call : DriverCall}
    (hc : s.callOf c = some call)
    (h : eventStep c { s with env := { s.env with replies := d.reply call :: s.env.replies } } =
      .next t) (rest : List BusCycle) :
    runWith (c :: rest) d s = runWith rest (d.after call) t ∧
    responsesWith (c :: rest) d s =
      response c { s with env := { s.env with replies := d.reply call :: s.env.replies } } ::
        responsesWith rest (d.after call) t := by
  have ha : s.answeredBy d c =
      { s with env := { s.env with replies := d.reply call :: s.env.replies } } := by
    rw [State.answeredBy, hc]
  have hd : d.afterCycle s c = d.after call := by rw [RefDriver.afterCycle, hc]
  rw [runWith, responsesWith, ha, hd, h]
  exact ⟨rfl, rfl⟩

/-- A claimed write answers nothing. -/
theorem response_of_claimedWrite {c : BusCycle} {s : State} (h : s.claimedWrite c = true) :
    response c s = none := by
  unfold response
  split
  · rename_i t ht
    rcases exec_cycle_cases ht with ⟨h1, -⟩ | ⟨-, -, h1, -⟩ | ⟨-, -, -, rfl | rfl | rfl⟩
    · simp [State.claimed, h] at h1
    · exfalso
      unfold State.claimedRead at h1
      unfold State.claimedWrite at h
      split at h1 <;> simp_all
    all_goals simp [State.dout]
  · rfl
  · rfl

/-- Responses of two lists of cycles, one after the other. -/
theorem responses_append {l : List BusCycle} {s t : State} (h : runEvents l s = .next t)
    (m : List BusCycle) : responses (l ++ m) s = responses l s ++ responses m t := by
  induction l generalizing s with
  | nil => obtain rfl := Host.Outcome.next.inj h; rfl
  | cons c l ih =>
    rw [runEvents] at h
    rw [List.cons_append, responses, responses]
    cases he : eventStep c s with
    | next u => rw [he] at h; simp only [ih h, List.cons_append]
    | fault r => rw [he] at h; cases h
    | refused r => rw [he] at h; cases h

/-- Data-port writes answer nothing. -/
theorem responses_datWrites {p : Byte} (l : List Byte) {s : State} (h : s.params.portData = p)
    (hne : s.params.portCtrl ≠ p) :
    responses (l.map (portWriteCycle p)) s = List.replicate l.length none := by
  induction l generalizing s with
  | nil => rfl
  | cons b l ih =>
    subst h
    rw [List.map_cons, responses, eventStep_datWrite _ hne]
    dsimp only
    rw [ih (by simp [(datWrite_same s b).params])
      (by simpa [(datWrite_same s b).params] using hne), response_of_claimedWrite]
    · rfl
    · simp [State.claimedWrite, portWriteCycle, decodeCycle, State.atPort]

end Sys2Proof.Machine
end

