-- ==== Sys2Proof/Laws/Table.lean ====
section
/-! SUPPORT. What the table scan returns and what a selection leaves unchanged. -/

namespace Sys2Proof.Machine

/-! ### The scan -/

theorem imgBytes_append (img : Memory) (m n : Nat) : ∀ a,
    imgBytes img a (m + n) = imgBytes img a m ++ imgBytes img (a + m) n := by
  induction m with
  | zero => intro a; simp [imgBytes]
  | succ m ih =>
    intro a
    rw [show m + 1 + n = (m + n) + 1 by omega]
    simp only [imgBytes, ih, List.cons_append]
    rw [show a + 1 + m = a + (m + 1) by omega]

/-- A record assembled from the 29 bytes at an address, field by field (rule R253). -/
theorem recordOfBytes_imgBytes (img : Memory) (a : Nat) :
    recordOfBytes (imgBytes img a 29) = RomRecord.mk (imgBytes img a 20) (imgByte img (a + 20))
      (imgByte img (a + 24) ++ imgByte img (a + 23) ++ imgByte img (a + 22) ++ imgByte img (a + 21))
      (imgByte img (a + 28) ++ imgByte img (a + 27) ++ imgByte img (a + 26) ++
        imgByte img (a + 25)) := by
  have g : ∀ k, k < 29 → (imgBytes img a 29).getD k 0#8 = imgByte img (a + k) := by
    intro k hk
    rw [List.getD_eq_getElem?_getD, imgBytes_getElem?, if_pos hk]
    rfl
  simp only [recordOfBytes]
  rw [g 20 (by omega), g 21 (by omega), g 22 (by omega), g 23 (by omega), g 24 (by omega),
    g 25 (by omega), g 26 (by omega), g 27 (by omega), g 28 (by omega), leWord_eq, leWord_eq]
  rw [show (29 : Nat) = 20 + 9 from rfl, imgBytes_append, List.take_left' (by simp [nameBytes])]

/-- The scan, whole: never more records than allowed, each one the 29 bytes at its stride and no
sentinel, and where it stops short there is a sentinel (rules R253, R255). -/
theorem scanTable_spec (img : Memory) (fuel : Nat) : ∀ base : Nat,
    (scanTable img base fuel).length ≤ fuel ∧
    (∀ (n : Nat) (r : RomRecord), (scanTable img base fuel)[n]? = some r →
      isSentinel (imgBytes img (base + 29 * n) 29) = false ∧
      r = recordOfBytes (imgBytes img (base + 29 * n) 29)) ∧
    ((scanTable img base fuel).length = fuel ∨
      isSentinel (imgBytes img (base + 29 * (scanTable img base fuel).length) 29) = true) := by
  induction fuel with
  | zero => intro base; simp [scanTable]
  | succ fuel ih =>
    intro base
    obtain ⟨h1, h2, h3⟩ := ih (base + 29)
    unfold scanTable
    simp only [recordBytes]
    by_cases hs : isSentinel (imgBytes img base 29) = true
    · simp [hs]
    · rw [if_neg hs]
      refine ⟨by simp; omega, ?_, ?_⟩
      · intro n r hr
        cases n with
        | zero => simp at hr; simp [hr, hs]
        | succ n =>
          simp at hr
          rw [show base + 29 * (n + 1) = base + 29 + 29 * n by omega]
          exact h2 n r hr
      · rcases h3 with h3 | h3
        · left; simp [h3]
        · right
          simp only [List.length_cons]
          rw [Nat.mul_add, ← Nat.add_assoc, Nat.add_right_comm]
          exact h3

/-- Every listed record has a 20-byte name. -/
theorem scanTable_name (img : Memory) (fuel base : Nat) :
    ∀ r ∈ scanTable img base fuel, r.name.length = nameBytes := by
  intro r h
  obtain ⟨n, hn⟩ := List.mem_iff_getElem?.1 h
  rw [((scanTable_spec img fuel base).2.1 n r hn).2]
  simp [recordOfBytes, nameBytes]

/-! ### Selection -/

theorem kindOfCode_kindCode (k : MapperKind) : kindOfCode (kindCode k) = some k := by
  cases k <;> rfl

/-- What a selection leaves unchanged: all but the mapper, the store, the wait output and the
record. -/
theorem selectIndex_same (s : State) (n : Nat) :
    (selectIndex n s).params = s.params ∧ (selectIndex n s).img = s.img ∧
    (selectIndex n s).bridge = s.bridge ∧
    (selectIndex n s).bcc = { s.bcc with wait := s.params.useWait && !s.running } ∧
    (selectIndex n s).reselect = s.reselect ∧ (selectIndex n s).env = s.env ∧
    (selectIndex n s).record = { s.record with
      blind := { what := .selection, wait := s.params.useWait } :: s.record.blind } := by
  rw [selectIndex_eq]
  split
  · exact ⟨rfl, rfl, rfl, rfl, rfl, rfl, rfl⟩
  · rcases loadIfUsable_eq (s.afterBlind .selection) ‹_› with h | ⟨k, _, _, h⟩ <;> rw [h] <;>
      exact ⟨rfl, rfl, rfl, rfl, rfl, rfl, rfl⟩

end Sys2Proof.Machine
end

