-- ==== Sys2Proof/Laws/Invariant.lean ====
section
/-! SUPPORT. How each shared operation treats the parts of the invariant. -/

namespace Sys2Proof.Machine

/-! ### The bridge -/

/-- With no transfer and no command the bridge meets its invariant. -/
theorem BridgeOk.of_idle {b : Bridge} (hc : b.cursor.toNat ≤ 512) (h1 : b.bytesPendingIn = 0#16)
    (h2 : b.bytesPendingOut = 0#16) (hp : b.phase = .idle) : BridgeOk b := by
  constructor <;> simp [hc, h1, h2, hp]

/-- Outside a transfer both counts are 0. -/
theorem BridgeOk.counts_zero {b : Bridge} (h : BridgeOk b) (h1 : b.phase ≠ .xferRead)
    (h2 : b.phase ≠ .xferWrite) : b.bytesPendingIn = 0#16 ∧ b.bytesPendingOut = 0#16 := by
  refine ⟨?_, ?_⟩
  · by_contra hc; exact h2 (h.writePhase.2 hc)
  · by_contra hc; exact h1 (h.readPhase.2 hc)

theorem BridgeOk.dropTransfer {b : Bridge} (h : BridgeOk b) : BridgeOk b.dropTransfer :=
  .of_idle h.cursorRange rfl rfl rfl

theorem BridgeOk.openRead {b : Bridge} (h : b.bytesPendingIn = 0#16) (d : Block) :
    BridgeOk (b.openRead d) := by
  constructor <;> simp [Bridge.openRead, h, sectorBytes]

theorem BridgeOk.stagePayload {b : Bridge} (h : b.bytesPendingIn = 0#16) (x : Word) :
    BridgeOk (b.stagePayload x) := by
  constructor <;> simp [Bridge.stagePayload, h, Config.idLen]

theorem BridgeOk.beginAddr {b : Bridge} {op : Byte} (ho : op = 0x06#8 ∨ op = 0x08#8)
    (h : b.cursor.toNat ≤ 512) : BridgeOk (b.startOpcode op).beginAddr := by
  constructor <;> simp [Bridge.beginAddr, Bridge.startOpcode, Bridge.dropTransfer, h]
  exact ho

theorem BridgeOk.sectorRead {s : State} (h1 : s.bridge.bytesPendingIn = 0#16)
    (h : s.bridge.cursor.toNat ≤ 512) (i : Word) : BridgeOk (sectorRead i s).bridge := by
  obtain ⟨f, hf, ⟨_, rfl⟩ | ⟨_, rfl⟩⟩ := sectorRead_eq s i
  · rw [hf]; exact .openRead h1 _
  · rw [hf]; exact .of_idle h rfl rfl rfl

theorem BridgeOk.setStatus {b : Bridge} (st : Status) (h : b.cursor.toNat ≤ 512)
    (h1 : b.bytesPendingIn = 0#16) (h2 : b.bytesPendingOut = 0#16) :
    BridgeOk { Bridge.setStatus st b with phase := .idle } := by
  cases st
  · exact .of_idle h h1 h2 rfl
  · exact .of_idle h rfl rfl rfl

theorem BridgeOk.opcodeByte {s : State} (h : BridgeOk s.bridge) (v : Byte) :
    BridgeOk (opcodeByte v s).bridge := by
  have hc := h.cursorRange
  unfold Machine.opcodeByte
  split
  · unfold initCommand statusCommand; rw [callDriver_eq]; exact .setStatus _ hc rfl rfl
  · unfold presentCommand statusCommand; rw [callDriver_eq]; exact .setStatus _ hc rfl rfl
  · exact .stagePayload rfl _
  · exact .stagePayload rfl _
  · unfold getCapacityCommand; rw [callDriver_eq]; exact .stagePayload rfl _
  · exact .beginAddr (.inl rfl) hc
  · refine BridgeOk.sectorRead ?_ ?_ _
    · rfl
    · exact hc
  · exact .beginAddr (.inr rfl) hc
  · exact h.dropTransfer

/-- A control-port write keeps the bridge's invariant (rule R47). -/
theorem BridgeOk.ctlWrite {s : State} (h : BridgeOk s.bridge) (v : Byte) :
    BridgeOk (ctlWrite v s).bridge := by
  unfold Machine.ctlWrite
  split
  · rename_i k hp
    obtain ⟨p1, p2⟩ := h.counts_zero (by simp [hp]) (by simp [hp])
    have ho := h.addressOpcode k hp
    have hc := h.cursorRange
    cases k
    · constructor <;> simp [Bridge.addrByte, p1, p2, hc]; exact ho
    · constructor <;> simp [Bridge.addrByte, p1, p2, hc]; exact ho
    · constructor <;> simp [Bridge.addrByte, p1, p2, hc]; exact ho
    · simp only [onBridge_bridge, Bridge.addrByte]
      split
      · rename_i h6
        constructor <;> simp [p1, p2, hc]; exact h6
      · constructor <;> simp [Bridge.openWrite, p2, sectorBytes]
  · rename_i hp
    obtain ⟨p1, p2⟩ := h.counts_zero (by simp [hp]) (by simp [hp])
    split
    · exact .sectorRead p1 h.cursorRange _
    · exact h.opcodeByte v
  · exact h.opcodeByte v
  · exact h.opcodeByte v
  · exact h.opcodeByte v

theorem toNat_ne_zero {x : Half} (h : x ≠ 0#16) : x.toNat ≠ 0 := by
  intro e; exact h (BitVec.eq_of_toNat_eq (by simpa using e))

/-- A data-port read keeps the bridge's invariant (rule R47). -/
theorem BridgeOk.datRead {s : State} (h : BridgeOk s.bridge) : BridgeOk (datRead s).bridge := by
  rcases datRead_eq s with ⟨e, h0⟩ | ⟨e, h0⟩
  · rw [e]; exact h
  · rw [e]
    have hp := h.readPhase.2 h0
    have h1 : s.bridge.bytesPendingIn = 0#16 := by
      by_contra hc; have := h.writePhase.2 hc; rw [hp] at this; cases this
    have hs := h.outSum h0
    have hn := toNat_ne_zero h0
    have hc1 : (s.bridge.cursor + 1#16).toNat = s.bridge.cursor.toNat + 1 := by
      simp [BitVec.toNat_add]; omega
    have hb1 : (s.bridge.bytesPendingOut - 1#16).toNat = s.bridge.bytesPendingOut.toNat - 1 := by
      rw [BitVec.toNat_sub]; simp; omega
    constructor <;> simp only [drive_bridge, onBridge_bridge, Bridge.deliver]
    · split <;> simp [*]
    · split <;> simp [*]
    · intro _; rw [hc1, hb1]; omega
    · intro hc; exact absurd h1 hc
    · rw [hc1]; omega
    · intro k; split <;> simp [*]
    · split <;> simp [*]

/-- A data-port write keeps the bridge's invariant (rule R47). -/
theorem BridgeOk.datWrite {s : State} (h : BridgeOk s.bridge) (v : Byte) :
    BridgeOk (datWrite v s).bridge := by
  by_cases h0 : s.bridge.bytesPendingIn = 0#16
  · rw [datWrite_idle h0]
    exact ⟨h.1, h.2, h.3, h.4, h.5, h.6, h.7⟩
  · have hp := h.writePhase.2 h0
    have h1 : s.bridge.bytesPendingOut = 0#16 := by
      by_contra hc; have := h.readPhase.2 hc; rw [hp] at this; cases this
    have hs := h.inSum h0
    have hn := toNat_ne_zero h0
    have hc1 : (s.bridge.cursor + 1#16).toNat = s.bridge.cursor.toNat + 1 := by
      simp [BitVec.toNat_add]; omega
    have hb1 : (s.bridge.bytesPendingIn - 1#16).toNat = s.bridge.bytesPendingIn.toNat - 1 := by
      rw [BitVec.toNat_sub]; simp; omega
    by_cases h2 : s.bridge.bytesPendingIn = 1#16
    · rw [datWrite_last h2, commitSector_eq]
      have hz : (Bridge.accept v s.bridge).bytesPendingIn = 0#16 := (sub_one_eq_zero _).2 h2
      have hcc : (Bridge.accept v s.bridge).cursor.toNat ≤ 512 := by
        simp only [Bridge.accept, hc1]; omega
      split
      · exact .of_idle hcc hz h1 rfl
      · exact .of_idle hcc rfl rfl rfl
    · rw [datWrite_store h0 h2]
      have hz : s.bridge.bytesPendingIn - 1#16 ≠ 0#16 := fun e => h2 ((sub_one_eq_zero _).1 e)
      constructor <;> simp only [onBridge_bridge, Bridge.accept]
      · simp [hp, h1]
      · simp [hp, hz]
      · intro hc; exact absurd h1 hc
      · intro _; rw [hc1, hb1]; omega
      · rw [hc1]; omega
      · intro k; simp [hp]
      · simp [hp]

/-! ### The mapper and the store -/

/-- The mapper's invariant reads only the mapper, the store, the parameters and the image. -/
theorem MapperOk.congr {s t : State} (h : MapperOk s) (h1 : t.cfg = s.cfg) (h2 : t.bank = s.bank)
    (h3 : t.rbs = s.rbs) (h4 : t.params = s.params) (h5 : t.img = s.img) : MapperOk t := by
  simp only [MapperOk] at *
  rw [h1]
  cases hc : s.cfg with
  | none => simpa [hc, h2, h3] using h
  | some c =>
    rw [hc] at h
    exact ⟨h.1, by rw [h4]; exact h.2, by rw [h2]; exact h.3, by rw [h2, h4]; exact h.4,
      by rw [h3, h5]; exact h.5, by rw [h3]; exact h.6⟩

/-- A trigger write keeps the mapper's invariant; Konami's register 0 has no trigger. -/
theorem MapperOk.mapperWrite {s : State} (h : MapperOk s) (a : Half) (d : Byte) :
    MapperOk (mapperWrite a d s) := by
  rcases mapperWrite_eq s a d with e | ⟨c, r, hc, ht, e⟩
  · rw [e]; exact h
  · rw [e]
    simp only [MapperOk, setBank_cfg, hc] at *
    obtain ⟨hr, hk⟩ := triggerRegister_lt ht
    refine ⟨h.1, h.2, by simpa using h.3, ?_, h.5, h.6⟩
    intro hkk
    simp only [setBank_bank]
    rw [List.getElem?_set, if_neg (hk hkk)]
    exact h.4 hkk

/-- A selection keeps the mapper's invariant and the store's canonical form. -/
theorem MapperOk.selectIndex {s : State} (h : MapperOk s) (n : Nat) :
    MapperOk (selectIndex n s) ∧
    (s.rbs.bytes.wf = true → (Machine.selectIndex n s).rbs.bytes.wf = true) := by
  rw [selectIndex_eq]
  split
  · exact ⟨h.congr rfl rfl rfl rfl rfl, fun h => h⟩
  · rename_i r hr
    rcases loadIfUsable_eq (s.afterBlind .selection) r with e | ⟨k, hk, hu, e⟩
    · rw [e]; exact ⟨h.congr rfl rfl rfl rfl rfl, fun h => h⟩
    · rw [e]
      refine ⟨?_, fun _ => loadImage_wf _ _ _⟩
      simp only [MapperOk, loadImage_cfg]
      refine ⟨rfl, hu, bankAfterSelect_length _ k, ?_, ⟨r.offset.toNat, rfl⟩, ⟨r.name, rfl, ?_⟩⟩
      · intro hkk; simp only at hkk; subst hkk; simp [bankAfterSelect]
      · exact scanTable_name _ _ _ _ (List.mem_of_getElem? hr)

end Sys2Proof.Machine
end

