-- ==== Sys2Proof/Laws/Loop.lean ====
section
/-! SUPPORT. What every step does to the environment and the shared flag, when a write of the second
task has landed, what a cycle does not look at, and several steps one after the other. -/

namespace Sys2Proof.Machine

/-! ### The queue of flag writes -/

@[simp] theorem flagAfter_nil (held : Option Nat) : flagAfter [] held = held := rfl
@[simp] theorem inFlight_nil : inFlight [] = [] := rfl

/-- Writes whose delay is over have all landed, the last one last. -/
theorem landed_of_zero {q : List FlagWrite} (h : ∀ w ∈ q, w.delay = 0) :
    landed q = q ∧ inFlight q = [] := by
  have hb : ∀ w ∈ q, (w.delay == 0) = true := fun w hw => by simp [h w hw]
  exact ⟨List.takeWhile_eq_self_iff.2 hb, by
    unfold inFlight; rw [List.dropWhile_eq_nil_iff.2 hb]; rfl⟩

/-- A write whose delay is not over keeps the last place in the queue, one instant nearer; every
delay has gone down by one at least. -/
theorem inFlight_last {q : List FlagWrite} {w : FlagWrite} (h : (inFlight (q ++ [w])) ≠ []) :
    ∃ q', inFlight (q ++ [w]) = q' ++ [{ w with delay := w.delay - 1 }] ∧
      ∀ x ∈ q' ++ [{ w with delay := w.delay - 1 }], ∃ y ∈ q ++ [w], x.delay = y.delay - 1 := by
  have hd : (q ++ [w]).dropWhile (fun x => x.delay == 0) ≠ [] := fun e => h (by
    unfold inFlight; rw [e]; rfl)
  obtain ⟨r, hr⟩ : ∃ r, (q ++ [w]).dropWhile (fun x => x.delay == 0) = r ++ [w] := by
    rw [List.dropWhile_append] at hd ⊢
    split at hd
    · rw [if_pos ‹_›]
      cases hw : w.delay == 0 with
      | true => simp [List.dropWhile, hw] at hd
      | false => exact ⟨[], by simp [List.dropWhile, hw]⟩
    · rw [if_neg ‹_›]; exact ⟨_, rfl⟩
  refine ⟨r.map fun x => { x with delay := x.delay - 1 }, by simp [inFlight, hr], ?_⟩
  intro x hx
  have hx : x ∈ (r ++ [w]).map fun x => { x with delay := x.delay - 1 } := by simpa using hx
  obtain ⟨y, hy, rfl⟩ := List.mem_map.1 hx
  exact ⟨y, (List.dropWhile_suffix _).subset (hr ▸ hy), rfl⟩

/-- When nothing of a queue with a last write is in flight any more, the flag holds that write. -/
theorem flagAfter_last {q : List FlagWrite} {w : FlagWrite} (h : inFlight (q ++ [w]) = [])
    (held : Option Nat) : flagAfter (q ++ [w]) held = some w.value := by
  have hd : (q ++ [w]).dropWhile (fun x => x.delay == 0) = [] := by
    simpa [inFlight] using h
  have hl : landed (q ++ [w]) = q ++ [w] := by
    unfold landed
    exact List.takeWhile_eq_self_iff.2 (List.dropWhile_eq_nil_iff.1 hd)
  simp [flagAfter, hl]

/-! ### What every step does to the environment -/

/-- Every step lets one instant pass: the inputs move on, writes of the second task come nearer or land
in the flag, which otherwise keeps its value but for the end of the selection made for it. -/
theorem step_passes {s t : State} (h : step s = .next t) :
    t.env.inputs = s.env.inputs.tail ∧ t.env.time = s.env.time + 1 ∧
    t.env.flagWrites = inFlight s.flagQueue ∧
    t.reselect = flagAfter s.flagQueue
      (if s.bcc.stage = .running then
        (match s.bcc.phase, s.bcc.point with
        | .released, .loading _ 0 => none
        | _, _ => s.reselect)
      else s.reselect) := by
  have key : ∀ {u : State} {held : Option Nat}, u.env.inputs = s.env.inputs →
      u.env.time = s.env.time → u.env.flagWrites = s.env.flagWrites → u.reselect = held →
      (advance u).env.inputs = s.env.inputs.tail ∧ (advance u).env.time = s.env.time + 1 ∧
      (advance u).env.flagWrites = inFlight s.flagQueue ∧
      (advance u).reselect = flagAfter s.flagQueue held := by
    rintro u held h1 h2 h3 rfl
    have hq := flagQueue_of_env h1 h2 h3
    simp [hq, h1, h2]
  by_cases hr : s.bcc.stage = .running
  · rw [if_pos hr]
    obtain ⟨u, hu, rfl⟩ := running_step hr h
    cases hu with
    | served st hp =>
      refine key ?_ ?_ ?_ ?_
      · split <;> rfl
      · split <;> rfl
      · split <;> rfl
      · rcases hp with e | ⟨v, e⟩ <;> rw [e] <;> split <;> rfl
    | beginSelect n hp ht hn => exact key rfl rfl rfl (by rw [hp, ht]; rfl)
    | waitSelect n k hp ht => exact key rfl rfl rfl (by rw [hp, ht]; rfl)
    | waitCall c k hp ht => exact key rfl rfl rfl (by rcases ht with ht | ht <;> rw [hp, ht] <;> rfl)
    | select n hp ht =>
      obtain ⟨-, -, -, -, h5, h6, -⟩ :=
        selectIndex_same (toPoint .sampling { s with reselect := none }) n
      exact key (by rw [h6]; rfl) (by rw [h6]; rfl) (by rw [h6]; rfl) (by rw [h5, hp, ht]; rfl)
    | beginCall hp hs hc =>
      exact key rfl rfl rfl (by rcases hs with ht | ⟨ht, -⟩ <;> rw [hp, ht] <;> rfl)
    | returnCall c u hp ht hu =>
      have f := exec_cycle_frame hu
      exact key f.inputs f.time f.flagWrites (by rw [f.reselect, hp, ht]; rfl)
    | cycle u hp hs hc hu =>
      have f := exec_cycle_frame hu
      exact key f.inputs f.time f.flagWrites
        (by rcases hs with ht | ⟨ht, -⟩ <;> rw [f.reselect, hp, ht] <;> rfl)
  · rw [if_neg hr]
    rcases boot_step_cases hr h with ⟨-, rfl⟩ | ⟨n, rest, -, -, rfl⟩ | ⟨-, -, rfl⟩
    · exact key rfl rfl rfl rfl
    · obtain ⟨-, -, -, -, h5, h6, -⟩ :=
        selectIndex_same { s with env := { s.env with bootSelects := rest } } n
      exact key (by rw [h6]) (by rw [h6]) (by rw [h6]) h5
    · exact key rfl rfl rfl rfl

/-! ### What a cycle does not look at -/

/-- The same state at another point of the loop, at another instant, with another sample noted. -/
def State.elsewhere (s : State) (p : LoopPoint) (inputs : List Instant) (time : Nat)
    (sampled : Option BusCycle) : State :=
  { s with
    bcc := { s.bcc with point := p }, env := { s.env with inputs := inputs, time := time }
    record := { s.record with sampled := sampled } }

/-- The same state with another level of the wait output. -/
def State.withWait (s : State) (w : Bool) : State := { s with bcc := { s.bcc with wait := w } }

section
variable (s : State) (p : LoopPoint) (inp : List Instant) (n : Nat) (smp : Option BusCycle)

theorem sectorRead_elsewhere (i : Word) :
    sectorRead i (s.elsewhere p inp n smp) = (sectorRead i s).elsewhere p inp n smp := by
  unfold sectorRead
  rw [show (s.elsewhere p inp n smp).nextReply = s.nextReply from rfl]
  cases s.nextReply.status <;> rfl

theorem opcodeByte_elsewhere (v : Byte) :
    opcodeByte v (s.elsewhere p inp n smp) = (opcodeByte v s).elsewhere p inp n smp := by
  have hb : ∀ f, onBridge f (s.elsewhere p inp n smp) = (onBridge f s).elsewhere p inp n smp :=
    fun _ => rfl
  rcases opcode_cases v with ⟨-, ho⟩ | ⟨-, ho⟩ | ⟨-, ho⟩ | ⟨-, ho⟩ | ⟨-, ho⟩ | ⟨-, ho⟩ | ⟨-, ho⟩ |
    ⟨-, ho⟩ | ⟨-, ho⟩ <;> rw [ho]
  case inr.inr.inr.inr.inr.inr.inl =>
    unfold readNextCommand
    dsimp only
    rw [hb, sectorRead_elsewhere]
    rfl
  all_goals rfl

theorem ctlWrite_elsewhere (v : Byte) :
    ctlWrite v (s.elsewhere p inp n smp) = (ctlWrite v s).elsewhere p inp n smp := by
  unfold ctlWrite
  rw [show (s.elsewhere p inp n smp).bridge = s.bridge from rfl]
  split
  · rfl
  · split
    · exact sectorRead_elsewhere ..
    · exact opcodeByte_elsewhere ..
  all_goals exact opcodeByte_elsewhere ..

theorem datWrite_elsewhere (v : Byte) :
    datWrite v (s.elsewhere p inp n smp) = (datWrite v s).elsewhere p inp n smp := by
  by_cases h0 : s.bridge.bytesPendingIn = 0#16
  · rw [datWrite_idle h0, datWrite_idle (by exact h0)]; rfl
  · by_cases h1 : s.bridge.bytesPendingIn = 1#16
    · rw [datWrite_last h1, datWrite_last (by exact h1), commitSector_eq, commitSector_eq]; rfl
    · rw [datWrite_store h0 h1, datWrite_store (by exact h0) (by exact h1)]; rfl

theorem datRead_elsewhere :
    datRead (s.elsewhere p inp n smp) = (datRead s).elsewhere p inp n smp := by
  unfold datRead
  rw [show (s.elsewhere p inp n smp).bridge = s.bridge from rfl]
  split <;> rfl

theorem mapperRead_elsewhere (a : Half) :
    mapperRead a (s.elsewhere p inp n smp) = (mapperRead a s).elsewhere p inp n smp := by
  unfold mapperRead
  rw [show (s.elsewhere p inp n smp).cfg = s.cfg from rfl]
  cases s.cfg with
  | none => rfl
  | some c =>
    dsimp only
    rw [show (s.elsewhere p inp n smp).mappedByte c a = s.mappedByte c a from rfl]
    cases s.mappedByte c a <;> rfl

theorem mapperWrite_elsewhere (a : Half) (d : Byte) :
    mapperWrite a d (s.elsewhere p inp n smp) = (mapperWrite a d s).elsewhere p inp n smp := by
  unfold mapperWrite
  rw [show (s.elsewhere p inp n smp).cfg = s.cfg from rfl,
    show (s.elsewhere p inp n smp).params = s.params from rfl]
  cases s.cfg with
  | none => rfl
  | some c => dsimp only; cases triggerRegister s.params.konamiWide c.kind a <;> rfl

/-- A cycle looks at neither the loop, the clock nor the record, and does not touch them. -/
theorem exec_cycle_elsewhere (c : BusCycle) : exec (decodeCycle c) (s.elsewhere p inp n smp) =
    mapNext (fun t => t.elsewhere p inp n smp) (exec (decodeCycle c) s) := by
  have hp : (s.elsewhere p inp n smp).params = s.params := rfl
  rcases decodeCycle_cases c with ⟨-, cs, io, a, d, he | he⟩ | ⟨-, -, -, he⟩ | ⟨-, -, -, he⟩ |
    ⟨-, -, -, -, he⟩ | ⟨-, -, -, -, he⟩ | ⟨-, -, -, he⟩ <;> rw [he]
  · rfl
  · rfl
  · simp only [exec, execIord, mapNext, datRead_elsewhere, hp]
    split
    · rfl
    · split <;> rfl
  · simp only [exec, execIowr, mapNext, ctlWrite_elsewhere, datWrite_elsewhere, hp]
    split
    · rfl
    · split <;> rfl
  · simp only [exec, execMemrd, mapNext, mapperRead_elsewhere]
    split
    · rename_i h; rw [if_pos (by exact h)]
    · rename_i h; rw [if_neg (by exact h)]
  · simp only [exec, execMemwr, mapNext, mapperWrite_elsewhere]
    split
    · rename_i h; rw [if_pos (by exact h)]; rfl
    · rename_i h; rw [if_neg (by exact h)]
  · rfl

theorem sectorRead_withWait (w : Bool) (i : Word) : sectorRead i (s.withWait w) = sectorRead i s := by
  unfold sectorRead; rw [callDriver_eq, callDriver_eq]; rfl

theorem opcodeByte_withWait {v : Byte} (h : (callOfInstr s (decodeOpcode v)).isSome = true)
    (w : Bool) : opcodeByte v (s.withWait w) = opcodeByte v s := by
  have hb : ∀ f, onBridge f (s.withWait w) = (onBridge f s).withWait w := fun _ => rfl
  rcases opcode_cases v with ⟨hd, ho⟩ | ⟨hd, ho⟩ | ⟨hd, ho⟩ | ⟨hd, ho⟩ | ⟨hd, ho⟩ | ⟨hd, ho⟩ |
    ⟨hd, ho⟩ | ⟨hd, ho⟩ | ⟨hd, ho⟩ <;> rw [hd] at h <;> try (simp [callOfInstr] at h; done)
  all_goals rw [ho]
  · unfold initCommand statusCommand; rw [callDriver_eq, callDriver_eq]; rfl
  · unfold presentCommand statusCommand; rw [callDriver_eq, callDriver_eq]; rfl
  · unfold getCapacityCommand; rw [callDriver_eq, callDriver_eq]; rfl
  · unfold readNextCommand
    dsimp only
    rw [hb, sectorRead_withWait]
    rfl

/-- A cycle that calls the driver leaves the wait output as the call leaves it, whatever it was. -/
theorem exec_cycle_withWait {c : BusCycle} (h : (s.callOf c).isSome = true) (w : Bool) :
    exec (decodeCycle c) (s.withWait w) = exec (decodeCycle c) s := by
  unfold State.callOf at h
  rcases decodeCycle_cases c with ⟨-, cs, io, a, d, he | he⟩ | ⟨-, -, -, he⟩ | ⟨-, -, -, he⟩ |
    ⟨-, -, -, -, he⟩ | ⟨-, -, -, -, he⟩ | ⟨-, -, -, he⟩ <;> rw [he] at h ⊢ <;>
    try (simp at h; done)
  dsimp only at h
  simp only [exec, execIowr, show (s.withWait w).params = s.params from rfl]
  split at h
  · rename_i hc
    rw [if_pos hc, if_pos hc]
    replace h : (callOfInstr s (decodeCommand (positionOf s.bridge.phase) c.data)).isSome = true := h
    congr 2
    unfold ctlWrite
    rw [show (s.withWait w).bridge = s.bridge from rfl]
    cases hp : s.bridge.phase with
    | awaitAddr k => simp [hp, positionOf, decodeCommand, callOfInstr] at h
    | awaitGo =>
      rw [hp] at h
      simp only [positionOf, decodeCommand] at h
      dsimp only
      split at h
      · rename_i hv
        rw [if_pos hv, if_pos hv]; exact sectorRead_withWait s w _
      · rename_i hv
        rw [if_neg hv, if_neg hv, opcodeByte_withWait s h]
    | idle | xferRead | xferWrite =>
      rw [hp] at h
      exact opcodeByte_withWait s h w
  · rename_i hc
    rw [if_neg hc, if_neg hc]
    split at h
    · rename_i hd
      rw [if_pos hd.1, if_pos hd.1, datWrite_last hd.2, datWrite_last (by exact hd.2),
        commitSector_eq, commitSector_eq]
      rfl
    · simp at h

end

/-! ### Several steps -/

/-- Steps, and then more steps. -/
theorem runSteps_add {m : Nat} {s t : State} (h : runSteps m s = .next t) (n : Nat) :
    runSteps (m + n) s = runSteps n t := by
  induction m generalizing s with
  | zero => simp [runSteps] at h; simp [h]
  | succ m ih =>
    rw [show m + 1 + n = (m + n) + 1 by omega]
    simp only [runSteps] at h ⊢
    cases hs : step s with
    | next u => rw [hs] at h; exact ih h
    | fault r => rw [hs] at h; cases h
    | refused r => rw [hs] at h; cases h

/-- While a driver call lasts only the wait output, the loop and the clock change. -/
theorem step_waitCall {s : State} {c : BusCycle} {k : Nat} (hr : s.bcc.stage = .running)
    (hp : s.bcc.phase = .released)
    (ht : s.bcc.point = .sampled c k ∨ s.bcc.point = .calling c (k + 1))
    (hf : s.env.flagWrites = []) (hn : s.now.flagWrite = none) :
    step s = .next ((s.elsewhere (.calling c k) s.env.inputs.tail (s.env.time + 1)
      s.record.sampled).withWait s.params.useWait) := by
  have h : step s = mapNext advance (exec (.wait true) (toPoint (.calling c k) s)) := by
    unfold step State.nextInstr State.prepare
    rcases ht with ht | ht <;> simp [hr, hp, ht]
  rw [h]
  simp only [exec, execWait, mapNext_next]
  congr 1
  have hq : (setWait true (toPoint (.calling c k) s)).flagQueue = [] := by
    show s.env.flagWrites ++ s.now.flagWrite.toList = []
    rw [hf, hn]; rfl
  unfold advance
  rw [hq]
  simp only [flagAfter_nil, inFlight_nil, State.withWait, State.elsewhere, setWait, toPoint,
    State.waitCondition, Bool.true_or, Bool.and_true]
  congr 1
  simp [hf]

end Sys2Proof.Machine
end

