-- ==== Sys2Proof/Laws/PerInstr.lean ====
section
/-! SUPPORT. The family `Row`: the encoding of every operation fits the match and mask that
spec/opcode_table.json gives its row, in every context in which the row applies. One lemma for each
constructor of `Instr`. -/

namespace Sys2Proof.Laws.Row

open Sys2Proof Sys2Proof.Machine

/-- A well-formed operation's encoding fits its row of the opcode table. -/
def Statement (i : Instr) : Prop :=
  ∀ ctx : Ctx, i.wellFormed = true → rowApplies ctx i = true →
    (tablePattern ctx i).fits (encode ctx i)

/-! ### Shared lemmas -/

/-- A cycle's word under a mask over the control bits only. -/
theorem control_fits {c : BusCycle} {m v : BitVec 28} (hm : ∀ i < 24, m.getLsbD i = false)
    (hv : ∀ i < 24, v.getLsbD i = false) (h0 : (c.isWrite && m.getLsbD 24) = v.getLsbD 24)
    (h1 : (c.isRead && m.getLsbD 25) = v.getLsbD 25)
    (h2 : (c.ioRequest && m.getLsbD 26) = v.getLsbD 26)
    (h3 : (c.chipSelected && m.getLsbD 27) = v.getLsbD 27) : busWord c &&& m = v := by
  refine BitVec.eq_of_getLsbD_eq fun i hi => ?_
  rw [BitVec.getLsbD_and, busWord_getLsbD]
  by_cases hl : i < 24
  · rw [hm i hl, hv i hl, Bool.and_false]
  · obtain rfl | rfl | rfl | rfl : i = 24 ∨ i = 25 ∨ i = 26 ∨ i = 27 := by omega
    · simpa using h0
    · simpa using h1
    · simpa using h2
    · simpa using h3

/-- A cycle's word under a mask over control and address bits. -/
theorem address_fits {c : BusCycle} {m v : BitVec 28} {am av : Half} (ha : c.address &&& am = av)
    (hd : ∀ i < 8, m.getLsbD i = false ∧ v.getLsbD i = false)
    (hm : ∀ i < 16, m.getLsbD (8 + i) = am.getLsbD i)
    (hv : ∀ i < 16, v.getLsbD (8 + i) = av.getLsbD i)
    (h0 : (c.isWrite && m.getLsbD 24) = v.getLsbD 24)
    (h1 : (c.isRead && m.getLsbD 25) = v.getLsbD 25)
    (h2 : (c.ioRequest && m.getLsbD 26) = v.getLsbD 26)
    (h3 : (c.chipSelected && m.getLsbD 27) = v.getLsbD 27) : busWord c &&& m = v := by
  refine BitVec.eq_of_getLsbD_eq fun i hi => ?_
  rw [BitVec.getLsbD_and, busWord_getLsbD]
  by_cases hl : i < 8
  · rw [(hd i hl).1, (hd i hl).2, Bool.and_false]
  · by_cases hl2 : i - 8 < 16
    · rw [if_neg hl, if_pos hl2]
      have e : i = 8 + (i - 8) := by omega
      rw [e, hm _ hl2, hv _ hl2, ← ha, BitVec.getLsbD_and, Nat.add_sub_cancel_left]
    · obtain rfl | rfl | rfl | rfl : i = 24 ∨ i = 25 ∨ i = 26 ∨ i = 27 := by omega
      · simpa using h0
      · simpa using h1
      · simpa using h2
      · simpa using h3

/-- The address bits above the low 11 name the 2 KB block an address lies in. -/
theorem block_of_range {a : Half} (q : Nat) (h : a.toNat / 2048 = q) :
    a &&& 0xF800#16 = BitVec.ofNat 16 q <<< 11 := by
  have e : a >>> 11 = BitVec.ofNat 16 q := by
    apply BitVec.eq_of_toNat_eq
    rw [BitVec.toNat_ushiftRight, Nat.shiftRight_eq_div_pow, BitVec.toNat_ofNat]
    have := a.isLt
    omega
  rw [← e]
  ext i hi
  interval_cases i <;> simp

/-- The address bits above the low 13 name the 8 KB block an address lies in. -/
theorem wide_block_of_range {a : Half} (q : Nat) (h : a.toNat / 8192 = q) :
    a &&& 0xE000#16 = BitVec.ofNat 16 q <<< 13 := by
  have e : a >>> 13 = BitVec.ofNat 16 q := by
    apply BitVec.eq_of_toNat_eq
    rw [BitVec.toNat_ushiftRight, Nat.shiftRight_eq_div_pow, BitVec.toNat_ofNat]
    have := a.isLt
    omega
  rw [← e]
  ext i hi
  interval_cases i <;> simp

/-- A trigger row's word fits its pattern once the address is in the row's block. -/
theorem trigger_fits {a : Half} {d : Byte} {m v : BitVec 28} {am av : Half} (ha : a &&& am = av)
    (hm : (∀ i < 8, m.getLsbD i = false ∧ v.getLsbD i = false) ∧
      (∀ i < 16, m.getLsbD (8 + i) = am.getLsbD i) ∧
      (∀ i < 16, v.getLsbD (8 + i) = av.getLsbD i) ∧
      m.getLsbD 24 = true ∧ v.getLsbD 24 = true ∧ v.getLsbD 25 = false ∧ v.getLsbD 26 = false ∧
      m.getLsbD 27 = true ∧ v.getLsbD 27 = true) :
    (Pattern.bus28 m v).fits (some (writeCode a d)) := by
  obtain ⟨h1, h2, h3, h4, h5, h6, h7, h8, h9⟩ := hm
  exact address_fits (am := am) (av := av) ha h1 h2 h3 (by rw [h4, h5]; rfl) (by rw [h6]; rfl)
    (by rw [h7]; rfl) (by rw [h8, h9]; rfl)

/-- A port row's word fits its pattern, whatever the port. -/
theorem port_fits (cs rd : Bool) (hi port d : Byte) {m v : BitVec 28}
    (hm : m = 0x700FF00#28)
    (hv : v = (if rd then 0x6000000#28 else 0x5000000#28) ||| (port.setWidth 28 <<< 8)) :
    (Pattern.bus28 m v).fits (some (busCode cs true rd (!rd) (ioAddress hi port) d)) := by
  subst hm hv
  have ha : ioAddress hi port &&& 0x00FF#16 = port.setWidth 16 := by
    refine BitVec.eq_of_getLsbD_eq fun i hi' => ?_
    rw [BitVec.getLsbD_and]
    refine (congrArg (· && _) (BitVec.getLsbD_append (x := hi) (y := port))).trans ?_
    rw [BitVec.getLsbD_setWidth]
    interval_cases i <;> simp [BitVec.getLsbD_of_ge]
  refine address_fits (am := 0x00FF#16) (av := port.setWidth 16) ha ?_ ?_ ?_ ?_ ?_ ?_ ?_
  · intro i hi'
    rw [BitVec.getLsbD_or, BitVec.getLsbD_shiftLeft]
    interval_cases i <;> cases rd <;> simp
  · decide
  · intro i hi'
    rw [BitVec.getLsbD_or, BitVec.getLsbD_shiftLeft, BitVec.getLsbD_setWidth,
      BitVec.getLsbD_setWidth]
    interval_cases i <;> cases rd <;> simp [BitVec.getLsbD_of_ge]
  all_goals
    rw [BitVec.getLsbD_or, BitVec.getLsbD_shiftLeft, BitVec.getLsbD_setWidth]
    cases rd <;> simp [BitVec.getLsbD_of_ge]

/-- A record row's byte 20 is its mapper code. -/
theorem record_fits (k : MapperKind) {name : List Byte} (h : wellFormedName name = true)
    (size offset : Word) {v : Byte} (hv : v = kindCode k) :
    (Pattern.map8 0xFF#8 v).fits (some (recordCode k name size offset)) := by
  simp only [wellFormedName, beq_iff_eq] at h
  obtain ⟨h1, h2⟩ := recordOfBytes_bytesOfRecord
    { name := name, mapper := kindCode k, size := size, offset := offset } h
  refine ⟨h2, ?_⟩
  have h3 := congrArg RomRecord.mapper h1
  simp only [recordOfBytes] at h3
  rw [h3, hv]
  cases k <;> rfl

/-! ### One lemma for each constructor -/

theorem sample : Statement (.sample) := by
  intro _ _ _; trivial

theorem drive (value : Byte) : Statement (.drive value) := by
  intro _ _ _; trivial

theorem poll (strobe : Strobe) : Statement (.poll strobe) := by
  intro _ _ _; trivial

theorem release : Statement (.release) := by
  intro _ _ _; trivial

theorem hold : Statement (.hold) := by
  intro _ _ _; trivial

theorem wait (busy : Bool) : Statement (.wait busy) := by
  intro _ _ _; trivial

theorem memrd (address : Half) (data : Byte) : Statement (.memrd address data) := by
  intro _ _ _; exact control_fits (by decide) (by decide) (by simp) (by simp) (by simp) (by simp)

theorem memwr (address : Half) (data : Byte) : Statement (.memwr address data) := by
  intro _ _ _; exact control_fits (by decide) (by decide) (by simp) (by simp) (by simp) (by simp)

theorem iord (chipSelected : Bool) (address : Half) (data : Byte) :
    Statement (.iord chipSelected address data) := by
  intro _ _ _; exact control_fits (by decide) (by decide) (by simp) (by simp) (by simp) (by simp)

theorem iowr (chipSelected : Bool) (address : Half) (data : Byte) :
    Statement (.iowr chipSelected address data) := by
  intro _ _ _; exact control_fits (by decide) (by decide) (by simp) (by simp) (by simp) (by simp)

theorem nostb (chipSelected : Bool) (ioRequest : Bool) (address : Half) (data : Byte) :
    Statement (.nostb chipSelected ioRequest address data) := by
  intro _ _ _; exact control_fits (by decide) (by decide) (by simp) (by simp) (by simp) (by simp)

theorem both (chipSelected : Bool) (ioRequest : Bool) (address : Half) (data : Byte) :
    Statement (.both chipSelected ioRequest address data) := by
  intro _ _ _; exact control_fits (by decide) (by decide) (by simp) (by simp) (by simp) (by simp)

theorem nosel (isRead : Bool) (address : Half) (data : Byte) :
    Statement (.nosel isRead address data) := by
  intro _ _ _; exact control_fits (by decide) (by decide) (by simp) (by simp) (by simp) (by simp)

theorem rdPlain16 (address : Half) (data : Byte) : Statement (.rdPlain16 address data) := by
  intro _ _ _; exact control_fits (by decide) (by decide) (by simp) (by simp) (by simp) (by simp)

theorem rdPlain32 (address : Half) (data : Byte) : Statement (.rdPlain32 address data) := by
  intro _ _ _; exact control_fits (by decide) (by decide) (by simp) (by simp) (by simp) (by simp)

theorem rdLinear0 (address : Half) (data : Byte) : Statement (.rdLinear0 address data) := by
  intro _ _ _; exact control_fits (by decide) (by decide) (by simp) (by simp) (by simp) (by simp)

theorem rdKonamiScc (address : Half) (data : Byte) : Statement (.rdKonamiScc address data) := by
  intro _ _ _; exact control_fits (by decide) (by decide) (by simp) (by simp) (by simp) (by simp)

theorem rdKonami (address : Half) (data : Byte) : Statement (.rdKonami address data) := by
  intro _ _ _; exact control_fits (by decide) (by decide) (by simp) (by simp) (by simp) (by simp)

theorem rdAscii8 (address : Half) (data : Byte) : Statement (.rdAscii8 address data) := by
  intro _ _ _; exact control_fits (by decide) (by decide) (by simp) (by simp) (by simp) (by simp)

theorem rdAscii16 (address : Half) (data : Byte) : Statement (.rdAscii16 address data) := by
  intro _ _ _; exact control_fits (by decide) (by decide) (by simp) (by simp) (by simp) (by simp)

theorem bankKonamiScc0 (address : Half) (data : Byte) :
    Statement (.bankKonamiScc0 address data) := by
  intro _ h _
  simp only [Instr.wellFormed, wellFormedTrigger, triggerRegister_konamiScc, Bool.or_self, beq_iff_eq] at h
  exact trigger_fits (block_of_range 10 (by split_ifs at h <;> simp at h; omega)) (by decide)

theorem bankKonamiScc1 (address : Half) (data : Byte) :
    Statement (.bankKonamiScc1 address data) := by
  intro _ h _
  simp only [Instr.wellFormed, wellFormedTrigger, triggerRegister_konamiScc, Bool.or_self, beq_iff_eq] at h
  exact trigger_fits (block_of_range 14 (by split_ifs at h <;> simp at h; omega)) (by decide)

theorem bankKonamiScc2 (address : Half) (data : Byte) :
    Statement (.bankKonamiScc2 address data) := by
  intro _ h _
  simp only [Instr.wellFormed, wellFormedTrigger, triggerRegister_konamiScc, Bool.or_self, beq_iff_eq] at h
  exact trigger_fits (block_of_range 18 (by split_ifs at h <;> simp at h; omega)) (by decide)

theorem bankKonamiScc3 (address : Half) (data : Byte) :
    Statement (.bankKonamiScc3 address data) := by
  intro _ h _
  simp only [Instr.wellFormed, wellFormedTrigger, triggerRegister_konamiScc, Bool.or_self, beq_iff_eq] at h
  exact trigger_fits (block_of_range 22 (by split_ifs at h <;> simp at h; omega)) (by decide)

theorem bankKonami1 (address : Half) (data : Byte) : Statement (.bankKonami1 address data) := by
  intro ctx _ h
  simp only [rowApplies, triggerSelected, Bool.and_eq_true, triggerRegister_konami, beq_iff_eq] at h
  obtain ⟨-, h⟩ := h
  simp only [tablePattern, encode]
  cases hw : ctx.konamiWide <;> simp only [hw, Bool.false_eq_true, if_true, if_false] at h ⊢
  · exact trigger_fits (block_of_range 12 (by split_ifs at h <;> simp at h; omega)) (by decide)
  · exact trigger_fits (wide_block_of_range 3 (by split_ifs at h <;> simp at h; omega)) (by decide)

theorem bankKonami2 (address : Half) (data : Byte) : Statement (.bankKonami2 address data) := by
  intro ctx _ h
  simp only [rowApplies, triggerSelected, Bool.and_eq_true, triggerRegister_konami, beq_iff_eq] at h
  obtain ⟨-, h⟩ := h
  simp only [tablePattern, encode]
  cases hw : ctx.konamiWide <;> simp only [hw, Bool.false_eq_true, if_true, if_false] at h ⊢
  · exact trigger_fits (block_of_range 16 (by split_ifs at h <;> simp at h; omega)) (by decide)
  · exact trigger_fits (wide_block_of_range 4 (by split_ifs at h <;> simp at h; omega)) (by decide)

theorem bankKonami3 (address : Half) (data : Byte) : Statement (.bankKonami3 address data) := by
  intro ctx _ h
  simp only [rowApplies, triggerSelected, Bool.and_eq_true, triggerRegister_konami, beq_iff_eq] at h
  obtain ⟨-, h⟩ := h
  simp only [tablePattern, encode]
  cases hw : ctx.konamiWide <;> simp only [hw, Bool.false_eq_true, if_true, if_false] at h ⊢
  · exact trigger_fits (block_of_range 20 (by split_ifs at h <;> simp at h; omega)) (by decide)
  · exact trigger_fits (wide_block_of_range 5 (by split_ifs at h <;> simp at h; omega)) (by decide)

theorem bankAscii80 (address : Half) (data : Byte) : Statement (.bankAscii80 address data) := by
  intro _ h _
  simp only [Instr.wellFormed, wellFormedTrigger, triggerRegister_ascii8, Bool.or_self, beq_iff_eq] at h
  exact trigger_fits (block_of_range 12 (by split_ifs at h <;> simp at h; omega)) (by decide)

theorem bankAscii81 (address : Half) (data : Byte) : Statement (.bankAscii81 address data) := by
  intro _ h _
  simp only [Instr.wellFormed, wellFormedTrigger, triggerRegister_ascii8, Bool.or_self, beq_iff_eq] at h
  exact trigger_fits (block_of_range 13 (by split_ifs at h <;> simp at h; omega)) (by decide)

theorem bankAscii82 (address : Half) (data : Byte) : Statement (.bankAscii82 address data) := by
  intro _ h _
  simp only [Instr.wellFormed, wellFormedTrigger, triggerRegister_ascii8, Bool.or_self, beq_iff_eq] at h
  exact trigger_fits (block_of_range 14 (by split_ifs at h <;> simp at h; omega)) (by decide)

theorem bankAscii83 (address : Half) (data : Byte) : Statement (.bankAscii83 address data) := by
  intro _ h _
  simp only [Instr.wellFormed, wellFormedTrigger, triggerRegister_ascii8, Bool.or_self, beq_iff_eq] at h
  exact trigger_fits (block_of_range 15 (by split_ifs at h <;> simp at h; omega)) (by decide)

theorem bankAscii160 (address : Half) (data : Byte) : Statement (.bankAscii160 address data) := by
  intro _ h _
  simp only [Instr.wellFormed, wellFormedTrigger, triggerRegister_ascii16, Bool.or_self, beq_iff_eq] at h
  exact trigger_fits (block_of_range 12 (by split_ifs at h <;> simp at h; omega)) (by decide)

theorem bankAscii161 (address : Half) (data : Byte) : Statement (.bankAscii161 address data) := by
  intro _ h _
  simp only [Instr.wellFormed, wellFormedTrigger, triggerRegister_ascii16, Bool.or_self, beq_iff_eq] at h
  exact trigger_fits (block_of_range 14 (by split_ifs at h <;> simp at h; omega)) (by decide)

theorem ctlrd (chipSelected : Bool) (addressHigh : Byte) (data : Byte) :
    Statement (.ctlrd chipSelected addressHigh data) := by
  intro _ _ _; exact port_fits _ true _ _ _ rfl rfl

theorem ctlwr (chipSelected : Bool) (addressHigh : Byte) (data : Byte) :
    Statement (.ctlwr chipSelected addressHigh data) := by
  intro _ _ _; exact port_fits _ false _ _ _ rfl rfl

theorem datrd (chipSelected : Bool) (addressHigh : Byte) (data : Byte) :
    Statement (.datrd chipSelected addressHigh data) := by
  intro _ _ _; exact port_fits _ true _ _ _ rfl rfl

theorem datwr (chipSelected : Bool) (addressHigh : Byte) (data : Byte) :
    Statement (.datwr chipSelected addressHigh data) := by
  intro _ _ _; exact port_fits _ false _ _ _ rfl rfl

theorem init : Statement (.init) := by
  intro _ _ _; exact (by decide : 0x01#8 &&& 0xFF#8 = 0x01#8)

theorem present : Statement (.present) := by
  intro _ _ _; exact (by decide : 0x02#8 &&& 0xFF#8 = 0x02#8)

theorem getid : Statement (.getid) := by
  intro _ _ _; exact (by decide : 0x03#8 &&& 0xFF#8 = 0x03#8)

theorem getser : Statement (.getser) := by
  intro _ _ _; exact (by decide : 0x04#8 &&& 0xFF#8 = 0x04#8)

theorem getcap : Statement (.getcap) := by
  intro _ _ _; exact (by decide : 0x05#8 &&& 0xFF#8 = 0x05#8)

theorem rdsec : Statement (.rdsec) := by
  intro _ _ _; exact (by decide : 0x06#8 &&& 0xFF#8 = 0x06#8)

theorem rdnext : Statement (.rdnext) := by
  intro _ _ _; exact (by decide : 0x07#8 &&& 0xFF#8 = 0x07#8)

theorem wrsec : Statement (.wrsec) := by
  intro _ _ _; exact (by decide : 0x08#8 &&& 0xFF#8 = 0x08#8)

theorem unrec (op : Byte) : Statement (.unrec op) := by
  intro _ h _
  exact (by simpa [Instr.wellFormed, wellFormedUnrec] using h : op.toNat = 0 ∨ 9 ≤ op.toNat)

theorem addr (value : Byte) : Statement (.addr value) := by
  intro _ _ _; exact (by simp : value &&& 0x00#8 = 0x00#8)

theorem go : Statement (.go) := by
  intro _ _ _; exact (by decide : 0x06#8 &&& 0xFF#8 = 0x06#8)

theorem stOk : Statement (.stOk) := by
  intro _ _ _; exact (by decide : 0x00#8 &&& 0xFF#8 = 0x00#8)

theorem stErr : Statement (.stErr) := by
  intro _ _ _; exact (by decide : 0xFF#8 &&& 0xFF#8 = 0xFF#8)

theorem kindPlain16 (name : List Byte) (size : Word) (offset : Word) :
    Statement (.kindPlain16 name size offset) := by
  intro _ h _; exact record_fits .plain16 h _ _ rfl

theorem kindPlain32 (name : List Byte) (size : Word) (offset : Word) :
    Statement (.kindPlain32 name size offset) := by
  intro _ h _; exact record_fits .plain32 h _ _ rfl

theorem kindKonamiScc (name : List Byte) (size : Word) (offset : Word) :
    Statement (.kindKonamiScc name size offset) := by
  intro _ h _; exact record_fits .konamiScc h _ _ rfl

theorem kindLinear0 (name : List Byte) (size : Word) (offset : Word) :
    Statement (.kindLinear0 name size offset) := by
  intro _ h _; exact record_fits .linear0 h _ _ rfl

theorem kindAscii8 (name : List Byte) (size : Word) (offset : Word) :
    Statement (.kindAscii8 name size offset) := by
  intro _ h _; exact record_fits .ascii8 h _ _ rfl

theorem kindAscii16 (name : List Byte) (size : Word) (offset : Word) :
    Statement (.kindAscii16 name size offset) := by
  intro _ h _; exact record_fits .ascii16 h _ _ rfl

theorem kindKonami (name : List Byte) (size : Word) (offset : Word) :
    Statement (.kindKonami name size offset) := by
  intro _ h _; exact record_fits .konami h _ _ rfl

theorem readtable (base : Nat) : Statement (.readtable base) := by
  intro _ _ _; trivial

theorem select (n : Nat) : Statement (.select n) := by
  intro _ _ _; trivial

end Sys2Proof.Laws.Row
end

