-- ==== Sys2Proof/Tests/Slice0.lean ====
section
/-! SUPPORT. The model's own tests. Expected values come from the spec: the words are written out bit
by bit from the tables of 30_encoding.md, the effects are those of 95_test_vectors.md (the vector's
name stands beside each). Then one witness for each statement that has hypotheses: concrete states
and operands that meet them together, at the ends of their ranges. -/

namespace Sys2Proof.Tests

open Sys2Proof.Machine

/-! ### Small states -/

/-- The parameter values of the vectors (95_test_vectors.md section 0). -/
def params : Params where
  portCtrl := 0x40#8
  portData := 0x41#8
  useWait := false
  busdirActiveLevel := true
  konamiWide := false
  bankInit := .identity
  storeCapacity := 0x400000
  fwSize := 0x1A000
  ctrlReset := 0xC7#8
  dataReset := 0xD9#8
  deviceId := 0x11223344#32
  deviceSerial := 0xCAFE0001#32

/-- A driver's answer, with the vectors' sector count and one byte throughout. -/
def answer (status : Status) (b : Byte) : Reply :=
  { status := status, data := Vector.replicate 512 b, count := 0x003B7800#32 }

/-- One instant with the given lines, a silent second task and the shortest calls. -/
def instant (c : BusCycle) : Instant := { lines := linesOfCycle c, flagWrite := none, busy := 0 }

/-- A cycle with nothing asserted. -/
def quiet : BusCycle :=
  { address := 0x0000#16, data := 0x00#8, isRead := false, isWrite := false, chipSelected := false,
    ioRequest := false }

/-- A memory cycle to the selected slot. -/
def memCycle (a : Half) (d : Byte) (write : Bool) : BusCycle :=
  { address := a, data := d, isRead := !write, isWrite := write, chipSelected := true,
    ioRequest := false }

/-- After reset, in the loop, with a buffer of zeros and a driver that answers `ok` once. -/
def fresh : State :=
  { State.resetWith params [] [] with
    bcc := { stage := .running, point := .top, phase := .released, wait := false }
    bridge := { (State.resetWith params [] []).bridge with blockBuffer := Vector.replicate 512 0#8 }
    env := { inputs := [instant quiet], time := 0, replies := [answer .ok 0xA5#8], draws := 0,
             bootSelects := [], flagWrites := [] } }

/-- The same with a driver that fails. -/
def failing : State := { fresh with env := { fresh.env with replies := [answer .err 0x00#8] } }

/-- With a selected image of which the listed bytes are known. -/
def image (k : MapperKind) (size : Word) (bank : List Byte) (bytes : Memory) : State :=
  { fresh with
    cfg := some { kind := k, baseOffset := 0#32, size := size }
    bank := bank
    rbs := { bytes := bytes, name := some (List.replicate 20 0x20#8) } }

/-- At a given instant. -/
def atInstant (c : BusCycle) (s : State) : State :=
  { s with env := { s.env with inputs := [instant c] } }

/-- With the controller in a given phase. -/
def inPhase (p : BccPhase) (s : State) : State := s.withPhase p

/-- With the bridge in a given phase, opcode, address and counts. -/
def inCommand (op : Byte) (p : StoragePhase) (sector : Word) (pin pout cur : Half) (s : State) :
    State :=
  s.withBridge { s.bridge with
    opcode := op, phase := p, sectorAddress := sector, bytesPendingIn := pin,
    bytesPendingOut := pout, cursor := cur }

/-- The next state. -/
def after (i : Instr) (s : State) : State :=
  match exec i s with
  | .next t => t
  | .fault _ | .refused _ => s

/-- `opcode / phase / sector / pending in / pending out / cursor / ctrl / data`, the vectors' tuple. -/
structure Tuple where
  op : Byte
  phase : StoragePhase
  sa : Word
  pin : Half
  pout : Half
  cur : Half
  ctrl : Byte
  data : Byte
deriving DecidableEq, Repr

/-- The tuple of a state. -/
def tuple (s : State) : Tuple where
  op := s.bridge.opcode
  phase := s.bridge.phase
  sa := s.bridge.sectorAddress
  pin := s.bridge.bytesPendingIn
  pout := s.bridge.bytesPendingOut
  cur := s.bridge.cursor
  ctrl := s.bridge.ctrlReg
  data := s.bridge.dataReg

/-- What a function shows of a next state. -/
def mapNextRows {α : Type} (f : State → α) (o : Host.Outcome State Fault Refusal) : Option α :=
  match o with
  | .next t => some (f t)
  | .fault _ | .refused _ => none

/-- The driver calls made, newest first, each with the wait output while it ran. -/
def calls (s : State) : List BlindWindow := s.record.blind

/-! ### Well-formedness: one ill-formed term for each check -/

theorem test_wellFormed_refuses_window :
    (Instr.rdPlain16 0x3FFF#16 0#8).wellFormed = false ∧
    (Instr.rdPlain32 0xC000#16 0#8).wellFormed = false ∧
    (Instr.rdLinear0 0xC000#16 0#8).wellFormed = false ∧
    (Instr.rdKonamiScc 0x3FFF#16 0#8).wellFormed = false ∧
    (Instr.rdKonami 0xC000#16 0#8).wellFormed = false ∧
    (Instr.rdAscii8 0x0000#16 0#8).wellFormed = false ∧
    (Instr.rdAscii16 0xFFFF#16 0#8).wellFormed = false ∧
    (Instr.rdLinear0 0x0000#16 0#8).wellFormed = true := by decide

theorem test_wellFormed_refuses_trigger :
    (Instr.bankKonamiScc0 0x5800#16 0#8).wellFormed = false ∧
    (Instr.bankKonamiScc1 0x6FFF#16 0#8).wellFormed = false ∧
    (Instr.bankKonamiScc2 0x8000#16 0#8).wellFormed = false ∧
    (Instr.bankKonamiScc3 0xB800#16 0#8).wellFormed = false ∧
    (Instr.bankKonami1 0x5FFF#16 0#8).wellFormed = false ∧
    (Instr.bankKonami2 0xA000#16 0#8).wellFormed = false ∧
    (Instr.bankKonami3 0xC000#16 0#8).wellFormed = false ∧
    (Instr.bankAscii80 0x6800#16 0#8).wellFormed = false ∧
    (Instr.bankAscii81 0x67FF#16 0#8).wellFormed = false ∧
    (Instr.bankAscii82 0x7800#16 0#8).wellFormed = false ∧
    (Instr.bankAscii83 0x8000#16 0#8).wellFormed = false ∧
    (Instr.bankAscii160 0x7000#16 0#8).wellFormed = false ∧
    (Instr.bankAscii161 0x7800#16 0#8).wellFormed = false ∧
    (Instr.bankKonami1 0x7FFF#16 0#8).wellFormed = true := by decide

theorem test_wellFormed_refuses_recognised_opcode :
    (Instr.unrec 0x01#8).wellFormed = false ∧ (Instr.unrec 0x08#8).wellFormed = false ∧
    (Instr.unrec 0x00#8).wellFormed = true ∧ (Instr.unrec 0x09#8).wellFormed = true := by decide

theorem test_wellFormed_refuses_short_name :
    (Instr.kindAscii8 [] 0x2000#32 0#32).wellFormed = false ∧
    (Instr.kindKonami (List.replicate 21 0#8) 0x2000#32 0#32).wellFormed = false ∧
    (Instr.kindPlain16 (List.replicate 20 0#8) 1#32 0#32).wellFormed = true := by decide

/-! ### Decoding: every row's word, bit by bit -/

/-- A context with one kind selected and the vectors' ports. -/
def ctxOf (k : Option MapperKind) (wide : Bool) (p : Position) : Ctx :=
  { kind := k, konamiWide := wide, portCtrl := 0x40#8, portData := 0x41#8, position := p }

/-- The table of rule R92, chip-select idle and asserted where it is not compared. -/
theorem test_decode_cycle_kinds :
    decodeBus 0b1010011000010010001100000000#28 = .memrd 0x6123#16 0x00#8 ∧
    decodeBus 0b1001011010000000000000000101#28 = .memwr 0x6800#16 0x05#8 ∧
    decodeBus 0b0110000000000100001000000000#28 = .iord false 0x0042#16 0x00#8 ∧
    decodeBus 0b1110000000000100001000000000#28 = .iord true 0x0042#16 0x00#8 ∧
    decodeBus 0b0101000000000100001011111111#28 = .iowr false 0x0042#16 0xFF#8 ∧
    decodeBus 0b1101000000000100001011111111#28 = .iowr true 0x0042#16 0xFF#8 ∧
    decodeBus 0b0000010000000000000000000000#28 = .nostb false false 0x4000#16 0x00#8 ∧
    decodeBus 0b0100010000000000000000000000#28 = .nostb false true 0x4000#16 0x00#8 ∧
    decodeBus 0b1000010000000000000000000000#28 = .nostb true false 0x4000#16 0x00#8 ∧
    decodeBus 0b1100010000000000000000000000#28 = .nostb true true 0x4000#16 0x00#8 ∧
    decodeBus 0b0011010000000000000000000000#28 = .both false false 0x4000#16 0x00#8 ∧
    decodeBus 0b0111010000000000000000000000#28 = .both false true 0x4000#16 0x00#8 ∧
    decodeBus 0b1011010000000000000000000000#28 = .both true false 0x4000#16 0x00#8 ∧
    decodeBus 0b1111010000000000000000000000#28 = .both true true 0x4000#16 0x00#8 ∧
    decodeBus 0b0010010000000000000000000000#28 = .nosel true 0x4000#16 0x00#8 ∧
    decodeBus 0b0001010000000000000000000000#28 = .nosel false 0x4000#16 0x00#8 := by decide

theorem test_decode_read_rows :
    decode (ctxOf (some .plain16) false .opcode) (.bus28 0b1010010000000000000000000000#28) =
      some (.rdPlain16 0x4000#16 0x00#8) ∧
    decode (ctxOf (some .plain32) false .opcode) (.bus28 0b1010101111111111111100000000#28) =
      some (.rdPlain32 0xBFFF#16 0x00#8) ∧
    decode (ctxOf (some .linear0) false .opcode) (.bus28 0b1010000000000000000000000000#28) =
      some (.rdLinear0 0x0000#16 0x00#8) ∧
    decode (ctxOf (some .konamiScc) false .opcode) (.bus28 0b1010100000000001000000000000#28) =
      some (.rdKonamiScc 0x8010#16 0x00#8) ∧
    decode (ctxOf (some .konami) false .opcode) (.bus28 0b1010011000000000000000000000#28) =
      some (.rdKonami 0x6000#16 0x00#8) ∧
    decode (ctxOf (some .ascii8) false .opcode) (.bus28 0b1010011000010010001100000000#28) =
      some (.rdAscii8 0x6123#16 0x00#8) ∧
    decode (ctxOf (some .ascii16) false .opcode) (.bus28 0b1010100000000000000000000000#28) =
      some (.rdAscii16 0x8000#16 0x00#8) ∧
    decode (ctxOf (some .ascii16) false .opcode) (.bus28 0b1010110000000000000000000000#28) =
      some (.memrd 0xC000#16 0x00#8) := by decide

/-- The patterns of rule R103, free address bits all 1 and all 0. -/
theorem test_decode_trigger_rows :
    decode (ctxOf (some .konamiScc) false .opcode) (.bus28 0b1001010101111111111100001111#28) =
      some (.bankKonamiScc0 0x57FF#16 0x0F#8) ∧
    decode (ctxOf (some .konamiScc) false .opcode) (.bus28 0b1001011100000000000000001111#28) =
      some (.bankKonamiScc1 0x7000#16 0x0F#8) ∧
    decode (ctxOf (some .konamiScc) false .opcode) (.bus28 0b1001100101111111111100001111#28) =
      some (.bankKonamiScc2 0x97FF#16 0x0F#8) ∧
    decode (ctxOf (some .konamiScc) false .opcode) (.bus28 0b1001101100000000000000001111#28) =
      some (.bankKonamiScc3 0xB000#16 0x0F#8) ∧
    decode (ctxOf (some .konami) false .opcode) (.bus28 0b1001011001111111111100000100#28) =
      some (.bankKonami1 0x67FF#16 0x04#8) ∧
    decode (ctxOf (some .konami) true .opcode) (.bus28 0b1001100111111111111100000100#28) =
      some (.bankKonami2 0x9FFF#16 0x04#8) ∧
    decode (ctxOf (some .konami) false .opcode) (.bus28 0b1001101000000000000000000100#28) =
      some (.bankKonami3 0xA000#16 0x04#8) ∧
    decode (ctxOf (some .ascii8) false .opcode) (.bus28 0b1001011001111111111100000101#28) =
      some (.bankAscii80 0x67FF#16 0x05#8) ∧
    decode (ctxOf (some .ascii8) false .opcode) (.bus28 0b1001011010000000000000000101#28) =
      some (.bankAscii81 0x6800#16 0x05#8) ∧
    decode (ctxOf (some .ascii8) false .opcode) (.bus28 0b1001011101111111111100000101#28) =
      some (.bankAscii82 0x77FF#16 0x05#8) ∧
    decode (ctxOf (some .ascii8) false .opcode) (.bus28 0b1001011110000000000000000101#28) =
      some (.bankAscii83 0x7800#16 0x05#8) ∧
    decode (ctxOf (some .ascii16) false .opcode) (.bus28 0b1001011000000000000000000011#28) =
      some (.bankAscii160 0x6000#16 0x03#8) ∧
    decode (ctxOf (some .ascii16) false .opcode) (.bus28 0b1001011101111111111100000011#28) =
      some (.bankAscii161 0x77FF#16 0x03#8) := by decide

/-- The words of 95_test_vectors.md section 2.2: `IR CTL`, `IW CTL,06`, `IR DAT`, `IW DAT,5A`. -/
theorem test_decode_port_rows :
    decode (ctxOf none false .opcode) (.bus28 0b0110000000000100000000000000#28) =
      some (.ctlrd false 0x00#8 0x00#8) ∧
    decode (ctxOf none false .opcode) (.bus28 0b1101000000000100000000000110#28) =
      some (.ctlwr true 0x00#8 0x06#8) ∧
    decode (ctxOf none false .opcode) (.bus28 0b0110000000000100000100000000#28) =
      some (.datrd false 0x00#8 0x00#8) ∧
    decode (ctxOf none false .opcode) (.bus28 0b0101000000000100000101011010#28) =
      some (.datwr false 0x00#8 0x5A#8) ∧
    decode (ctxOf none false .opcode) (.bus28 0b0101000100100100000000000001#28) =
      some (.ctlwr false 0x12#8 0x01#8) := by decide

theorem test_decode_command_bytes :
    decodeCommand .opcode 0b00000000#8 = .unrec 0x00#8 ∧
    decodeCommand .opcode 0b00000001#8 = .init ∧ decodeCommand .opcode 0b00000010#8 = .present ∧
    decodeCommand .opcode 0b00000011#8 = .getid ∧ decodeCommand .opcode 0b00000100#8 = .getser ∧
    decodeCommand .opcode 0b00000101#8 = .getcap ∧ decodeCommand .opcode 0b00000110#8 = .rdsec ∧
    decodeCommand .opcode 0b00000111#8 = .rdnext ∧ decodeCommand .opcode 0b00001000#8 = .wrsec ∧
    decodeCommand .opcode 0b00001001#8 = .unrec 0x09#8 ∧
    decodeCommand .opcode 0b11111111#8 = .unrec 0xFF#8 ∧
    decodeCommand .address 0b00000110#8 = .addr 0x06#8 ∧
    decodeCommand .trigger 0b00000110#8 = .go ∧
    decodeCommand .trigger 0b00000101#8 = .getcap := by decide

theorem test_decode_status_bytes :
    decodeStatus 0b00000000#8 = some .stOk ∧ decodeStatus 0b11111111#8 = some .stErr ∧
    decodeStatus 0b00000001#8 = none := by decide

/-- A record's bytes after its name: code, size, offset, both little-endian (rule R107). -/
def rawRecord (code : Byte) : List Byte :=
  List.replicate 20 0x41#8 ++ [code, 0x00#8, 0x80#8, 0x02#8, 0x01#8, 0x78#8, 0x56#8, 0x34#8, 0x12#8]

theorem test_decode_record_codes :
    decodeRecord (rawRecord 0b00000001#8) =
      some (.kindPlain16 (List.replicate 20 0x41#8) 0x01028000#32 0x12345678#32) ∧
    decodeRecord (rawRecord 0b00000010#8) =
      some (.kindPlain32 (List.replicate 20 0x41#8) 0x01028000#32 0x12345678#32) ∧
    decodeRecord (rawRecord 0b00000011#8) =
      some (.kindKonamiScc (List.replicate 20 0x41#8) 0x01028000#32 0x12345678#32) ∧
    decodeRecord (rawRecord 0b00000100#8) =
      some (.kindLinear0 (List.replicate 20 0x41#8) 0x01028000#32 0x12345678#32) ∧
    decodeRecord (rawRecord 0b00000101#8) =
      some (.kindAscii8 (List.replicate 20 0x41#8) 0x01028000#32 0x12345678#32) ∧
    decodeRecord (rawRecord 0b00000110#8) =
      some (.kindAscii16 (List.replicate 20 0x41#8) 0x01028000#32 0x12345678#32) ∧
    decodeRecord (rawRecord 0b00000111#8) =
      some (.kindKonami (List.replicate 20 0x41#8) 0x01028000#32 0x12345678#32) ∧
    decodeRecord (rawRecord 0b00000000#8) = none ∧ decodeRecord (rawRecord 0b00001000#8) = none ∧
    decodeRecord [] = none := by decide

/-- The host's numbering, and the two port numbers under it. -/
theorem test_decode_table_words :
    decodeTableWord 32 0xA612300 = some (.memrd 0x6123#16 0x00#8) ∧
    decodeTableWord 32 0x9680005 = some (.memwr 0x6800#16 0x05#8) ∧
    decodeTableWord 32 0x6004000 = some (.iord false 0x0040#16 0x00#8) ∧
    decodeTableWord 32 0x3000000 = some (.both false false 0x0000#16 0x00#8) ∧
    decodeTableWord 32 0x10000000 = none ∧
    decodeTableWord 8 0x00 = some (.unrec 0x00#8) ∧ decodeTableWord 8 0x08 = some .wrsec ∧
    decodeTableWord 8 0x100 = none ∧ decodeTableWord 16 0x00 = none := by decide

/-! ### Mapper reads (vectors V-M1 to V-M8) -/

theorem test_rdPlain16 :
    let s := image .plain16 0x4000#32 [] [(0x0000, 0x00#8), (0x3FFF, 0xC0#8)]
    (after (.rdPlain16 0x7FFF#16 0x00#8) s).dout = some 0xC0#8 ∧
    (after (.rdPlain16 0x4000#16 0x00#8) s).busdir = true ∧
    (after (.rdPlain16 0x3FFF#16 0x00#8) s).dout = none ∧
    (after (.rdPlain16 0xC000#16 0x00#8) s).dout = none := by decide

/-- Past the image the byte is driven and is not a mirror: a free value, a new one each time. -/
theorem test_rdPlain16_past_image :
    let s := image .plain16 0x4000#32 [] [(0x0000, 0x00#8), (0x3FFF, 0xC0#8)]
    after (.rdPlain16 0x8000#16 0x00#8) s =
      { s.withPhase (.driving (Config.pastImage 0) .rd) with env := { s.env with draws := 1 } } := rfl

theorem test_rdPlain32 :
    let s := image .plain32 0x8000#32 [] [(0x4000, 0x40#8), (0x7FFF, 0x80#8)]
    (after (.rdPlain32 0x8000#16 0x00#8) s).dout = some 0x40#8 ∧
    (after (.rdPlain32 0xBFFF#16 0xFF#8) s).dout = some 0x80#8 ∧
    (after (.rdPlain32 0xC000#16 0x00#8) s).dout = none := by decide

theorem test_rdLinear0 :
    let s := image .linear0 0xC000#32 [] [(0x0000, 0x01#8), (0x3FFF, 0xC0#8), (0xBFFF, 0x40#8)]
    (after (.rdLinear0 0x0000#16 0x00#8) s).dout = some 0x01#8 ∧
    (after (.rdLinear0 0xBFFF#16 0x00#8) s).dout = some 0x40#8 ∧
    (after (.rdLinear0 0xC000#16 0x00#8) s).dout = none := by decide

theorem test_rdKonamiScc :
    let s := image .konamiScc 0x20000#32 [0x1F#8, 0xFF#8, 0x0F#8, 0x08#8]
      [(0x11FFF, 0xE1#8), (0x1E000, 0xE1#8), (0x1E010, 0xF1#8), (0x1F000, 0xF2#8)]
    (after (.rdKonamiScc 0x8010#16 0x00#8) s).dout = some 0xF1#8 ∧
    (after (.rdKonamiScc 0x9000#16 0x00#8) s).dout = some 0xF2#8 ∧
    (after (.rdKonamiScc 0x6000#16 0x00#8) s).dout = some 0xE1#8 ∧
    (after (.rdKonamiScc 0xBFFF#16 0x00#8) s).dout = some 0xE1#8 := by decide

theorem test_rdKonami :
    let s := image .konami 0x20000#32 [0#8, 9#8, 0x0A#8, 0x0C#8]
      [(0x0000, 0x01#8), (0x12000, 0x21#8), (0x19FFF, 0x61#8)]
    (after (.rdKonami 0x4000#16 0x00#8) s).dout = some 0x01#8 ∧
    (after (.rdKonami 0x6000#16 0x00#8) s).dout = some 0x21#8 ∧
    (after (.rdKonami 0xBFFF#16 0x00#8) s).dout = some 0x61#8 := by decide

theorem test_rdAscii8 :
    let s := image .ascii8 0x20000#32 [0x10#8, 5#8, 2#8, 0x1F#8]
      [(0x0000, 0x11#8), (0xA123, 0x82#8), (0x1E000, 0xE1#8)]
    (after (.rdAscii8 0x6123#16 0x00#8) s).dout = some 0x82#8 ∧
    (after (.rdAscii8 0xA000#16 0x00#8) s).dout = some 0xE1#8 ∧
    (after (.rdAscii8 0x4000#16 0x00#8) s).dout = some 0x11#8 := by decide

/-- Six segments: a true modulo, not a mask (V-M5). -/
theorem test_rdAscii8_six_segments :
    let s := image .ascii8 0xC000#32 [7#8, 1#8, 2#8, 3#8] [(0x0005, 0x05#8), (0x2005, 0x25#8)]
    (after (.rdAscii8 0x4005#16 0x00#8) s).dout = some 0x25#8 := by decide

theorem test_rdAscii16 :
    let s := image .ascii16 0x20000#32 [7#8, 0x0D#8] [(0x15234, 0x67#8), (0x1FFFF, 0x01#8)]
    (after (.rdAscii16 0x9234#16 0x00#8) s).dout = some 0x67#8 ∧
    (after (.rdAscii16 0x7FFF#16 0x00#8) s).dout = some 0x01#8 := by decide

/-! ### Mapper writes (V-M4, V-M6 to V-M8, E9): each register's first and last address -/

theorem test_bankKonamiScc :
    let s := image .konamiScc 0x20000#32 [0#8, 1#8, 2#8, 3#8] []
    (after (.bankKonamiScc0 0x57FF#16 0x1F#8) s).bank = [0x1F#8, 1#8, 2#8, 3#8] ∧
    (after (.bankKonamiScc1 0x7000#16 0xFF#8) s).bank = [0#8, 0xFF#8, 2#8, 3#8] ∧
    (after (.bankKonamiScc2 0x9000#16 0x0F#8) s).bank = [0#8, 1#8, 0x0F#8, 3#8] ∧
    (after (.bankKonamiScc3 0xB7FF#16 0x08#8) s).bank = [0#8, 1#8, 2#8, 8#8] := by decide

theorem test_bankKonami :
    let s := image .konami 0x20000#32 [0#8, 1#8, 2#8, 3#8] []
    (after (.bankKonami1 0x6000#16 0x04#8) s).bank = [0#8, 4#8, 2#8, 3#8] ∧
    (after (.bankKonami2 0x8000#16 0x0A#8) s).bank = [0#8, 1#8, 0x0A#8, 3#8] ∧
    (after (.bankKonami3 0xA7FF#16 0x0B#8) s).bank = [0#8, 1#8, 2#8, 0x0B#8] := by decide

theorem test_bankAscii8 :
    let s := image .ascii8 0x20000#32 [0#8, 1#8, 2#8, 3#8] []
    (after (.bankAscii80 0x6000#16 0x10#8) s).bank = [0x10#8, 1#8, 2#8, 3#8] ∧
    (after (.bankAscii81 0x6FFF#16 0x06#8) s).bank = [0#8, 6#8, 2#8, 3#8] ∧
    (after (.bankAscii82 0x7000#16 0x85#8) s).bank = [0#8, 1#8, 0x85#8, 3#8] ∧
    (after (.bankAscii83 0x7800#16 0x1F#8) s).bank = [0#8, 1#8, 2#8, 0x1F#8] := by decide

theorem test_bankAscii16 :
    let s := image .ascii16 0x20000#32 [0#8, 1#8] []
    (after (.bankAscii160 0x67FF#16 0x07#8) s).bank = [7#8, 1#8] ∧
    (after (.bankAscii161 0x77FF#16 0x0D#8) s).bank = [0#8, 0x0D#8] := by decide

/-! ### Bus cycles (V-B1 to V-B3, V-M1, V-M7, V-M9) -/

theorem test_memrd :
    let s := image .plain32 0x8000#32 [] [(0x0123, 0x22#8)]
    (after (.memrd 0x4123#16 0xFF#8) s).dout = some 0x22#8 ∧
    (after (.memrd 0x3FFF#16 0xFF#8) s).dout = none ∧
    (after (.memrd 0x4000#16 0xFF#8) fresh).dout = none := by decide

theorem test_memwr :
    let s := image .ascii8 0x20000#32 [0#8, 1#8, 2#8, 3#8] []
    let t := after (.memwr 0x6800#16 0x05#8) s
    t.bank = [0#8, 5#8, 2#8, 3#8] ∧ t.bcc.phase = .holding .wr ∧ t.dout = none ∧
    (after (.memwr 0x5FFF#16 0x09#8) s).bank = [0#8, 1#8, 2#8, 3#8] ∧
    (after (.memwr 0x8000#16 0x09#8) s).bank = [0#8, 1#8, 2#8, 3#8] := by decide

/-- Konami's open width: `0x6800` is in register 1's range only at `0x2000`. -/
theorem test_memwr_konami_width :
    let s := image .konami 0x20000#32 [0#8, 1#8, 2#8, 3#8] []
    let w : State := { s with params := { s.params with konamiWide := true } }
    (after (.memwr 0x6800#16 0x09#8) s).bank = [0#8, 1#8, 2#8, 3#8] ∧
    (after (.memwr 0x6800#16 0x09#8) w).bank = [0#8, 9#8, 2#8, 3#8] ∧
    (after (.memwr 0x5000#16 0x07#8) w).bank = [0#8, 1#8, 2#8, 3#8] := by decide

theorem test_iord :
    (after (.iord false 0x1240#16 0x00#8) fresh).dout = some 0xC7#8 ∧
    (after (.iord true 0x0041#16 0x00#8) fresh).dout = some 0xD9#8 ∧
    (after (.iord false 0x0042#16 0x00#8) fresh).dout = none := by decide

theorem test_iowr :
    let t := after (.iowr false 0x1240#16 0x01#8) fresh
    t.bridge.ctrlReg = 0x00#8 ∧ t.bcc.phase = .holding .wr ∧ t.dout = none ∧
    (after (.iowr false 0x0042#16 0x01#8) fresh).bridge.ctrlReg = 0xC7#8 ∧
    (after (.iowr false 0x6800#16 0x05#8)
      (image .ascii8 0x20000#32 [0#8, 1#8, 2#8, 3#8] [])).bank = [0#8, 1#8, 2#8, 3#8] := by decide

theorem test_ignored_cycles :
    let s := image .ascii8 0x20000#32 [0#8, 1#8, 2#8, 3#8] []
    after (.nosel false 0x6800#16 0x05#8) s = s ∧ after (.nostb true false 0x4000#16 0x00#8) s = s ∧
    after (.both true false 0x6800#16 0x05#8) s = s := ⟨rfl, rfl, rfl⟩

/-! ### The controller (V-B1, V-B2, V-B4) -/

theorem test_sample :
    (after .sample (atInstant (memCycle 0x4000#16 0x12#8 false) fresh)).record.sampled =
      some { address := 0x4000#16, data := 0x12#8, isRead := true, isWrite := false,
             chipSelected := true, ioRequest := false } ∧
    (after .sample (inPhase (.holding .wr) fresh)).record.sampled = none := by decide

theorem test_drive :
    let s := image .plain32 0x8000#32 [] [(0x0000, 0x41#8)]
    (after (.drive 0x41#8) (atInstant (memCycle 0x4000#16 0x00#8 false) s)).dout = some 0x41#8 ∧
    (after (.drive 0x41#8) (atInstant (memCycle 0x4000#16 0x00#8 true) s)).dout = none := by decide

theorem test_poll :
    let low := atInstant (memCycle 0x6800#16 0x05#8 true) fresh
    (after (.poll .wr) (inPhase (.holding .wr) low)).bcc.phase = .holding .wr ∧
    (after (.poll .wr) (inPhase (.holding .wr) fresh)).bcc.phase = .released ∧
    (after (.poll .rd) (inPhase (.driving 0x22#8 .rd) fresh)).dout = some 0x22#8 := by decide

theorem test_release :
    let low := atInstant (memCycle 0x4123#16 0x00#8 false) fresh
    (after .release (inPhase (.driving 0x22#8 .rd) fresh)).dout = none ∧
    (after .release (inPhase (.driving 0x22#8 .rd) fresh)).busdir = false ∧
    (after .release (inPhase (.driving 0x22#8 .rd) low)).busdir = true := by decide

theorem test_hold :
    let s := image .ascii8 0x20000#32 [0#8, 1#8, 2#8, 3#8] []
    (after .hold (atInstant (memCycle 0x6800#16 0x05#8 true) s)).bcc.phase = .holding .wr ∧
    (after .hold (atInstant (memCycle 0xC000#16 0x05#8 true) s)).bcc.phase = .released := by decide

theorem test_wait :
    let used : State := { fresh with params := { params with useWait := true } }
    (after (.wait true) used).waitLevel = false ∧ (after (.wait false) used).waitLevel = true ∧
    (after (.wait true) fresh).waitLevel = true := by decide

/-- `IW CTL,01` with the wait line in use: asserted while the driver ran, idle after it (V-B4). -/
theorem test_wait_covers_driver_call :
    let used : State := { fresh with params := { params with useWait := true } }
    let t := after (.ctlwr false 0x00#8 0x01#8) used
    calls t = [{ what := .driver .init, wait := true }] ∧ t.bcc.wait = false := by decide

/-! ### The bridge (V-S1 to V-S17) -/

theorem test_ctlrd :
    (after (.ctlrd false 0x00#8 0x00#8) fresh).dout = some 0xC7#8 ∧
    tuple (after (.ctlrd false 0x00#8 0x00#8) fresh) = tuple fresh := by decide

theorem test_ctlwr :
    tuple (after (.ctlwr false 0x00#8 0x01#8)
      (inCommand 0x06#8 (.awaitAddr .three) 0x06#32 0#16 0#16 4#16 fresh)) =
        ⟨0x06#8, .awaitAddr .two, 0x00000106#32, 0#16, 0#16, 4#16, 0xC7#8, 0xD9#8⟩ ∧
    tuple (after (.ctlwr false 0x00#8 0xFF#8)
      (inCommand 0x07#8 .xferRead 1#32 0#16 100#16 412#16 fresh)) =
        ⟨0x07#8, .idle, 1#32, 0#16, 0#16, 412#16, 0xC7#8, 0xD9#8⟩ := by decide

theorem test_init :
    tuple (after .init fresh) = ⟨0x01#8, .idle, 0#32, 0#16, 0#16, 0#16, 0x00#8, 0xD9#8⟩ ∧
    calls (after .init fresh) = [{ what := .driver .init, wait := false }] ∧
    tuple (after .init failing) = ⟨0x01#8, .idle, 0#32, 0#16, 0#16, 0#16, 0xFF#8, 0xD9#8⟩ := by
  decide

theorem test_present :
    tuple (after .present fresh) = ⟨0x02#8, .idle, 0#32, 0#16, 0#16, 0#16, 0x00#8, 0xD9#8⟩ ∧
    calls (after .present fresh) = [{ what := .driver .present, wait := false }] ∧
    (after .present failing).bridge.ctrlReg = 0xFF#8 := by decide

theorem test_getid :
    let t := after .getid fresh
    tuple t = ⟨0x03#8, .xferRead, 0#32, 0#16, 4#16, 0#16, 0xC7#8, 0xD9#8⟩ ∧ calls t = [] ∧
    t.bridge.blockBuffer.toList.take 5 = [0x44#8, 0x33#8, 0x22#8, 0x11#8, 0x00#8] := by decide

theorem test_getser :
    let t := after .getser fresh
    tuple t = ⟨0x04#8, .xferRead, 0#32, 0#16, 4#16, 0#16, 0xC7#8, 0xD9#8⟩ ∧
    t.bridge.blockBuffer.toList.take 5 = [0x01#8, 0x00#8, 0xFE#8, 0xCA#8, 0x00#8] := by decide

theorem test_getcap :
    let t := after .getcap fresh
    tuple t = ⟨0x05#8, .xferRead, 0#32, 0#16, 4#16, 0#16, 0xC7#8, 0xD9#8⟩ ∧
    calls t = [{ what := .driver .sectorCount, wait := false }] ∧
    t.bridge.blockBuffer.toList.take 5 = [0x00#8, 0x78#8, 0x3B#8, 0x00#8, 0x00#8] := by decide

theorem test_rdsec :
    tuple (after .rdsec (inCommand 0x04#8 .idle 0xFFFFFFFF#32 0#16 0#16 4#16 fresh)) =
      ⟨0x06#8, .awaitAddr .four, 0#32, 0#16, 0#16, 4#16, 0xC7#8, 0xD9#8⟩ := by decide

/-- From reset the first sector is 1, and the last address wraps to 0 (V-S8). -/
theorem test_rdnext :
    tuple (after .rdnext fresh) = ⟨0x07#8, .xferRead, 1#32, 0#16, 512#16, 0#16, 0x00#8, 0xD9#8⟩ ∧
    calls (after .rdnext (inCommand 0x06#8 .awaitGo 0xFFFFFFFF#32 0#16 0#16 0#16 fresh)) =
      [{ what := .driver (.readSector 0#32), wait := false }] := by decide

/-- The increment is kept when the read fails (V-S12). -/
theorem test_rdnext_failure :
    tuple (after .rdnext (inCommand 0x06#8 .idle 0#32 0#16 0#16 0#16 failing)) =
      ⟨0x07#8, .idle, 1#32, 0#16, 0#16, 0#16, 0xFF#8, 0xD9#8⟩ := by decide

theorem test_wrsec :
    tuple (after .wrsec (inCommand 0x06#8 .idle 0x12345678#32 0#16 0#16 512#16 fresh)) =
      ⟨0x08#8, .awaitAddr .four, 0#32, 0#16, 0#16, 512#16, 0xC7#8, 0xD9#8⟩ := by decide

theorem test_unrec :
    tuple (after (.unrec 0xFF#8) (inCommand 0x07#8 .xferRead 1#32 0#16 100#16 412#16 fresh)) =
      ⟨0x07#8, .idle, 1#32, 0#16, 0#16, 412#16, 0xC7#8, 0xD9#8⟩ ∧
    tuple (after (.unrec 0x00#8) (inCommand 0x08#8 .xferWrite 2#32 412#16 0#16 100#16 fresh)) =
      ⟨0x08#8, .idle, 2#32, 0#16, 0#16, 100#16, 0xC7#8, 0xD9#8⟩ := by decide

/-- The last address byte, under each of the two opcodes (V-S6, V-S9). -/
theorem test_addr :
    tuple (after (.addr 0x12#8)
      (inCommand 0x06#8 (.awaitAddr .one) 0x00345678#32 0#16 0#16 512#16 fresh)) =
        ⟨0x06#8, .awaitGo, 0x12345678#32, 0#16, 0#16, 512#16, 0xC7#8, 0xD9#8⟩ ∧
    tuple (after (.addr 0x00#8)
      (inCommand 0x08#8 (.awaitAddr .one) 0x00000007#32 0#16 0#16 512#16 fresh)) =
        ⟨0x08#8, .xferWrite, 7#32, 512#16, 0#16, 0#16, 0xC7#8, 0xD9#8⟩ := by decide

theorem test_go :
    let s := inCommand 0x06#8 .awaitGo 0x106#32 0#16 0#16 4#16 fresh
    tuple (after .go s) = ⟨0x06#8, .xferRead, 0x106#32, 0#16, 512#16, 0#16, 0x00#8, 0xD9#8⟩ ∧
    calls (after .go s) = [{ what := .driver (.readSector 0x106#32), wait := false }] ∧
    (after .go s).bridge.blockBuffer.toList.take 2 = [0xA5#8, 0xA5#8] := by decide

theorem test_go_failure :
    tuple (after .go (inCommand 0x06#8 .awaitGo 0x12345678#32 0#16 0#16 512#16 failing)) =
      ⟨0x06#8, .idle, 0x12345678#32, 0#16, 0#16, 512#16, 0xFF#8, 0xD9#8⟩ := by decide

theorem test_datrd :
    let s := (inCommand 0x05#8 .xferRead 0#32 0#16 1#16 3#16 fresh)
    let s := s.withBridge { s.bridge with blockBuffer := s.bridge.blockBuffer.set 3 0x5A#8 }
    (after (.datrd false 0x00#8 0x00#8) s).dout = some 0x5A#8 ∧
    tuple (after (.datrd false 0x00#8 0x00#8) s) =
      ⟨0x05#8, .idle, 0#32, 0#16, 0#16, 4#16, 0xC7#8, 0x5A#8⟩ ∧
    (after (.datrd false 0x00#8 0x00#8) fresh).dout = some 0xD9#8 := by decide

/-- The 512th byte commits; a write during a read only sets `data_reg` (V-S9, V-S15). -/
theorem test_datwr :
    tuple (after (.datwr false 0x00#8 0xFC#8)
      (inCommand 0x08#8 .xferWrite 7#32 1#16 0#16 511#16 fresh)) =
        ⟨0x08#8, .idle, 8#32, 0#16, 0#16, 512#16, 0x00#8, 0xFC#8⟩ ∧
    tuple (after (.datwr false 0x00#8 0x77#8)
      (inCommand 0x05#8 .xferRead 0#32 0#16 3#16 1#16 fresh)) =
        ⟨0x05#8, .xferRead, 0#32, 0#16, 3#16, 1#16, 0xC7#8, 0x77#8⟩ := by decide

/-- A failed commit does not advance the address (V-S13). -/
theorem test_datwr_failure :
    tuple (after (.datwr false 0x00#8 0x11#8)
      (inCommand 0x08#8 .xferWrite 9#32 1#16 0#16 511#16 failing)) =
        ⟨0x08#8, .idle, 9#32, 0#16, 0#16, 512#16, 0xFF#8, 0x11#8⟩ := by decide

theorem test_status_values :
    (after .stOk fresh).bridge.ctrlReg = 0x00#8 ∧
    tuple (after .stErr (inCommand 0x07#8 .xferRead 1#32 0#16 100#16 412#16 fresh)) =
      ⟨0x07#8, .idle, 1#32, 0#16, 0#16, 412#16, 0xFF#8, 0xD9#8⟩ := by decide

/-! ### Table and selection (V-T1, V-T4, V-T6) -/

/-- The bytes of V-T1's first two records and its sentinel, at the base `0x22000`. -/
def table : Memory :=
  Memory.ofBytes 0x22000
    ([0x47#8, 0x41#8, 0x4D#8, 0x45#8, 0x20#8, 0x4F#8, 0x4E#8, 0x45#8] ++ List.replicate 12 0x20#8 ++
      [0x05#8, 0x00#8, 0x00#8, 0x02#8, 0x00#8, 0x00#8, 0x40#8, 0x02#8, 0x00#8] ++
     ([0x44#8, 0x45#8, 0x4D#8, 0x4F#8, 0x33#8, 0x32#8] ++ List.replicate 14 0x00#8 ++
      [0x02#8, 0x02#8, 0x00#8, 0x00#8, 0x00#8, 0x00#8, 0x40#8, 0x04#8, 0x00#8]) ++
     List.replicate 29 0xFF#8) ++ [(0x44000, 0x55#8), (0x44001, 0x54#8)]

/-- A state over that table. -/
def tabled : State := { fresh with img := table }

/-- The first record is V-T1's; the second is V-T1's with a size of two bytes. -/
theorem test_readtable :
    (after (.readtable 0x22000) tabled).record.listed =
      [{ name := [0x47#8, 0x41#8, 0x4D#8, 0x45#8, 0x20#8, 0x4F#8, 0x4E#8, 0x45#8] ++
           List.replicate 12 0x20#8,
         mapper := 5#8, size := 0x00020000#32, offset := 0x00024000#32 },
       { name := [0x44#8, 0x45#8, 0x4D#8, 0x4F#8, 0x33#8, 0x32#8] ++ List.replicate 14 0x00#8,
         mapper := 2#8, size := 0x00000002#32, offset := 0x00044000#32 }] ∧
    (after (.readtable 0x2203A) tabled).record.listed = [] := by decide

theorem test_select :
    let t := after (.select 1) tabled
    t.cfg = some { kind := .plain32, baseOffset := 0#32, size := 2#32 } ∧ t.bank = [] ∧
    t.rbs.bytes = [(0, 0x55#8), (1, 0x54#8)] ∧ (after (.select 2) tabled).cfg = none := by decide

/-- Usable records load, records that fail a condition of rule R257 change nothing. -/
theorem test_kind_rows :
    let name := List.replicate 20 0x20#8
    (after (.kindPlain16 name 2#32 0x44000#32) tabled).rbs.bytes = [(0, 0x55#8), (1, 0x54#8)] ∧
    (after (.kindPlain32 name 2#32 0x44000#32) tabled).kind = some .plain32 ∧
    (after (.kindLinear0 name 2#32 0x44000#32) tabled).kind = some .linear0 ∧
    (after (.kindPlain16 name 0#32 0x44000#32) tabled).kind = none ∧
    (after (.kindPlain32 name 0x400001#32 0x44000#32) tabled).kind = none ∧
    (after (.kindAscii8 name 0x3000#32 0x44000#32) tabled).kind = none ∧
    (after (.kindAscii16 name 0x6000#32 0x44000#32) tabled).kind = none ∧
    (after (.kindKonami name 0x1000#32 0x44000#32) tabled).kind = none ∧
    (after (.kindKonamiScc name 0#32 0x44000#32) tabled).kind = none := by decide

theorem test_kind_rows_registers :
    let name := List.replicate 20 0x20#8
    (after (.kindKonamiScc name 0x2000#32 0#32) tabled).bank = [0#8, 1#8, 2#8, 3#8] ∧
    (after (.kindKonami name 0x2000#32 0#32) tabled).bank = [0#8, 1#8, 2#8, 3#8] ∧
    (after (.kindAscii8 name 0x2000#32 0#32) tabled).bank = [0#8, 1#8, 2#8, 3#8] ∧
    (after (.kindAscii16 name 0x4000#32 0#32) tabled).bank = [0#8, 1#8] := by decide

/-- `BANK_INIT` with another table: every register 0 (rules R8, R31; D8). -/
theorem test_bank_init_zero :
    let zero : BankInit := { konamiScc := Vector.replicate 4 0#8, konami := Vector.replicate 4 0#8,
                             ascii8 := Vector.replicate 4 0#8, ascii16 := Vector.replicate 2 0#8 }
    let s : State := { tabled with params := { params with bankInit := zero } }
    (after (.kindKonami (List.replicate 20 0x20#8) 0x2000#32 0#32) s).bank = [0#8, 0#8, 0#8, 0#8] ∧
    (after (.kindAscii16 (List.replicate 20 0x20#8) 0x4000#32 0#32) s).bank = [0#8, 0#8] := by decide

theorem test_usable_sizes :
    usable 0x400000 { name := [], mapper := 6#8, size := 0x4000#32, offset := 0#32 } = true ∧
    usable 0x400000 { name := [], mapper := 1#8, size := 0x0001#32, offset := 0#32 } = true ∧
    usable 0x400000 { name := [], mapper := 7#8, size := 0x400000#32, offset := 0#32 } = true ∧
    usable 0x400000 { name := [], mapper := 0#8, size := 0x4000#32, offset := 0#32 } = false ∧
    usable 0x400000 { name := [], mapper := 8#8, size := 0x4000#32, offset := 0#32 } = false ∧
    usable 0x400000 { name := [], mapper := 5#8, size := 0x3000#32, offset := 0#32 } = false := by
  decide

/-! ### Witnesses: states and operands that meet the hypotheses of a statement together

Where a statement has several clauses, one conjunct stands for each. -/

/-- At the top of the loop with nothing served and the wait output idle. -/
theorem bccOk_top {s : State} (h : s.bcc =
    { stage := .running, point := .top, phase := .released, wait := false }) : BccOk s := by
  constructor <;> simp [h, State.running, LoopPoint.blind]

/-- `fresh` meets the invariant. -/
theorem fresh_inv : Inv fresh :=
  ⟨by show (0x40#8 : Byte) ≠ 0x41#8; decide, bccOk_top rfl, ⟨rfl, rfl⟩, ⟨rfl, rfl⟩,
   ⟨by decide, by decide, by decide, by decide, by decide, (fun _ h => nomatch h),
    (fun h => nomatch h)⟩⟩

/-- ASCII8 with a size of one segment and nothing listed. -/
def ascii8 : State := image .ascii8 0x2000#32 [0#8, 1#8, 2#8, 3#8] []

/-- ASCII8 with an image of one segment, whose bytes nobody knows. -/
def loaded : State :=
  image .ascii8 0x2000#32 [0#8, 1#8, 2#8, 3#8] (Memory.ofBytes 0 (imgBytes [] 0 0x2000))

theorem loaded_inv : Inv loaded :=
  ⟨fresh_inv.params, bccOk_top rfl, ⟨rfl, by decide, rfl, by decide, ⟨0, rfl⟩, ⟨_, rfl, rfl⟩⟩,
   ⟨rfl, Memory.wf_ofBytes _ _⟩, fresh_inv.bridge⟩

theorem witness_DecodeOfEncodeIsTheInstruction :
    (let ctx := ctxOf (some .konami) true .opcode
     (Instr.bankKonami3 0xBFFF#16 0xFF#8).wellFormed = true ∧
     rowApplies ctx (.bankKonami3 0xBFFF#16 0xFF#8) = true ∧
     encode ctx (.bankKonami3 0xBFFF#16 0xFF#8) = some (.bus28 0x9BFFFFF#28)) ∧
    (let ctx := ctxOf none false .trigger
     (Instr.unrec 0x09#8).wellFormed = true ∧ rowApplies ctx (.unrec 0x09#8) = true ∧
     encode ctx (.unrec 0x09#8) = some (.cmd8 0x09#8)) := by decide

theorem witness_CycleKindAndRouteFollowTheFourBooleans :
    (let t := after (decodeCycle (portWriteCycle 0x40#8 0x01#8)) fresh
     exec (decodeCycle (portWriteCycle 0x40#8 0x01#8)) fresh = .next t ∧
     t.bridge.opcode ≠ fresh.bridge.opcode) ∧
    (let s := image .ascii8 0x20000#32 [0#8, 1#8, 2#8, 3#8] []
     let t := after (decodeCycle (memCycle 0x7FFF#16 0x05#8 true)) s
     exec (decodeCycle (memCycle 0x7FFF#16 0x05#8 true)) s = .next t ∧ t.bank ≠ s.bank) ∧
    (exec (decodeCycle quiet) fresh = .next fresh ∧ quiet.isRead = quiet.isWrite) :=
  ⟨⟨rfl, by decide⟩, ⟨rfl, by decide⟩, rfl, rfl⟩

theorem witness_OpcodePositionBytesAreEightOpcodesOrUnrecognised :
    decodeCommand .trigger 0x06#8 = .go ∧ (0x05#8 : Byte) ≠ 0x06#8 ∧ (0x07#8 : Byte) ≠ 0x06#8 := by
  decide

/-- At a given point of the loop. -/
def atPoint (p : LoopPoint) (s : State) : State := toPoint p s

/-- A read, and a write that calls the driver; a call sampled, running, and about to return. -/
theorem witness_StepRunsTheSampledCycle :
    (let s := atInstant (memCycle 0x6123#16 0x00#8 false) fresh
     s.bcc.stage = .running ∧ s.bcc.phase = .released ∧ s.bcc.point = .top ∧ s.reselect = none ∧
     cycleOfLines s.now.lines = Machine.busCycle 0xA612300#28 ∧
     decodeBus 0xA612300#28 = .memrd 0x6123#16 0x00#8 ∧
     s.callOf (Machine.busCycle 0xA612300#28) = none) ∧
    (let s := atPoint .sampling (atInstant (portWriteCycle 0x40#8 0x01#8) fresh)
     s.bcc.point = .sampling ∧ cycleOfLines s.now.lines = Machine.busCycle 0x5004001#28 ∧
     (s.callOf (Machine.busCycle 0x5004001#28)).isSome = true) ∧
    (let c := portWriteCycle 0x40#8 0x01#8
     (atPoint (.sampled c 0) fresh).bcc.point = .sampled c 0 ∧
     (atPoint (.calling c 1) fresh).bcc.point = .calling c (0 + 1) ∧
     (atPoint (.calling c 0) fresh).bcc.point = .calling c 0) := by decide

theorem witness_StepRunsPollReleaseSelectionAndBoot :
    (let s := inPhase (.driving 0x22#8 .rd) (atInstant (memCycle 0x4000#16 0x00#8 false) fresh)
     s.bcc.stage = .running ∧ s.bcc.phase = .driving 0x22#8 .rd ∧ s.now.lines.rdN = false) ∧
    (let s := inPhase (.driving 0x22#8 .rd) fresh
     s.bcc.stage = .running ∧ s.bcc.phase = .driving 0x22#8 .rd ∧ s.now.lines.rdN = true) ∧
    (let s := inPhase (.holding .wr) fresh
     s.bcc.stage = .running ∧ s.bcc.phase = .holding .wr) ∧
    (let s : State := { fresh with reselect := some 0 }
     s.bcc.stage = .running ∧ s.bcc.phase = .released ∧ s.bcc.point = .top ∧ s.reselect = some 0) ∧
    (atPoint (.loading 0 1) fresh).bcc.point = .loading 0 (0 + 1) ∧
    (atPoint (.loading 0 0) fresh).bcc.point = .loading 0 0 ∧
    (State.resetWith params [] []).bcc.stage = .readTable ∧
    (let s : State := { State.resetWith params [] [0] with
       bcc := { stage := .selecting, point := .top, phase := .released, wait := true } }
     s.bcc.stage = .selecting ∧ s.env.bootSelects = 0 :: []) ∧
    (let s : State := { State.resetWith params [] [] with
       bcc := { stage := .selecting, point := .top, phase := .released, wait := true } }
     s.bcc.stage = .selecting ∧ s.env.bootSelects = []) := by decide

theorem witness_EveryStepKeepsTheInvariant :
    Inv loaded ∧ ∃ t, step (atInstant (memCycle 0x6000#16 0xFF#8 true) loaded) = .next t :=
  ⟨loaded_inv, _, rfl⟩

theorem witness_EveryStepKeepsTheInvariant_driver_call :
    Inv fresh ∧ ∃ t, step fresh = .next t := ⟨fresh_inv, _, rfl⟩

theorem witness_ResetMeetsTheInvariant :
    params.portCtrl ≠ params.portData ∧ Memory.wf [(0, 0x00#8), (1, 0xFF#8)] = true := by decide

theorem witness_NoStepChangesParametersImageOrLeavesTheLoop :
    ∃ t, step fresh = .next t ∧ fresh.bcc.stage = .running := ⟨_, rfl, rfl⟩

theorem witness_NoOperationReadsTheRecord : ∃ t, exec .init fresh = .next t := ⟨_, rfl⟩

theorem witness_SampleReturnsTheLineLevels : fresh.bcc.phase = .released := rfl

theorem witness_DriveAndReleaseMoveTheDataLines :
    (let s := atInstant (portReadCycle 0x41#8) fresh
     s.bcc.phase = .released ∧ s.claimedRead (cycleOfLines s.now.lines) = true) ∧
    (let s := inPhase (.driving 0xFF#8 .rd) fresh
     s.bcc.phase = .driving 0xFF#8 .rd ∧ s.now.lines.rdN = true) := by decide

theorem witness_HoldAndPollWaitForTheStrobe :
    (let s := atInstant (portWriteCycle 0x40#8 0x01#8) fresh
     s.bcc.phase = .released ∧ s.claimedWrite (cycleOfLines s.now.lines) = true) ∧
    (let s := inPhase (.holding .wr) (atInstant (portWriteCycle 0x40#8 0x01#8) fresh)
     s.bcc.phase = .holding .wr ∧ s.now.lines.wrN = false) ∧
    (let s := inPhase (.holding .wr) fresh
     s.bcc.phase = .holding .wr ∧ s.now.lines.wrN = true) ∧
    (inPhase (.driving 0x00#8 .rd) fresh).bcc.phase = .driving 0x00#8 .rd := by decide

/-- A driver call running, of a cycle that makes it; the wait output at `USE_WAIT` false. -/
def callRunning (k : Nat) : State :=
  atPoint (.calling (portWriteCycle 0x40#8 0x01#8) k) fresh

theorem callRunning_inv (k : Nat) : Inv (callRunning k) where
  params := fresh_inv.params
  bcc := ⟨(fun _ _ h => nomatch h), (fun _ h => nomatch h), (fun h => absurd rfl h),
    (fun h => absurd rfl h), (fun h => absurd rfl h), (fun c n h => by
      rcases h with h | h
      · nomatch h
      · obtain ⟨rfl, -⟩ := LoopPoint.calling.inj h; rfl), rfl⟩
  mapper := fresh_inv.mapper
  memory := fresh_inv.memory
  bridge := fresh_inv.bridge

/-- The step in which a driver call returns, from a state that meets the invariant, and one while it
runs. -/
theorem witness_WaitCoversEveryBlindInterval :
    (Inv (callRunning 0) ∧ ∃ t, step (callRunning 0) = .next t ∧
      t.record.blind = [{ what := .driver .init, wait := false }]) ∧
    (Inv (callRunning 1) ∧ ∃ t, step (callRunning 1) = .next t ∧ t.bcc.point.blind = true) ∧
    (let c := portWriteCycle 0x40#8 0x01#8
     ∃ t, exec (decodeCycle c) fresh = .next t ∧ fresh.callOf c = some .init) :=
  ⟨⟨callRunning_inv 0, _, rfl, rfl⟩, ⟨callRunning_inv 1, _, rfl, rfl⟩, _, rfl, rfl⟩

theorem atInstant_inv (c : BusCycle) : Inv (atInstant c fresh) :=
  ⟨fresh_inv.params, bccOk_top rfl, fresh_inv.mapper, fresh_inv.memory, fresh_inv.bridge⟩

theorem driving_inv (c : BusCycle) : Inv (inPhase (.driving 0x22#8 .rd) (atInstant c fresh)) where
  params := fresh_inv.params
  bcc := by
    constructor <;>
      simp [inPhase, State.withPhase, atInstant, fresh, State.running, LoopPoint.blind]
  mapper := fresh_inv.mapper
  memory := fresh_inv.memory
  bridge := fresh_inv.bridge

theorem witness_OnlyAClaimedReadCycleDrives :
    (let s := atInstant (portReadCycle 0x40#8) fresh
     Inv s ∧ ∃ t, step s = .next t ∧ s.busdir = false ∧ t.busdir = true ∧ s.bcc.stage = .running ∧
       s.bcc.phase = .released ∧ s.AtSample ∧ s.claimedRead (cycleOfLines s.now.lines) = true) ∧
    (let s := inPhase (.driving 0x22#8 .rd) (atInstant (portReadCycle 0x40#8) fresh)
     Inv s ∧ ∃ t, step s = .next t ∧ s.bcc.stage = .running ∧ s.bcc.phase = .driving 0x22#8 .rd ∧
       s.now.lines.rdN = false) ∧
    (let s := inPhase (.driving 0x22#8 .rd) (atInstant quiet fresh)
     Inv s ∧ ∃ t, step s = .next t ∧ s.bcc.stage = .running ∧ s.bcc.phase = .driving 0x22#8 .rd ∧
       s.now.lines.rdN = true) :=
  ⟨⟨atInstant_inv _, _, rfl, rfl, rfl, rfl, rfl, .inr ⟨rfl, rfl⟩, by decide⟩,
   ⟨driving_inv _, _, rfl, rfl, rfl, rfl⟩, ⟨driving_inv _, _, rfl, rfl, rfl, rfl⟩⟩

theorem witness_UnclaimedCyclesChangeNothing :
    fresh.claimed (memCycle 0x4000#16 0x00#8 false) = false ∧
    (let c : MapperConfig := { kind := .ascii8, baseOffset := 0#32, size := 0x2000#32 }
     ascii8.cfg = some c ∧ 0xC000 ≤ (0xC000#16 : Half).toNat ∧
     (0x3FFF#16 : Half).toNat < 0x4000 ∧ c.kind ≠ .linear0) ∧
    (0x123F#16 : Half).extractLsb' 0 8 ≠ fresh.params.portCtrl ∧
    (0x4042#16 : Half).extractLsb' 0 8 ≠ fresh.params.portData := by decide

theorem witness_UncomparedBitsNeverMatter :
    (0xFF40#16 : Half).extractLsb' 0 8 = (0x0040#16 : Half).extractLsb' 0 8 := by decide

/-- A strobe still low, and one that is high. -/
theorem witness_ServedCycleIsActedOnOnce :
    (let s := inPhase (.holding .wr) fresh
     ∃ t, s.bcc.stage = .running ∧ s.bcc.phase = .holding .wr ∧ step s = .next t ∧
       s.now.lines.wrN = true) ∧
    (let s := inPhase (.driving 0xFF#8 .rd) (atInstant (portReadCycle 0x41#8) fresh)
     ∃ t v, s.bcc.stage = .running ∧ s.bcc.phase = .driving v .rd ∧ step s = .next t ∧
       s.now.lines.rdN = false) :=
  ⟨⟨_, rfl, rfl, rfl, rfl⟩, ⟨_, _, rfl, rfl, rfl, rfl⟩⟩

/-- A read whose strobe is low for one further instant; and a write that calls the driver, whose call
lasts one instant longer than the shortest and whose strobe is high at once. -/
theorem witness_LineCycleIsOneEvent :
    (let c := portReadCycle 0x41#8
     let s : State := { fresh with
       env := { fresh.env with inputs := instant c :: [] ++ [instant c] ++ instant quiet :: [] } }
     s.bcc.stage = .running ∧ s.bcc.phase = .released ∧ s.bcc.point = .top ∧ s.reselect = none ∧
     cycleOfLines (instant c).lines = c ∧ s.claimed c = true ∧ s.callOf c = none ∧
     (∀ i ∈ [instant c], (if c.isRead = true then i.lines.rdN else i.lines.wrN) = false) ∧
     (if c.isRead = true then (instant quiet).lines.rdN else (instant quiet).lines.wrN) = true ∧
     s.env.flagWrites = [] ∧
     ∀ i ∈ instant c :: instant quiet :: [] ++ [instant c], i.flagWrite = none) ∧
    (let c := portWriteCycle 0x40#8 0x01#8
     let first : Instant := { instant c with busy := 1 }
     let call := [instant c, instant c, instant c]
     let s : State := { fresh with
       env := { fresh.env with inputs := first :: call ++ [] ++ instant quiet :: [] } }
     s.bcc.stage = .running ∧ s.bcc.phase = .released ∧ s.bcc.point = .top ∧ s.reselect = none ∧
     cycleOfLines first.lines = c ∧ s.claimed c = true ∧ s.callOf c = some .init ∧
     call.length = first.busy + 2 ∧
     (if c.isRead = true then (instant quiet).lines.rdN else (instant quiet).lines.wrN) = true ∧
     s.env.flagWrites = [] ∧
     ∀ i ∈ first :: instant quiet :: call ++ [], i.flagWrite = none) := by decide

/-- V-B4: `IW CTL,01` with `USE_WAIT`: the call begins at t = 0, runs at t = 1 with the wait output
asserted, has returned at t = 2, and the strobe is high at t = 3. -/
theorem test_V_B4 :
    let c := portWriteCycle 0x40#8 0x01#8
    let s : State := { fresh with
      params := { params with useWait := true }
      env := { fresh.env with inputs := [instant c, instant c, instant c, instant quiet] } }
    let rows := fun t : State => (t.bcc.phase, t.bcc.wait, t.bridge.ctrlReg)
    mapNextRows rows (runSteps 1 s) = some (.released, false, 0xC7#8) ∧
    mapNextRows rows (runSteps 2 s) = some (.released, true, 0xC7#8) ∧
    mapNextRows rows (runSteps 3 s) = some (.holding .wr, false, 0x00#8) ∧
    mapNextRows rows (runSteps 4 s) = some (.released, false, 0x00#8) := by decide

/-- The flag is set: the selection runs with the wait output asserted, loads the record, and the
sample follows with no other test of the flag, though a later record has been written (rule R134). -/
theorem test_selection_then_sample :
    let write : Instant := { instant quiet with flagWrite := some { value := 0, delay := 1 } }
    let s : State := { tabled with
      params := { params with useWait := true }, reselect := some 1
      env := { tabled.env with
        inputs := [write, instant quiet, instant (portReadCycle 0x40#8), instant quiet] } }
    let rows := fun t : State => (t.cfg.isSome, t.bcc.wait, t.dout)
    mapNextRows rows (runSteps 1 s) = some (false, true, none) ∧
    mapNextRows rows (runSteps 2 s) = some (true, false, none) ∧
    mapNextRows State.reselect (runSteps 2 s) = some (some 0) ∧
    mapNextRows rows (runSteps 3 s) = some (true, false, some 0xC7#8) := by decide

theorem witness_MemoryReadIsItsKindsRow :
    let c : MapperConfig := { kind := .linear0, baseOffset := 0#32, size := 0xC000#32 }
    (image .linear0 0xC000#32 [] []).cfg = some c ∧ windowStart c.kind ≤ (0x0000#16 : Half).toNat ∧
    (0xBFFF#16 : Half).toNat ≤ windowEnd c.kind := by decide

/-- The last byte of the image, and the first offset past it. -/
theorem witness_MemoryReadFollowsTheOffsetFormula :
    (let s := image .ascii16 0x8000#32 [0#8, 0xFF#8] [(0x7FFF, 0x80#8)]
     let c : MapperConfig := { kind := .ascii16, baseOffset := 0#32, size := 0x8000#32 }
     s.cfg = some c ∧ windowStart c.kind ≤ (0xBFFF#16 : Half).toNat ∧
     (0xBFFF#16 : Half).toNat ≤ windowEnd c.kind ∧
     s.bank[((0xBFFF#16 : Half).toNat - windowStart c.kind) / segmentSize c.kind]? = some 0xFF#8 ∧
     (0xFF#8 : Byte).toNat % (c.size.toNat / segmentSize c.kind) * segmentSize c.kind +
       ((0xBFFF#16 : Half).toNat - windowStart c.kind) % segmentSize c.kind = 0x7FFF ∧
     0x7FFF < c.size.toNat ∧
     Memory.read s.rbs.bytes (c.baseOffset.toNat + 0x7FFF) = some 0x80#8) ∧
    (let s := image .plain16 0x4000#32 [] []
     let c : MapperConfig := { kind := .plain16, baseOffset := 0#32, size := 0x4000#32 }
     s.cfg = some c ∧ banked c.kind = false ∧
     c.size.toNat ≤ ((0x8000#16 : Half).toNat - windowStart c.kind) % segmentSize c.kind) := by
  decide

theorem witness_FixedMappingReadsAreLinear :
    (let s := image .plain16 0x4000#32 [] [(0x3FFF, 0xC0#8)]
     s.cfg = some { kind := .plain16, baseOffset := 0#32, size := 0x4000#32 } ∧
     (0x7FFF#16 : Half).toNat - 0x4000 < 0x4000 ∧ Memory.read s.rbs.bytes (0 + 0x3FFF) = some 0xC0#8 ∧
     0x4000 ≤ (0x8000#16 : Half).toNat - 0x4000) ∧
    (let s := image .plain32 0x8000#32 [] [(0x7FFF, 0x80#8)]
     s.cfg = some { kind := .plain32, baseOffset := 0#32, size := 0x8000#32 } ∧
     (0xBFFF#16 : Half).toNat ≤ 0xBFFF ∧ Memory.read s.rbs.bytes (0 + 0x7FFF) = some 0x80#8) ∧
    (let s := image .linear0 0x8000#32 [] [(0x0000, 0x01#8)]
     s.cfg = some { kind := .linear0, baseOffset := 0#32, size := 0x8000#32 } ∧
     Memory.read s.rbs.bytes (0 + 0) = some 0x01#8 ∧
     0x8000 ≤ (0x8000#16 : Half).toNat - 0x0000) := by decide

/-- Each banked kind, at the ends of its window. -/
theorem witness_BankedSlotsShowTheirSegment :
    (let s := image .konamiScc 0x2000#32 [0xFF#8, 1#8, 2#8, 3#8] [(0x0000, 0x01#8)]
     s.cfg = some { kind := .konamiScc, baseOffset := 0#32, size := 0x2000#32 } ∧
     s.bank[((0x4000#16 : Half).toNat - 0x4000) / 0x2000]? = some 0xFF#8 ∧
     Memory.read s.rbs.bytes (0 + ((0xFF % (0x2000 / 0x2000)) * 0x2000 + 0)) = some 0x01#8) ∧
    (let s := image .konami 0x4000#32 [0#8, 1#8, 2#8, 3#8] [(0x3FFF, 0xC0#8)]
     s.cfg = some { kind := .konami, baseOffset := 0#32, size := 0x4000#32 } ∧
     s.bank[((0xBFFF#16 : Half).toNat - 0x4000) / 0x2000]? = some 3#8 ∧
     Memory.read s.rbs.bytes (0 + ((3 % (0x4000 / 0x2000)) * 0x2000 + 0x1FFF)) = some 0xC0#8) ∧
    (let s := image .ascii8 0x20000#32 [0#8, 5#8, 2#8, 3#8] [(0xA123, 0x82#8)]
     s.cfg = some { kind := .ascii8, baseOffset := 0#32, size := 0x20000#32 } ∧
     s.bank[((0x6123#16 : Half).toNat - 0x4000) / 0x2000]? = some 5#8 ∧
     Memory.read s.rbs.bytes (0 + ((5 % (0x20000 / 0x2000)) * 0x2000 + 0x123)) = some 0x82#8) ∧
    (let s := image .ascii16 0x4000#32 [0#8, 0x0D#8] [(0x3FFF, 0xC0#8)]
     s.cfg = some { kind := .ascii16, baseOffset := 0#32, size := 0x4000#32 } ∧
     s.bank[((0xBFFF#16 : Half).toNat - 0x4000) / 0x4000]? = some 0x0D#8 ∧
     Memory.read s.rbs.bytes (0 + ((0x0D % (0x4000 / 0x4000)) * 0x4000 + 0x3FFF)) = some 0xC0#8) := by
  decide

theorem witness_BankedReadStaysInsideTheImage :
    let c : MapperConfig := { kind := .ascii8, baseOffset := 0#32, size := 0x2000#32 }
    Inv loaded ∧ loaded.cfg = some c ∧ banked c.kind = true ∧ 0x4000 ≤ (0x4000#16 : Half).toNat ∧
    (0xBFFF#16 : Half).toNat ≤ 0xBFFF := ⟨loaded_inv, rfl, rfl, by decide, by decide⟩

/-- `0x05` and `0x15` under sixteen segments (rule R169's example), and a trigger write. -/
theorem witness_RegistersAreReducedOnlyWhenRead :
    (let s := image .ascii8 0x20000#32 [0x05#8, 1#8, 2#8, 3#8] []
     let other : List Byte := [0x15#8, 1#8, 2#8, 3#8]
     s.cfg = some { kind := .ascii8, baseOffset := 0#32, size := 0x20000#32 } ∧
     other.length = s.bank.length ∧
     ∀ (i : Nat) (x y : Byte), s.bank[i]? = some x → other[i]? = some y →
       x.toNat % (0x20000 / 0x2000) = y.toNat % (0x20000 / 0x2000)) ∧
    ∃ t, exec (.memwr 0x6000#16 0xFF#8) ascii8 = .next t := by
  refine ⟨⟨rfl, rfl, ?_⟩, _, rfl⟩
  intro i x y hx hy
  match i with
  | 0 => cases hx; cases hy; decide
  | 1 | 2 | 3 => cases hx; cases hy; decide
  | n + 4 => cases hx

/-- The first and the last address of every range, and the gaps between two ranges. -/
theorem witness_KonamiSccTriggersWriteTheirRegister :
    (image .konamiScc 0x2000#32 [0#8, 1#8, 2#8, 3#8] []).cfg =
      some { kind := .konamiScc, baseOffset := 0#32, size := 0x2000#32 } ∧
    [0x4000#16, 0x4FFF#16, 0x5000#16, 0x57FF#16, 0x5800#16, 0x7000#16, 0x77FF#16, 0x9000#16,
      0x97FF#16, 0xB000#16, 0xB7FF#16, 0xB800#16, (0xBFFF#16 : Half)].all
      (fun a => decide (0x4000 ≤ a.toNat) && decide (a.toNat ≤ 0xBFFF)) = true := by decide

theorem witness_KonamiTriggersWriteTheirRegister :
    let s := image .konami 0x2000#32 [0#8, 1#8, 2#8, 3#8] []
    let w : State := { s with params := { s.params with konamiWide := true } }
    s.cfg = some { kind := .konami, baseOffset := 0#32, size := 0x2000#32 } ∧ w.cfg = s.cfg ∧
    0x800 = (if s.params.konamiWide = true then 0x2000 else 0x800) ∧
    0x2000 = (if w.params.konamiWide = true then 0x2000 else 0x800) ∧
    0x6000 ≤ (0x67FF#16 : Half).toNat ∧ (0x67FF#16 : Half).toNat ≤ 0x6000 + 0x800 - 1 ∧
    0xA000 ≤ (0xBFFF#16 : Half).toNat ∧ (0xBFFF#16 : Half).toNat ≤ 0xA000 + 0x2000 - 1 := by decide

theorem witness_Ascii8TriggersWriteTheirRegister :
    ascii8.cfg = some { kind := .ascii8, baseOffset := 0#32, size := 0x2000#32 } ∧
    [0x5FFF#16, 0x6000#16, 0x67FF#16, 0x6800#16, 0x6FFF#16, 0x7000#16, 0x77FF#16, 0x7800#16,
      0x7FFF#16, (0x8000#16 : Half)].all
      (fun a => decide (0x4000 ≤ a.toNat) && decide (a.toNat ≤ 0xBFFF)) = true := by decide

theorem witness_Ascii16TriggersWriteTheirRegister :
    (image .ascii16 0x4000#32 [0#8, 1#8] []).cfg =
      some { kind := .ascii16, baseOffset := 0#32, size := 0x4000#32 } ∧
    [0x6000#16, 0x67FF#16, 0x6800#16, 0x7000#16, 0x77FF#16, (0x7800#16 : Half)].all
      (fun a => decide (0x4000 ≤ a.toNat) && decide (a.toNat ≤ 0xBFFF)) = true := by decide

theorem witness_UnbankedKindsIgnoreWrites :
    ((image .plain16 0x4000#32 [] []).cfg =
      some { kind := .plain16, baseOffset := 0#32, size := 0x4000#32 } ∧
     windowStart .plain16 ≤ (0x4000#16 : Half).toNat) ∧
    ((image .plain32 0x8000#32 [] []).cfg =
      some { kind := .plain32, baseOffset := 0#32, size := 0x8000#32 } ∧
     windowStart .plain32 ≤ (0xBFFF#16 : Half).toNat) ∧
    ((image .linear0 0xC000#32 [] []).cfg =
      some { kind := .linear0, baseOffset := 0#32, size := 0xC000#32 } ∧
     windowStart .linear0 ≤ (0x0000#16 : Half).toNat) ∧
    ∃ t, exec (decodeCycle (memCycle 0x6000#16 0xFF#8 true)) ascii8 = .next t :=
  ⟨by decide, by decide, by decide, _, rfl⟩

theorem witness_SubBlocksShareNoState :
    (∃ t, exec (.memrd 0x4000#16 0x00#8) ascii8 = .next t) ∧
    (∃ t, exec (.memwr 0x6000#16 0x05#8) ascii8 = .next t) ∧
    (∃ t, exec (.iord false 0x0041#16 0x00#8) ascii8 = .next t) ∧
    (∃ t, exec (.iowr false 0x0040#16 0x07#8) ascii8 = .next t) ∧
    (∃ t, exec (.select 255) ascii8 = .next t) := ⟨⟨_, rfl⟩, ⟨_, rfl⟩, ⟨_, rfl⟩, ⟨_, rfl⟩, ⟨_, rfl⟩⟩

/-- A transfer of one byte to come, in each direction, meets the bridge's invariant. -/
theorem witness_PhaseTransitionsFollowTheTable :
    (let s := inCommand 0x07#8 .xferRead 1#32 0#16 1#16 511#16 fresh
     BridgeOk s.bridge ∧ (∃ t, exec (.datrd false 0x00#8 0x00#8) s = .next t) ∧
       ∃ t, exec (.ctlrd false 0x00#8 0x00#8) s = .next t) ∧
    (let s := inCommand 0x08#8 .xferWrite 7#32 1#16 0#16 511#16 fresh
     BridgeOk s.bridge ∧ ∃ t, exec (.datwr false 0x00#8 0xFC#8) s = .next t) ∧
    (let s := inCommand 0x08#8 (.awaitAddr .one) 7#32 0#16 0#16 0#16 fresh
     BridgeOk s.bridge ∧ ∃ t, exec (.ctlwr false 0x00#8 0x00#8) s = .next t) ∧
    (let s := inCommand 0x06#8 .awaitGo 7#32 0#16 0#16 0#16 fresh
     BridgeOk s.bridge ∧ ∃ t, exec (.ctlwr false 0x00#8 0x06#8) s = .next t) :=
  ⟨⟨⟨by decide, by decide, by decide, by decide, by decide, (fun _ h => nomatch h),
      (fun h => nomatch h)⟩, ⟨_, rfl⟩, _, rfl⟩,
   ⟨⟨by decide, by decide, by decide, by decide, by decide, (fun _ h => nomatch h),
      (fun h => nomatch h)⟩, _, rfl⟩,
   ⟨⟨by decide, by decide, by decide, by decide, by decide, fun _ _ => .inr rfl,
      (fun h => nomatch h)⟩, _, rfl⟩,
   ⟨⟨by decide, by decide, by decide, by decide, by decide, (fun _ h => nomatch h),
      fun _ => rfl⟩, _, rfl⟩⟩

/-- Every byte is in opcode position in `Idle`, every byte but the trigger in `AwaitGo`, and in the
middle of a transfer. -/
theorem witness_opcode_position (v : Byte) :
    InOpcodePosition fresh.bridge v ∧
    InOpcodePosition (inCommand 0x07#8 .xferRead 1#32 0#16 100#16 412#16 fresh).bridge v ∧
    (v ≠ 0x06#8 →
      InOpcodePosition (inCommand 0x06#8 .awaitGo 1#32 0#16 0#16 0#16 fresh).bridge v) :=
  ⟨⟨(fun _ h => nomatch h), (fun h => nomatch h)⟩, ⟨(fun _ h => nomatch h), (fun h => nomatch h)⟩,
   fun hv => ⟨(fun _ h => nomatch h), fun _ => hv⟩⟩

theorem witness_StatusCommandsReportTheDriversStatus :
    InOpcodePosition fresh.bridge 0x01#8 ∧ InOpcodePosition fresh.bridge 0x02#8 :=
  ⟨(witness_opcode_position _).1, (witness_opcode_position _).1⟩

theorem witness_IdentifierAndSerialAreStagedLittleEndian :
    InOpcodePosition fresh.bridge 0x03#8 ∧ fresh.params.deviceId = 0x11223344#32 ∧
    InOpcodePosition fresh.bridge 0x04#8 ∧ fresh.params.deviceSerial = 0xCAFE0001#32 :=
  ⟨(witness_opcode_position _).1, rfl, (witness_opcode_position _).1, rfl⟩

theorem witness_CapacityIsStagedLittleEndian : InOpcodePosition fresh.bridge 0x05#8 :=
  (witness_opcode_position _).1

theorem witness_AddressedCommandsBeginWithAClearAddress :
    InOpcodePosition fresh.bridge 0x06#8 ∧ InOpcodePosition fresh.bridge 0x08#8 :=
  ⟨(witness_opcode_position _).1, (witness_opcode_position _).1⟩

theorem witness_AddressByteIsOredInAtItsPosition :
    (let s := inCommand 0x06#8 (.awaitAddr .four) 0#32 0#16 0#16 0#16 fresh
     s.bridge.phase = .awaitAddr .four ∧ 0 = 4 - AddrLeft.four.toNat ∧ AddrLeft.four ≠ .one) ∧
    (let s := inCommand 0x06#8 (.awaitAddr .one) 0#32 0#16 0#16 0#16 fresh
     s.bridge.phase = .awaitAddr .one ∧ 3 = 4 - AddrLeft.one.toNat ∧ s.bridge.opcode = 0x06#8) ∧
    (let s := inCommand 0x08#8 (.awaitAddr .one) 0#32 0#16 0#16 0#16 fresh
     s.bridge.phase = .awaitAddr .one ∧ 3 = 4 - AddrLeft.one.toNat ∧ s.bridge.opcode = 0x08#8) := by
  decide

theorem witness_FourAddressBytesAssembleLittleEndian :
    InOpcodePosition fresh.bridge 0x06#8 ∧ InOpcodePosition fresh.bridge 0x08#8 :=
  ⟨(witness_opcode_position _).1, (witness_opcode_position _).1⟩

theorem witness_GoReadsTheAddressedSector :
    (let s := inCommand 0x06#8 .awaitGo 0xFFFFFFFF#32 0#16 0#16 0#16 fresh
     s.bridge.phase = .awaitGo ∧ s.nextReply.status = .ok) ∧
    (let s := inCommand 0x06#8 .awaitGo 0#32 0#16 0#16 0#16 failing
     s.bridge.phase = .awaitGo ∧ s.nextReply.status = .err) := by decide

/-- The address at which the increment wraps, and a failing read. -/
theorem witness_ReadNextAdvancesThenReads :
    (let s := inCommand 0x06#8 .awaitGo 0xFFFFFFFF#32 0#16 0#16 0#16 fresh
     InOpcodePosition s.bridge 0x07#8 ∧
     (0#32 : Word).toNat = (s.bridge.sectorAddress.toNat + 1) % 2 ^ 32 ∧
     s.nextReply.status = .ok) ∧
    InOpcodePosition failing.bridge 0x07#8 ∧
    (1#32 : Word).toNat = (failing.bridge.sectorAddress.toNat + 1) % 2 ^ 32 ∧
    failing.nextReply.status = .err :=
  ⟨⟨⟨(fun _ h => nomatch h), fun _ => by decide⟩, by decide, rfl⟩,
   ⟨(fun _ h => nomatch h), (fun h => nomatch h)⟩, by decide, rfl⟩

/-- Nothing pending; the first and the last byte of a transfer. -/
theorem witness_DataReadDeliversOrRepeats :
    fresh.params.portCtrl ≠ fresh.params.portData ∧ fresh.bridge.bytesPendingOut = 0#16 ∧
    (let s := inCommand 0x07#8 .xferRead 1#32 0#16 512#16 0#16 fresh
     s.bridge.bytesPendingOut ≠ 0#16 ∧ s.bridge.cursor.toNat = (0 : Fin 512).val) ∧
    (let s := inCommand 0x07#8 .xferRead 1#32 0#16 1#16 511#16 fresh
     s.bridge.bytesPendingOut ≠ 0#16 ∧ s.bridge.cursor.toNat = (511 : Fin 512).val) := by decide

theorem witness_DataWriteStoresAndCommits :
    fresh.params.portCtrl ≠ fresh.params.portData ∧ fresh.bridge.bytesPendingIn = 0#16 ∧
    (let s := inCommand 0x08#8 .xferWrite 7#32 512#16 0#16 0#16 fresh
     s.bridge.cursor.toNat = (0 : Fin 512).val ∧ s.bridge.bytesPendingIn ≠ 0#16 ∧
     s.bridge.bytesPendingIn ≠ 1#16) ∧
    (let s := inCommand 0x08#8 .xferWrite 7#32 1#16 0#16 511#16 fresh
     s.bridge.cursor.toNat = (511 : Fin 512).val ∧ s.bridge.bytesPendingIn = 1#16 ∧
     s.nextReply.status = .ok) ∧
    (let s := inCommand 0x08#8 .xferWrite 7#32 1#16 0#16 511#16 failing
     s.bridge.cursor.toNat = (511 : Fin 512).val ∧ s.bridge.bytesPendingIn = 1#16 ∧
     s.nextReply.status = .err) := by decide

theorem witness_UnrecognisedOpcodeOnlyDropsTheTransfer :
    (0x00#8 : Byte).toNat = 0 ∧ 9 ≤ (0x09#8 : Byte).toNat ∧ 9 ≤ (0xFF#8 : Byte).toNat ∧
    InOpcodePosition (inCommand 0x07#8 .xferRead 1#32 0#16 100#16 412#16 fresh).bridge 0xFF#8 :=
  ⟨by decide, by decide, by decide, (witness_opcode_position _).2.1⟩

theorem witness_ControlWritesNeverWriteASector :
    ∃ t, exec (.ctlwr false 0x00#8 0x00#8)
      (inCommand 0x08#8 .xferWrite 2#32 412#16 0#16 100#16 fresh) = .next t := ⟨_, rfl⟩

theorem witness_BlockReadDeliversTheSectorInOrder :
    fresh.params.portCtrl ≠ fresh.params.portData ∧ InOpcodePosition fresh.bridge 0x06#8 ∧
    fresh.nextReply.status = .ok ∧ fresh.nextReply.data = Vector.replicate 512 0xA5#8 :=
  ⟨by decide, (witness_opcode_position _).1, rfl, rfl⟩

/-- No byte, the last byte but one, and all of them. -/
theorem witness_BlockWriteCommitsExactlyItsBytes :
    fresh.params.portCtrl ≠ fresh.params.portData ∧ InOpcodePosition fresh.bridge 0x08#8 ∧
    (0 : Nat) ≤ 512 ∧ (511 : Nat) < 512 ∧ (512 : Nat) ≤ 512 ∧ fresh.nextReply.status = .ok ∧
    InOpcodePosition failing.bridge 0x08#8 ∧ failing.nextReply.status = .err ∧
    (let driver : RefDriver :=
       { ok := true, count := 0xFFFFFFFF#32, sect := fun _ => Vector.replicate 512 0#8 }
     driver.ok = true ∧ (0xFFFFFFFE#32 : Word).toNat < driver.count.toNat) :=
  ⟨by decide, (witness_opcode_position _).1, by decide, by decide, by decide, rfl,
   (witness_opcode_position 0x08#8).1, rfl, by decide⟩

theorem witness_FailedReadExposesNothing :
    failing.params.portCtrl ≠ failing.params.portData ∧ InOpcodePosition failing.bridge 0x06#8 ∧
    failing.nextReply.status = .err := ⟨by decide, (witness_opcode_position 0x06#8).1, rfl⟩

theorem witness_TableScanStopsAtTheSentinel :
    ∃ out, exec (.readtable 0x22000) tabled =
      .next { tabled with record := { tabled.record with listed := out } } ∧
      out.length = 2 ∧ ∃ r, out[1]? = some r := by
  refine ⟨_, rfl, ?_, ?_⟩
  · decide
  · exact ⟨_, rfl⟩

/-- A record that loads; an index past the list, and an index whose record is not usable. -/
theorem witness_SelectLoadsAUsableRecordOrNothing :
    (let r : RomRecord :=
       { name := [0x44#8, 0x45#8, 0x4D#8, 0x4F#8, 0x33#8, 0x32#8] ++ List.replicate 14 0x00#8,
         mapper := 2#8, size := 2#32, offset := 0x44000#32 }
     (readTable tabled.img (tabled.params.fwSize + 0x8000))[1]? = some r ∧
     r.mapper = kindCode .plain32 ∧ 1 ≤ r.size.toNat ∧ r.size.toNat ≤ tabled.params.storeCapacity ∧
     banked .plain32 = false) ∧
    (readTable tabled.img (tabled.params.fwSize + 0x8000))[2]? = none ∧
    tabled.params.bankInit = .identity ∧
    (let small : State := { tabled with params := { params with storeCapacity := 1 } }
     ∀ r, (readTable small.img (small.params.fwSize + 0x8000))[1]? = some r →
       usable small.params.storeCapacity r = false) := by
  refine ⟨by decide, by decide, rfl, ?_⟩
  intro small r h
  have h' : (readTable small.img (small.params.fwSize + 0x8000))[1]? =
      some { name := [0x44#8, 0x45#8, 0x4D#8, 0x4F#8, 0x33#8, 0x32#8] ++ List.replicate 14 0x00#8,
             mapper := 2#8, size := 2#32, offset := 0x44000#32 } := by decide
  rw [h', Option.some.injEq] at h
  subst h
  decide

/-- At the least and the largest size of a kind with segments, and one below. -/
theorem witness_UsableRecordsMeetTheSizeConditions :
    usable 0x4000 { name := [], mapper := 3#8, size := 0x2000#32, offset := 0#32 } = true ∧
    usable 0x4000 { name := [], mapper := 6#8, size := 0x4000#32, offset := 0#32 } = true ∧
    usable 0x4000 { name := [], mapper := 7#8, size := 0x1FFF#32, offset := 0#32 } = false ∧
    usable 0x4000 { name := [], mapper := 4#8, size := 0x4001#32, offset := 0#32 } = false := by
  decide

theorem witness_MapperCodesConfigureTheirKind :
    usable params.storeCapacity
      { name := [], mapper := 7#8, size := 0x2000#32, offset := 0#32 } = true ∧
    usable params.storeCapacity
      { name := [], mapper := 1#8, size := 1#32, offset := 0#32 } = true ∧
    usable params.storeCapacity
      { name := [], mapper := 6#8, size := 0x6000#32, offset := 0#32 } = false := by decide

/-- The end and the begin of a selection in the loop, and a boot selection, with a record that loads. -/
theorem witness_SelectionHappensOnlyBetweenCycles :
    (let s : State := atPoint (.loading 1 0) { tabled with reselect := some 1 }
     ∃ t, step s = .next t ∧ t.cfg ≠ s.cfg) ∧
    (let s : State := { tabled with reselect := some 1 }
     ∃ t, step s = .next t ∧ s.bcc.stage = .running ∧ t.bcc.point = .loading 1 0) ∧
    (let s : State := { State.resetWith params tabled.img [1] with
       bcc := { stage := .selecting, point := .top, phase := .released, wait := true } }
     ∃ t, step s = .next t ∧ t.cfg ≠ s.cfg) :=
  ⟨⟨_, rfl, by decide⟩, ⟨_, rfl, rfl, rfl⟩, ⟨_, rfl, by decide⟩⟩

/-- A write that lands at once; silence, at the end of a selection and elsewhere; and a write in flight
for two instants behind one that takes three. -/
theorem witness_FlagHoldsTheLastWriteUntilTaken :
    (let s := { fresh with
       env := { fresh.env with
         inputs := [{ instant quiet with flagWrite := some { value := 255, delay := 0 } }] } }
     (∃ t, step s = .next t) ∧ s.bcc.stage = .running ∧ s.env.flagWrites = [] ∧
     s.now.flagWrite = some { value := 255, delay := 0 }) ∧
    (let s := atPoint (.loading 1 0) { fresh with reselect := some 1 }
     (∃ t, step s = .next t) ∧ s.bcc.stage = .running ∧ s.env.flagWrites = [] ∧
     s.now.flagWrite = none ∧ s.bcc.phase = .released ∧ s.bcc.point = .loading 1 0) ∧
    ((∃ t, step fresh = .next t) ∧ fresh.now.flagWrite = none ∧ fresh.bcc.point = .top) ∧
    (let w : FlagWrite := { value := 7, delay := 2 }
     let first : Instant := { instant quiet with flagWrite := some w }
     let later := [instant quiet, instant quiet, instant quiet]
     let s := { fresh with
       env := { fresh.env with
         flagWrites := [{ value := 3, delay := 3 }], inputs := first :: later ++ [] } }
     s.env.inputs = first :: later ++ [] ∧ first.flagWrite = some w ∧ w.delay ≤ later.length ∧
     (∀ q ∈ s.env.flagWrites, q.delay ≤ later.length) ∧ ∀ i ∈ later, i.flagWrite = none) :=
  ⟨⟨⟨_, rfl⟩, rfl, rfl, rfl⟩, ⟨⟨_, rfl⟩, rfl, rfl, rfl, rfl, rfl⟩, ⟨⟨_, rfl⟩, rfl, rfl⟩,
   by decide⟩

/-! ### How the host places a word: the next step runs it, from the reset state -/

theorem test_withFetchWord :
    (∃ t, step (State.reset.withFetchWord 32 0xA612300) = .next t) ∧
    (∃ t, step (State.reset.withFetchWord 8 0x05) = .next t) ∧
    (State.reset.withFetchWord 32 0xA612300).nextInstr = .memrd 0x6123#16 0x00#8 ∧
    (State.reset.withFetchWord 32 0x5004001).nextInstr = .iowr false 0x0040#16 0x01#8 ∧
    (State.reset.withFetchWord 32 0x3000000).nextInstr = .both false false 0x0000#16 0x00#8 :=
  ⟨⟨_, rfl⟩, ⟨_, rfl⟩, rfl, rfl, rfl⟩

end Sys2Proof.Tests
end

section
/-! The encoding of a sector address: the word that four address bytes assemble, split again. -/

namespace Sys2Proof.Machine

/-- Splitting the word assembled from four bytes gives the bytes back, the least significant first
(rule R104); the other direction is `leWord_byteOf`. -/
theorem leBytes_leWord (b0 b1 b2 b3 : Byte) : leBytes (leWord b0 b1 b2 b3) = [b0, b1, b2, b3] := by
  have hword : leWord b0 b1 b2 b3 = (b3 ++ b2 ++ b1 ++ b0 : BitVec (8 + 8 + 8 + 8)) := leWord_eq ..
  simp only [leBytes, byteOf, hword, Nat.reduceMul, Nat.reduceLeDiff, Nat.reduceSub,
    BitVec.extractLsb'_append_eq_of_le, BitVec.extractLsb'_append_eq_right,
    BitVec.extractLsb'_eq_self]

/-- Settles O44: the five cycles are the addressed command of the word the four bytes assemble. -/
theorem fourAddressBytesAssembleLittleEndian :
    Obligations.FourAddressBytesAssembleLittleEndian := by
  intro s op b0 b1 b2 b3 hop hpos
  have hcycles : [op, b0, b1, b2, b3].map (portWriteCycle s.params.portCtrl) =
      addressedCommand s.params.portCtrl op (leWord b0 b1 b2 b3) ++ [] := by
    simp [addressedCommand, leBytes_leWord]
  rw [hcycles, (runEvents_addressedCommand rfl hop hpos _ []).1]
  refine ⟨_, rfl, ?_, rfl, ?_⟩
  · rcases hop with rfl | rfl <;> exact leWord_eq b0 b1 b2 b3
  · rcases hop with rfl | rfl <;> rfl

end Sys2Proof.Machine
end

section
/-! The bus cycle controller (40_bus_cycle.md): which sub-block a cycle can reach, and what the
primitives `DRIVE`, `RELEASE`, `HOLD` and `POLL` do under their preconditions. -/

namespace Sys2Proof.Machine

variable {s t : State}

/-! ### What an action of one sub-block leaves of the other -/

theorem mapperRead_frame (a : Half) (s : State) :
    (mapperRead a s).bridge = s.bridge ∧ (mapperRead a s).bank = s.bank := by
  cases hc : s.cfg with
  | none => simp [mapperRead, hc]
  | some c => rw [mapperRead_eq s hc]; cases s.mappedByte c a <;> exact ⟨rfl, rfl⟩

@[simp] theorem mapperWrite_bridge (a : Half) (d : Byte) (s : State) :
    (mapperWrite a d s).bridge = s.bridge := by
  rcases mapperWrite_eq s a d with e | ⟨_, _, _, _, e⟩ <;> rw [e]
  rfl

@[simp] theorem datRead_bank (s : State) : (datRead s).bank = s.bank := by
  rcases datRead_eq s with ⟨e, -⟩ | ⟨e, -⟩ <;> rw [e] <;> rfl

/-! ### The route of a cycle (rule R123) -/

/-- A memory read drives the mapper's byte and writes to neither sub-block. -/
theorem exec_memrd_route {a : Half} {d : Byte} (h : exec (.memrd a d) s = .next t) :
    t.bridge = s.bridge ∧ t.bank = s.bank := by
  obtain rfl := Host.Outcome.next.inj h
  split
  · exact mapperRead_frame a s
  · exact ⟨rfl, rfl⟩

/-- A memory write does not reach the bridge. -/
theorem exec_memwr_bridge {a : Half} {d : Byte} (h : exec (.memwr a d) s = .next t) :
    t.bridge = s.bridge := by
  obtain rfl := Host.Outcome.next.inj h
  split
  · exact mapperWrite_bridge a d s
  · rfl

/-- An I/O read does not reach the mapper. -/
theorem exec_iord_bank {cs : Bool} {a : Half} {d : Byte} (h : exec (.iord cs a d) s = .next t) :
    t.bank = s.bank := by
  obtain rfl := Host.Outcome.next.inj h
  split
  · rfl
  · split
    · exact datRead_bank s
    · rfl

/-- An I/O write does not reach the mapper. -/
theorem exec_iowr_bank {cs : Bool} {a : Half} {d : Byte} (h : exec (.iowr cs a d) s = .next t) :
    t.bank = s.bank := by
  obtain rfl := Host.Outcome.next.inj h
  split
  · exact (ctlWrite_same s d).bank
  · split
    · exact (datWrite_same s d).bank
    · rfl

/-- The route of a cycle is exclusive: to no sub-block, to the bridge, or to the mapper, which a read
does not write to. -/
theorem exec_cycle_route {c : BusCycle} (h : exec (decodeCycle c) s = .next t) :
    ((c.isRead = c.isWrite ∨ (c.ioRequest = false ∧ c.chipSelected = false)) ∧ t = s) ∨
    (c.isRead ≠ c.isWrite ∧ c.ioRequest = true ∧ t.bank = s.bank) ∨
    (c.isRead ≠ c.isWrite ∧ c.ioRequest = false ∧ c.chipSelected = true ∧ t.bridge = s.bridge ∧
      (c.isRead = true → t.bank = s.bank)) := by
  rcases decodeCycle_cases c with ⟨hst, _, _, _, _, he | he⟩ | ⟨hio, hr, hw, he⟩ |
    ⟨hio, hr, hw, he⟩ | ⟨hio, hcs, hr, hw, he⟩ | ⟨hio, hcs, hr, hw, he⟩ | ⟨hio, hcs, -, he⟩ <;>
    rw [he] at h
  · exact .inl ⟨.inl hst, (Host.Outcome.next.inj h).symm⟩
  · exact .inl ⟨.inl hst, (Host.Outcome.next.inj h).symm⟩
  · exact .inr (.inl ⟨by simp [hr, hw], hio, exec_iord_bank h⟩)
  · exact .inr (.inl ⟨by simp [hr, hw], hio, exec_iowr_bank h⟩)
  · obtain ⟨hbridge, hbank⟩ := exec_memrd_route h
    exact .inr (.inr ⟨by simp [hr, hw], hio, hcs, hbridge, fun _ => hbank⟩)
  · exact .inr (.inr ⟨by simp [hr, hw], hio, hcs, exec_memwr_bridge h,
      fun hread => by simp [hr] at hread⟩)
  · exact .inl ⟨.inr ⟨hio, hcs⟩, (Host.Outcome.next.inj h).symm⟩

/-- Settles O3: the kind by the sixteen values of the four booleans, the rest from the exclusive
route. -/
theorem cycleKindAndRouteFollowTheFourBooleans :
    Obligations.CycleKindAndRouteFollowTheFourBooleans := by
  intro c s t
  refine ⟨?_, fun h => ?_⟩
  · obtain ⟨a, d, rd, wr, cs, io⟩ := c
    cases rd <;> cases wr <;> cases cs <;> cases io <;> rfl
  · rcases exec_cycle_route h with ⟨-, rfl⟩ | ⟨hst, hio, hbank⟩ | ⟨hst, hio, hcs, hbridge, hbank⟩
    · exact ⟨fun hne => absurd rfl hne, fun hne => absurd rfl hne, fun _ => rfl⟩
    · refine ⟨fun _ => ⟨hst, hio⟩, fun hne => absurd hbank hne, ?_⟩
      rintro (heq | ⟨hio', -⟩)
      · exact absurd heq hst
      · simp [hio] at hio'
    · refine ⟨fun hne => absurd hbridge hne, fun hne => ?_, ?_⟩
      · have hr : c.isRead = false := by simpa using mt hbank hne
        exact ⟨by simpa [hr] using hst, hr, hio, hcs⟩
      · rintro (heq | ⟨-, hcs'⟩)
        · exact absurd heq hst
        · simp [hcs] at hcs'

/-! ### The primitives under their preconditions (rules R126 to R129) -/

theorem exec_drive_of_claimedRead (hp : s.bcc.phase = .released)
    (hc : s.claimedRead s.sample = true) (v : Byte) : exec (.drive v) s = .next (drive v s) := by
  simp [exec, execDrive, hp, hc]

theorem exec_hold_of_claimedWrite (hp : s.bcc.phase = .released)
    (hc : s.claimedWrite s.sample = true) : exec .hold s = .next (holdWrite s) := by
  simp [exec, execHold, hp, hc]

theorem exec_release_of_high {v : Byte} {st : Strobe} (hp : s.bcc.phase = .driving v st)
    (hh : s.strobeHigh st = true) : exec .release s = .next (toReleased s) := by
  simp [exec, execRelease, hp, hh]

theorem exec_poll_of_holding {st : Strobe} (hp : s.bcc.phase = .holding st) :
    exec (.poll st) s = .next (if s.strobeHigh st = true then toReleased s else s) := by
  simp [exec, execPoll, hp]

theorem exec_poll_of_driving {v : Byte} {st st' : Strobe} (hp : s.bcc.phase = .driving v st) :
    exec (.poll st') s = .next s := by
  simp [exec, execPoll, hp]

/-- Settles O15: the two states named by their phase are `drive v s` and `toReleased s`. -/
theorem driveAndReleaseMoveTheDataLines : Obligations.DriveAndReleaseMoveTheDataLines := by
  intro s v
  refine ⟨fun hp hc => ?_, fun hp hh => ?_⟩
  · exact ⟨exec_drive_of_claimedRead hp hc v, drive_dout s v, drive_busdir s v⟩
  · exact ⟨exec_release_of_high hp hh, toReleased_dout s, toReleased_busdir s⟩

/-- Settles O16: the two states named by their phase are `holdWrite s` and `toReleased s`. -/
theorem holdAndPollWaitForTheStrobe : Obligations.HoldAndPollWaitForTheStrobe := by
  intro s
  refine ⟨fun hp hc => ?_, fun hp hlow => ?_, fun hp hhigh => ?_, fun v hp => ?_⟩
  · exact ⟨exec_hold_of_claimedWrite hp hc, holdWrite_dout s, holdWrite_busdir s⟩
  · rw [exec_poll_of_holding hp, if_neg (by simp [State.strobeHigh, hlow])]
  · rw [exec_poll_of_holding hp, if_pos (show s.strobeHigh .wr = true from hhigh)]
    rfl
  · exact exec_poll_of_driving hp

end Sys2Proof.Machine
end

section
/-! The Memory Mapper Engine (41_mapper.md): the offset computation of a read, and the register a
trigger write stores its byte in. -/

namespace Sys2Proof.Machine

variable {s : State} {c : MapperConfig} {k : MapperKind} {a : Half} {d r v : Byte}

/-! ### A cycle in the window reaches the mapper (rule R151) -/

theorem inWindow_of_bounds (hlo : windowStart k ≤ a.toNat) (hhi : a.toNat ≤ windowEnd k) :
    inWindow k a = true := by
  simp [inWindow, hlo, hhi]

theorem inActiveWindow_eq (hc : s.cfg = some c) : s.inActiveWindow a = inWindow c.kind a := by
  simp [State.inActiveWindow, hc]

theorem exec_memrd_of_inWindow (hc : s.cfg = some c) (hw : inWindow c.kind a = true) :
    exec (.memrd a d) s = .next (mapperRead a s) := by
  simp [exec, execMemrd, inActiveWindow_eq hc, hw]

theorem exec_memrd_of_not_inWindow (hc : s.cfg = some c) (hw : ¬ inWindow c.kind a = true) :
    exec (.memrd a d) s = .next s := by
  simp [exec, execMemrd, inActiveWindow_eq hc, hw]

theorem exec_memwr_of_inWindow (hc : s.cfg = some c) (hw : inWindow c.kind a = true) :
    exec (.memwr a d) s = .next (holdWrite (mapperWrite a d s)) := by
  simp [exec, execMemwr, inActiveWindow_eq hc, hw]

/-- The read row of a kind is that kind's read (rules R153 to R159). -/
theorem exec_readRow (k : MapperKind) (a : Half) (d : Byte) (s : State) :
    exec (readRow k a d) s = .next (readOfKind k a s) := by
  cases k <;> rfl

theorem exec_readRow_of_inWindow (hc : s.cfg = some c) (hw : inWindow c.kind a = true) :
    exec (readRow c.kind a d) s = .next (mapperRead a s) := by
  simp [exec_readRow, readOfKind, State.kind, hc, hw]

/-! ### The offset computation (rule R152) -/

/-- The register of the slot, reduced, is the segment a banked kind shows. -/
theorem segmentOf_banked {bank : List Byte} (hb : banked c.kind = true)
    (hr : bank[segmentIndex c.kind a]? = some r) :
    segmentOf c bank a = r.toNat % availableSegments c := by
  simp [segmentOf, hb, hr]

theorem segmentOf_unbanked (hb : banked c.kind = false) (bank : List Byte) :
    segmentOf c bank a = 0 := by
  simp [segmentOf, hb]

/-- The window of an unbanked kind is no longer than its one segment. -/
theorem windowOffset_lt_segmentSize (hb : banked k = false) (hhi : a.toNat ≤ 0xBFFF) :
    windowOffset k a < segmentSize k := by
  cases k <;> simp only [windowOffset, windowStart, segmentSize]
  case plain16 | plain32 | linear0 => omega
  case konamiScc | konami | ascii8 | ascii16 => cases hb

/-- So an unbanked kind maps the window linearly, from its start (rules R153 to R155). -/
theorem imageOffset_unbanked (hb : banked c.kind = false) (hhi : a.toNat ≤ 0xBFFF)
    (bank : List Byte) : imageOffset c bank a = a.toNat - windowStart c.kind := by
  rw [imageOffset, segmentOf_unbanked hb, Nat.zero_mul, Nat.zero_add,
    Nat.mod_eq_of_lt (windowOffset_lt_segmentSize hb hhi), windowOffset]

/-- Inside the image the store's byte is driven. -/
theorem mapperRead_of_lt (hc : s.cfg = some c) (hlt : imageOffset c s.bank a < c.size.toNat)
    (hv : Memory.read s.rbs.bytes (c.baseOffset.toNat + imageOffset c s.bank a) = some v) :
    mapperRead a s = s.withPhase (.driving v .rd) := by
  have hbyte : s.mappedByte c a = some v := by rw [State.mappedByte, if_pos hlt, romOffset, hv]
  rw [mapperRead_eq s hc, hbyte]
  rfl

/-- Past the image an unspecified byte is driven, and one free value drawn (rule R168). -/
theorem mapperRead_of_le (hc : s.cfg = some c) (hle : c.size.toNat ≤ imageOffset c s.bank a) :
    mapperRead a s = { s.withPhase (.driving (Config.pastImage s.env.draws) .rd) with
      env := { s.env with draws := s.env.draws + 1 } } := by
  have hnone : s.mappedByte c a = none := if_neg (Nat.not_lt.mpr hle)
  rw [mapperRead_eq s hc, hnone]
  rfl

/-- Settles O25: the statement's offset is `imageOffset`, by the kind being banked or not. -/
theorem memoryReadFollowsTheOffsetFormula : Obligations.MemoryReadFollowsTheOffsetFormula := by
  intro s c a d r v hc hlo hhi hreg bankv offset
  have hoffset : imageOffset c s.bank a = offset := by
    cases hb : banked c.kind with
    | true => simp only [imageOffset, segmentOf_banked hb (hreg hb), offset, bankv, hb]; rfl
    | false => simp only [imageOffset, segmentOf_unbanked hb, offset, bankv, hb]; rfl
  rw [exec_memrd_of_inWindow hc (inWindow_of_bounds hlo hhi)]
  refine ⟨fun hlt hv => ?_, fun hle => ?_⟩
  · rw [mapperRead_of_lt hc (hoffset ▸ hlt) (hoffset ▸ hv)]
  · rw [mapperRead_of_le hc (hoffset ▸ hle)]

/-- Settles O26: the three rows are the kind's read row, at the linear offset. -/
theorem fixedMappingReadsAreLinear : Obligations.FixedMappingReadsAreLinear := by
  intro s c a d v start i hc hkind hlo hhi
  obtain ⟨hb, rfl, rfl⟩ :
      banked c.kind = false ∧ i = readRow c.kind a d ∧ start = windowStart c.kind := by
    rcases hkind with ⟨hk, rfl, rfl⟩ | ⟨hk, rfl, rfl⟩ | ⟨hk, rfl, rfl⟩ <;> rw [hk] <;>
      exact ⟨rfl, rfl, rfl⟩
  have hoffset := imageOffset_unbanked hb hhi s.bank
  rw [exec_readRow_of_inWindow hc (inWindow_of_bounds hlo (windowEnd_eq c.kind ▸ hhi))]
  refine ⟨fun hlt hv => ?_, fun hle => ?_⟩
  · rw [mapperRead_of_lt hc (hoffset ▸ hlt) (hoffset ▸ hv)]
  · rw [mapperRead_of_le hc (hoffset ▸ hle)]

/-- Settles O27: the four rows are the kind's read row, and the offset of a banked kind stays inside
any image of at least one segment. -/
theorem bankedSlotsShowTheirSegment : Obligations.BankedSlotsShowTheirSegment := by
  intro s c a d r v i seg hc hkind hlo hhi hseg hr hv
  obtain ⟨hb, rfl, rfl⟩ :
      banked c.kind = true ∧ i = readRow c.kind a d ∧ seg = segmentSize c.kind := by
    rcases hkind with ⟨hk, rfl, rfl⟩ | ⟨hk, rfl, rfl⟩ | ⟨hk, rfl, rfl⟩ | ⟨hk, rfl, rfl⟩ <;>
      rw [hk] <;> exact ⟨rfl, rfl, rfl⟩
  rw [← windowStart_banked hb] at hlo hr hv
  have hoffset : imageOffset c s.bank a = r.toNat % (c.size.toNat / segmentSize c.kind) *
      segmentSize c.kind + (a.toNat - windowStart c.kind) % segmentSize c.kind := by
    rw [imageOffset, segmentOf_banked hb hr]
    rfl
  rw [exec_readRow_of_inWindow hc (inWindow_of_bounds hlo (windowEnd_eq c.kind ▸ hhi)),
    mapperRead_of_lt hc (imageOffset_lt hb hseg s.bank a) (hoffset ▸ hv)]

/-! ### A read sees a register only modulo the number of segments (rule R169) -/

/-- Register files of one length that agree modulo the number of segments show the same segment. -/
theorem segmentOf_congr {bank other : List Byte} (hlen : other.length = bank.length)
    (hmod : ∀ (i : Nat) (x y : Byte), bank[i]? = some x → other[i]? = some y →
      x.toNat % availableSegments c = y.toNat % availableSegments c) :
    segmentOf c other a = segmentOf c bank a := by
  by_cases hi : segmentIndex c.kind a < bank.length
  · have hx := List.getElem?_eq_getElem hi
    have hy := List.getElem?_eq_getElem (hlen.symm ▸ hi)
    simp only [segmentOf, hx, hy, Option.getD_some, hmod _ _ _ hx hy]
  · have hi' : ¬ segmentIndex c.kind a < other.length := hlen ▸ hi
    simp only [segmentOf, List.getElem?_eq_none (Nat.not_lt.mp hi),
      List.getElem?_eq_none (Nat.not_lt.mp hi')]

/-- A read does the same beside any register file that shows the same segment. -/
theorem mapperRead_withBank {other : List Byte} (hc : s.cfg = some c)
    (hseg : segmentOf c other a = segmentOf c s.bank a) :
    mapperRead a { s with bank := other } = { mapperRead a s with bank := other } := by
  have hoffset : imageOffset c other a = imageOffset c s.bank a := by
    rw [imageOffset, hseg, imageOffset]
  have hbyte : State.mappedByte { s with bank := other } c a = s.mappedByte c a := by
    rw [State.mappedByte, romOffset, hoffset]
    rfl
  rw [mapperRead_eq { s with bank := other } hc, mapperRead_eq s hc, hbyte]
  cases s.mappedByte c a <;> rfl

theorem holdWrite_mapperWrite_bank (a : Half) (d : Byte) (s : State) :
    (holdWrite (mapperWrite a d s)).bank = s.bank ∨
      ∃ r, (holdWrite (mapperWrite a d s)).bank = s.bank.set r d := by
  rcases mapperWrite_eq s a d with e | ⟨_, r, _, _, e⟩ <;> rw [e]
  · exact .inl rfl
  · exact .inr ⟨r, rfl⟩

/-- Settles O29: a read shows the same segment, and a write stores its byte whole. -/
theorem registersAreReducedOnlyWhenRead : Obligations.RegistersAreReducedOnlyWhenRead := by
  refine ⟨fun s c a d other hc hlen hmod => ?_, fun s t a d h => ?_⟩
  · by_cases hw : inWindow c.kind a = true
    · rw [exec_memrd_of_inWindow hc hw, exec_memrd_of_inWindow (s := { s with bank := other }) hc hw,
        mapperRead_withBank hc (segmentOf_congr hlen hmod)]
      rfl
    · rw [exec_memrd_of_not_inWindow hc hw,
        exec_memrd_of_not_inWindow (s := { s with bank := other }) hc hw]
      rfl
  · obtain rfl := Host.Outcome.next.inj h
    split
    · exact holdWrite_mapperWrite_bank a d s
    · exact .inl rfl

/-! ### Trigger writes (rules R160 to R165) -/

/-- The trigger ranges of a kind do not overlap, at either width (rule R150). -/
theorem triggers_disjoint (w : Bool) (k : MapperKind) : ∀ x ∈ triggers k, ∀ y ∈ triggers k,
    x = y ∨ x.1 + triggerWidth w k ≤ y.1 ∨ y.1 + triggerWidth w k ≤ x.1 := by
  cases w <;> cases k <;> decide

/-- So an address in a range triggers the register of that range. -/
theorem triggerRegister_of_mem {w : Bool} {b r : Nat} (hm : (b, r) ∈ triggers k)
    (hlo : b ≤ a.toNat) (hhi : a.toNat < b + triggerWidth w k) : triggerRegister w k a = some r := by
  have hin : inRange b (triggerWidth w k) a = true := by simp [inRange, hlo, hhi]
  cases hf : (triggers k).find? fun t => inRange t.1 (triggerWidth w k) a with
  | none => exact absurd hin (List.find?_eq_none.mp hf _ hm)
  | some x =>
    have hx : x.1 ≤ a.toNat ∧ a.toNat < x.1 + triggerWidth w k := by
      simpa [inRange] using List.find?_some hf
    have hxb : x = (b, r) := by
      rcases triggers_disjoint w k x (List.mem_of_find?_eq_some hf) _ hm with h | h | h
      · exact h
      · omega
      · omega
    rw [triggerRegister, hf, hxb]
    rfl

/-- The trigger row of a register is that register's trigger (rules R160 to R163). -/
theorem exec_bankRow {reg : Nat} {i : Instr} (hi : bankRow k reg a d = some i) (s : State) :
    exec i s = .next (triggerOfKind k reg a d s) := by
  unfold bankRow at hi
  split at hi <;> cases hi <;> rfl

/-- In its range a trigger row stores its data byte, whole, in its register. -/
theorem exec_bankRow_of_mem {b reg : Nat} {i : Instr} (hi : bankRow k reg a d = some i)
    (hc : s.cfg = some c) (hk : c.kind = k) (hm : (b, reg) ∈ triggers k) (hlo : b ≤ a.toNat)
    (hhi : a.toNat < b + triggerWidth s.params.konamiWide k) :
    exec i s = .next { s with bank := s.bank.set reg d } := by
  rw [exec_bankRow hi, triggerOfKind,
    if_pos ⟨by simp [State.kind, hc, hk], triggerRegister_of_mem hm hlo hhi⟩]
  rfl

/-- A mapper write stores its byte in the register its address triggers, if there is one. -/
theorem mapperWrite_of_cfg (hc : s.cfg = some c) (a : Half) (d : Byte) :
    mapperWrite a d s = { s with
      bank := (triggerRegister s.params.konamiWide c.kind a).elim s.bank (s.bank.set · d) } := by
  cases hr : triggerRegister s.params.konamiWide c.kind a with
  | none => exact show mapperWrite a d s = s by simp [mapperWrite, hc, hr]
  | some r => exact show mapperWrite a d s = setBank r d s by simp [mapperWrite, hc, hr]

/-- A memory write in the window stores its byte in the register its address triggers, if there is
one, and holds (rules R164, R165). -/
theorem exec_memwr_trigger (hc : s.cfg = some c) (hw : inWindow c.kind a = true) :
    exec (.memwr a d) s = .next { s.withPhase (.holding .wr) with
      bank := (triggerRegister s.params.konamiWide c.kind a).elim s.bank (s.bank.set · d) } := by
  rw [exec_memwr_of_inWindow hc hw, mapperWrite_of_cfg hc]
  rfl

/-- Settles O30: the register by the address ranges, then one range for each row. -/
theorem konamiSccTriggersWriteTheirRegister : Obligations.KonamiSccTriggersWriteTheirRegister := by
  intro s c a d hc hk hlo hhi
  have hw : inWindow c.kind a = true := by rw [hk]; exact inWindow_of_bounds hlo hhi
  refine ⟨?_, fun hl hh => ?_, fun hl hh => ?_, fun hl hh => ?_, fun hl hh => ?_⟩
  · rw [exec_memwr_trigger hc hw, hk, triggerRegister_konamiScc]
    split_ifs <;> rfl
  · exact exec_bankRow_of_mem rfl hc hk (b := 0x5000) (by decide) hl (Nat.lt_succ_of_le hh)
  · exact exec_bankRow_of_mem rfl hc hk (b := 0x7000) (by decide) hl (Nat.lt_succ_of_le hh)
  · exact exec_bankRow_of_mem rfl hc hk (b := 0x9000) (by decide) hl (Nat.lt_succ_of_le hh)
  · exact exec_bankRow_of_mem rfl hc hk (b := 0xB000) (by decide) hl (Nat.lt_succ_of_le hh)

/-- Settles O31: as for KonamiSCC, with the ranges of the width the parameters name. -/
theorem konamiTriggersWriteTheirRegister : Obligations.KonamiTriggersWriteTheirRegister := by
  intro s c a d width hc hk hlo hhi hwidth
  have hw : inWindow c.kind a = true := by rw [hk]; exact inWindow_of_bounds hlo hhi
  have hrange : ∀ b, a.toNat ≤ b + width - 1 →
      a.toNat < b + triggerWidth s.params.konamiWide .konami := by
    intro b hh
    have hpos : 0 < width := by rw [hwidth]; split <;> decide
    have : triggerWidth s.params.konamiWide .konami = width := hwidth.symm
    omega
  refine ⟨?_, fun hl hh => ?_, fun hl hh => ?_, fun hl hh => ?_⟩
  · rw [exec_memwr_trigger hc hw, hk, triggerRegister_konami, ← hwidth]
    split_ifs <;> rfl
  · exact exec_bankRow_of_mem rfl hc hk (b := 0x6000) (by decide) hl (hrange _ hh)
  · exact exec_bankRow_of_mem rfl hc hk (b := 0x8000) (by decide) hl (hrange _ hh)
  · exact exec_bankRow_of_mem rfl hc hk (b := 0xA000) (by decide) hl (hrange _ hh)

/-- Settles O32: as for KonamiSCC, with ASCII8's ranges. -/
theorem ascii8TriggersWriteTheirRegister : Obligations.Ascii8TriggersWriteTheirRegister := by
  intro s c a d hc hk hlo hhi
  have hw : inWindow c.kind a = true := by rw [hk]; exact inWindow_of_bounds hlo hhi
  refine ⟨?_, fun hl hh => ?_, fun hl hh => ?_, fun hl hh => ?_, fun hl hh => ?_⟩
  · rw [exec_memwr_trigger hc hw, hk, triggerRegister_ascii8]
    split_ifs <;> rfl
  · exact exec_bankRow_of_mem rfl hc hk (b := 0x6000) (by decide) hl (Nat.lt_succ_of_le hh)
  · exact exec_bankRow_of_mem rfl hc hk (b := 0x6800) (by decide) hl (Nat.lt_succ_of_le hh)
  · exact exec_bankRow_of_mem rfl hc hk (b := 0x7000) (by decide) hl (Nat.lt_succ_of_le hh)
  · exact exec_bankRow_of_mem rfl hc hk (b := 0x7800) (by decide) hl (Nat.lt_succ_of_le hh)

/-- Settles O33: as for KonamiSCC, with ASCII16's ranges. -/
theorem ascii16TriggersWriteTheirRegister : Obligations.Ascii16TriggersWriteTheirRegister := by
  intro s c a d hc hk hlo hhi
  have hw : inWindow c.kind a = true := by rw [hk]; exact inWindow_of_bounds hlo hhi
  refine ⟨?_, fun hl hh => ?_, fun hl hh => ?_⟩
  · rw [exec_memwr_trigger hc hw, hk, triggerRegister_ascii16]
    split_ifs <;> rfl
  · exact exec_bankRow_of_mem rfl hc hk (b := 0x6000) (by decide) hl (Nat.lt_succ_of_le hh)
  · exact exec_bankRow_of_mem rfl hc hk (b := 0x7000) (by decide) hl (Nat.lt_succ_of_le hh)

/-- Settles O34: an unbanked kind has no trigger, and the frame of a cycle holds the store and the
image. -/
theorem unbankedKindsIgnoreWrites : Obligations.UnbankedKindsIgnoreWrites := by
  refine ⟨fun s c a d hc hkind hlo hhi => ?_, fun c s t h => ?_⟩
  · have hb : banked c.kind = false := by
      rcases hkind with hk | hk | hk <;> rw [hk] <;> rfl
    rw [exec_memwr_trigger hc (inWindow_of_bounds hlo (windowEnd_eq c.kind ▸ hhi)),
      triggerRegister_unbanked _ hb]
    rfl
  · have hframe := exec_cycle_frame h
    exact ⟨hframe.rbs, hframe.img⟩

end Sys2Proof.Machine
end

section
/-! The Storage Command Protocol Bridge (42_storage_bridge.md): each command in opcode position, the
address bytes and the trigger, the data port, and the transition table of the phases. -/

namespace Sys2Proof.Machine

variable {s : State}

/-! ### Rows under their conditions -/

/-- In opcode position an opcode row has its effect (rule R95). -/
theorem atOpcode_of_in {op : Byte} (h : InOpcodePosition s.bridge op) (f : State → State) :
    atOpcode op f s = f s :=
  if_pos (opcodePosition_of_in h)

theorem exec_addr_of_phase {k : AddrLeft} (h : s.bridge.phase = .awaitAddr k) (v : Byte) :
    exec (.addr v) s = .next (onBridge (Bridge.addrByte k v) s) := by
  simp [exec, execAddr, h]

theorem exec_go_of_phase (h : s.bridge.phase = .awaitGo) :
    exec .go s = .next (sectorRead s.bridge.sectorAddress s) := by
  simp [exec, execGo, h, goCommand]

/-! ### Ports (rules R94, R191) -/

/-- A read at the control port is `CTLRD`, whatever the upper address byte. -/
theorem exec_iord_portCtrl (cs : Bool) (hi d : Byte) :
    exec (.iord cs (ioAddress hi s.params.portCtrl) d) s = .next (ctlRead s) := by
  simp [exec, execIord]

/-- A read at the data port is `DATRD`. -/
theorem exec_iord_portData (hne : s.params.portCtrl ≠ s.params.portData) (cs : Bool) (hi d : Byte) :
    exec (.iord cs (ioAddress hi s.params.portData) d) s = .next (datRead s) := by
  simp [exec, execIord, hne.symm]

/-- A write at the data port is `DATWR` and then the hold. -/
theorem exec_iowr_portData (hne : s.params.portCtrl ≠ s.params.portData) (cs : Bool) (hi v : Byte) :
    exec (.iowr cs (ioAddress hi s.params.portData) v) s = .next (holdWrite (datWrite v s)) := by
  simp [exec, execIowr, hne.symm]

/-- Settles O36: the row drives the status, and the cycle at the port is the row. -/
theorem controlReadDrivesTheStatus : Obligations.ControlReadDrivesTheStatus :=
  fun _ cs hi d => ⟨rfl, exec_iord_portCtrl cs hi d⟩

/-! ### The two sub-blocks (rule R219) -/

/-- Settles O35: the frame of a cycle and of a selection, and the route of each kind of cycle. -/
theorem subBlocksShareNoState : Obligations.SubBlocksShareNoState := by
  refine ⟨fun s t a d h => ?_, fun s t cs a d h => ?_, fun s t n h => ?_⟩
  · rcases h with h | h
    · have hf := exec_cycle_frame (c := ⟨a, d, true, false, true, false⟩) h
      exact ⟨(exec_memrd_route h).1, hf.cfg, hf.rbs⟩
    · have hf := exec_cycle_frame (c := ⟨a, d, false, true, true, false⟩) h
      exact ⟨exec_memwr_bridge h, hf.cfg, hf.rbs⟩
  · rcases h with h | h
    · have hf := exec_cycle_frame (c := ⟨a, d, true, false, cs, true⟩) h
      exact ⟨hf.cfg, exec_iord_bank h, hf.rbs⟩
    · have hf := exec_cycle_frame (c := ⟨a, d, false, true, cs, true⟩) h
      exact ⟨hf.cfg, exec_iowr_bank h, hf.rbs⟩
  · obtain rfl := Host.Outcome.next.inj h
    obtain ⟨-, -, hbridge, -⟩ := selectIndex_same s n
    exact hbridge

/-! ### Commands without a sector (rules R201 to R206, R210, R212) -/

/-- A status command makes its call and ends idle with the code of the driver's answer. -/
theorem statusCommand_eq (op : Byte) (call : DriverCall) (s : State) :
    statusCommand op call s = (s.afterCall call).withBridge { s.bridge with
      opcode := op, bytesPendingIn := 0#16, bytesPendingOut := 0#16, phase := .idle
      ctrlReg := if s.nextReply.status = .ok then 0x00#8 else 0xFF#8 } := by
  rw [statusCommand, callDriver_eq]
  cases s.nextReply.status <;> rfl

/-- Settles O39: both are status commands. -/
theorem statusCommandsReportTheDriversStatus :
    Obligations.StatusCommandsReportTheDriversStatus := by
  intro s op call i hi hpos
  rw [← statusCommand_eq, ← atOpcode_of_in hpos (statusCommand op call)]
  rcases hi with ⟨rfl, rfl, rfl⟩ | ⟨rfl, rfl, rfl⟩ <;> rfl

/-- Staging a payload opens a read transfer of four bytes, the least significant first, and leaves
the rest of the buffer. -/
theorem exists_stagePayload_eq (b : Bridge) (x : Word) : ∃ buf : Block,
    b.stagePayload x = { b with
      bytesPendingOut := 4#16, cursor := 0#16, phase := .xferRead, blockBuffer := buf } ∧
    buf[0] = x.extractLsb' 0 8 ∧ buf[1] = x.extractLsb' 8 8 ∧ buf[2] = x.extractLsb' 16 8 ∧
    buf[3] = x.extractLsb' 24 8 ∧ ∀ k : Fin 512, 4 ≤ k.val → buf[k] = b.blockBuffer[k] :=
  ⟨(b.stagePayload x).blockBuffer, rfl, stagePayload_buffer b x⟩

/-- Settles O40: the payload is the parameter. -/
theorem identifierAndSerialAreStagedLittleEndian :
    Obligations.IdentifierAndSerialAreStagedLittleEndian := by
  intro s op x i hi hpos
  obtain ⟨buf, hstage, hbuf⟩ := exists_stagePayload_eq (s.bridge.startOpcode op) x
  have hexec : exec i s = .next (s.withBridge ((s.bridge.startOpcode op).stagePayload x)) := by
    rcases hi with ⟨rfl, rfl, rfl⟩ | ⟨rfl, rfl, rfl⟩ <;>
      exact congrArg Host.Outcome.next (atOpcode_of_in hpos _)
  exact ⟨buf, by rw [hexec, hstage]; rfl, hbuf⟩

/-- Settles O41: the payload is the driver's count. -/
theorem capacityIsStagedLittleEndian : Obligations.CapacityIsStagedLittleEndian := by
  intro s hpos
  obtain ⟨buf, hstage, hbuf⟩ := exists_stagePayload_eq (s.bridge.startOpcode 0x05#8) s.nextReply.count
  have hexec : exec .getcap s = .next ((s.afterCall .sectorCount).withBridge
      ((s.bridge.startOpcode 0x05#8).stagePayload s.nextReply.count)) := by
    refine congrArg Host.Outcome.next ?_
    rw [atOpcode_of_in hpos, getCapacityCommand, callDriver_eq]
    rfl
  exact ⟨buf, by rw [hexec, hstage]; rfl, hbuf⟩

/-- Settles O42: both rows are `BeginAddr` after their opcode. -/
theorem addressedCommandsBeginWithAClearAddress :
    Obligations.AddressedCommandsBeginWithAClearAddress := by
  intro s op i hi hpos
  rcases hi with ⟨rfl, rfl⟩ | ⟨rfl, rfl⟩ <;>
    exact congrArg Host.Outcome.next (atOpcode_of_in hpos _)

/-- Settles O49: in opcode position the row is `DropTransfer` alone. -/
theorem unrecognisedOpcodeOnlyDropsTheTransfer :
    Obligations.UnrecognisedOpcodeOnlyDropsTheTransfer :=
  fun _ _ _ hpos => congrArg Host.Outcome.next (atOpcode_of_in hpos _)

/-! ### The sector address and the sector read (rules R207 to R209, R213) -/

/-- Settles O43: `j` is the index of the byte that arrives next. -/
theorem addressByteIsOredInAtItsPosition : Obligations.AddressByteIsOredInAtItsPosition := by
  intro s v k j hp hj
  obtain rfl : j = k.index := hj
  rw [exec_addr_of_phase hp]
  refine ⟨fun hk => ?_, fun hk hop => ?_, fun hk hop => ?_⟩
  · cases k with
    | four => exact ⟨.three, rfl, rfl⟩
    | three => exact ⟨.two, rfl, rfl⟩
    | two => exact ⟨.one, rfl, rfl⟩
    | one => exact absurd rfl hk
  · subst hk
    simp [onBridge, Bridge.addrByte, hop, State.withBridge, byteAt]
  · subst hk
    simp [onBridge, Bridge.addrByte, hop, State.withBridge, byteAt, Bridge.openWrite]

theorem sectorRead_of_ok (h : s.nextReply.status = .ok) (i : Word) :
    sectorRead i s =
      onBridge (Bridge.openRead s.nextReply.data) (s.afterCall (.readSector i)) := by
  rw [sectorRead, h, callDriver_eq]

theorem sectorRead_of_err (h : s.nextReply.status = .err) (i : Word) :
    sectorRead i s =
      onBridge (fun b => { b.raiseStorageError with blockBuffer := Config.staleBlock s.env.draws })
        (s.afterCall (.readSector i)) := by
  rw [sectorRead, h, callDriver_eq]

/-- Settles O45: one read of the addressed sector. -/
theorem goReadsTheAddressedSector : Obligations.GoReadsTheAddressedSector := by
  intro s hp
  rw [exec_go_of_phase hp]
  refine ⟨fun hok => ?_, fun herr => ⟨Config.staleBlock s.env.draws, ?_⟩⟩
  · rw [sectorRead_of_ok hok]; rfl
  · rw [sectorRead_of_err herr]; rfl

/-- Settles O46: one read of the next sector, from a bridge that keeps its address. -/
theorem readNextAdvancesThenReads : Obligations.ReadNextAdvancesThenReads := by
  intro s next hpos hnext
  obtain rfl : next = s.bridge.sectorAddress + 1#32 :=
    BitVec.eq_of_toNat_eq (by rw [hnext, BitVec.toNat_add]; rfl)
  have hexec : exec .rdnext s = .next (readNextCommand s) :=
    congrArg Host.Outcome.next (atOpcode_of_in hpos _)
  rw [hexec, readNextCommand]
  refine ⟨fun hok => ?_, fun herr => ⟨Config.staleBlock s.env.draws, ?_⟩⟩
  · rw [sectorRead_of_ok (by exact hok)]; rfl
  · rw [sectorRead_of_err (by exact herr)]; rfl

/-! ### The data port (rules R199, R200) -/

theorem datRead_repeat (h : s.bridge.bytesPendingOut = 0#16) :
    datRead s = drive s.bridge.dataReg s := if_pos h

theorem datRead_deliver (h : s.bridge.bytesPendingOut ≠ 0#16) :
    datRead s = drive s.bridge.byteAtCursor (onBridge Bridge.deliver s) := if_neg h

/-- Delivering the byte under a cursor inside the buffer. -/
theorem deliver_eq {b : Bridge} {k : Fin 512} (h : b.cursor.toNat = k.val) :
    b.deliver = { b with
      cursor := b.cursor + 1#16, bytesPendingOut := b.bytesPendingOut - 1#16
      dataReg := b.blockBuffer[k]
      phase := if b.bytesPendingOut = 1#16 then .idle else b.phase } := by
  simp only [Bridge.deliver, byteAtCursor_eq h, sub_one_eq_zero]

/-- Settles O47: the cycle at the port is the row, and the row has one lemma for each branch. -/
theorem dataReadDeliversOrRepeats : Obligations.DataReadDeliversOrRepeats := by
  intro s cs hi d hne
  refine ⟨exec_iord_portData hne cs hi d, fun h0 => ?_, fun k h0 hk => ?_⟩
  · exact congrArg Host.Outcome.next (datRead_repeat h0)
  · refine congrArg Host.Outcome.next ?_
    rw [datRead_deliver h0, byteAtCursor_eq hk, onBridge, deliver_eq hk]
    rfl

/-- The last awaited byte: the whole buffer goes to the driver, whose answer decides the rest. -/
theorem datWrite_commit {k : Fin 512} (hk : s.bridge.cursor.toNat = k.val)
    (h1 : s.bridge.bytesPendingIn = 1#16) (v : Byte) :
    datWrite v s =
      (s.afterCall (.writeSector s.bridge.sectorAddress (s.bridge.blockBuffer.set k v))).withBridge
        ((if s.nextReply.status = .ok then Bridge.committed else Bridge.raiseStorageError)
          { s.bridge with
            dataReg := v, blockBuffer := s.bridge.blockBuffer.set k v
            cursor := s.bridge.cursor + 1#16, bytesPendingIn := 0#16 }) := by
  rw [datWrite_last h1, onBridge, accept_eq hk, h1, BitVec.sub_self, commitSector_eq]
  rfl

/-- Settles O48: one lemma for each branch; the commit splits by the driver's answer. -/
theorem dataWriteStoresAndCommits : Obligations.DataWriteStoresAndCommits := by
  intro s cs hi v hne
  refine ⟨⟨datWrite v s, rfl, exec_iowr_portData hne cs hi v⟩, fun h0 => ?_, fun k hk =>
    ⟨fun h0 h1 => ?_, fun h1 hok => ?_, fun h1 herr => ?_⟩⟩ <;> refine congrArg Host.Outcome.next ?_
  · exact datWrite_idle h0 v
  · rw [datWrite_store h0 h1, onBridge, accept_eq hk]
    rfl
  · rw [datWrite_commit hk h1, if_pos hok]
    rfl
  · rw [datWrite_commit hk h1, if_neg (by rw [herr]; decide)]
    rfl

/-! ### The transition table (rule R197) -/

theorem sectorRead_phase (i : Word) (s : State) : (sectorRead i s).bridge.phase =
    if s.nextReply.status = .ok then .xferRead else .idle := by
  cases h : s.nextReply.status with
  | ok => rw [sectorRead_of_ok h]; rfl
  | err => rw [sectorRead_of_err h]; rfl

/-- Every byte but the eight opcodes is unrecognised (rules R96, R196). -/
theorem opcodeByte_of_unrecognised {v : Byte} (hv : v.toNat = 0 ∨ 9 ≤ v.toNat) (s : State) :
    opcodeByte v s = unrecognised s := by
  unfold opcodeByte
  split
  case h_9 => rfl
  all_goals omega

/-- The phase after a byte in opcode position: one case for each opcode, one for the other bytes. -/
theorem opcodeByte_phase (v : Byte) (s : State) : (opcodeByte v s).bridge.phase =
    if v = 0x06#8 then .awaitAddr .four
    else if v = 0x08#8 then .awaitAddr .four
    else if v = 0x07#8 then (if s.nextReply.status = .ok then .xferRead else .idle)
    else if v = 0x03#8 ∨ v = 0x04#8 ∨ v = 0x05#8 then .xferRead
    else .idle := by
  by_cases hv : v.toNat = 0 ∨ 9 ≤ v.toNat
  · rw [opcodeByte_of_unrecognised hv, if_neg, if_neg, if_neg, if_neg]
    · rfl
    all_goals bv_omega
  · obtain rfl | rfl | rfl | rfl | rfl | rfl | rfl | rfl : v = 0x07#8 ∨ v = 0x01#8 ∨ v = 0x02#8 ∨
        v = 0x03#8 ∨ v = 0x04#8 ∨ v = 0x05#8 ∨ v = 0x06#8 ∨ v = 0x08#8 := by bv_omega
    · exact sectorRead_phase _ _
    all_goals rfl

theorem addrByte_one_phase (v : Byte) (b : Bridge) : (b.addrByte .one v).phase =
    if b.opcode = 0x06#8 then .awaitGo else .xferWrite := by
  simp only [Bridge.addrByte]
  split <;> rfl

/-- The phase after a data-port read. -/
theorem datRead_phase (h : BridgeOk s.bridge) : (datRead s).bridge.phase =
    if s.bridge.phase = .xferRead ∧ s.bridge.bytesPendingOut = 1#16 then .idle
    else s.bridge.phase := by
  rcases datRead_eq s with ⟨e, h0⟩ | ⟨e, h0⟩
  · rw [e, if_neg (fun hc => h.readPhase.1 hc.1 h0)]
    rfl
  · simp [e, Bridge.deliver, sub_one_eq_zero, h.readPhase.2 h0]

/-- The phase after a data-port write. -/
theorem datWrite_phase (h : BridgeOk s.bridge) (v : Byte) : (datWrite v s).bridge.phase =
    if s.bridge.phase = .xferWrite ∧ s.bridge.bytesPendingIn = 1#16 then .idle
    else s.bridge.phase := by
  by_cases h0 : s.bridge.bytesPendingIn = 0#16
  · rw [datWrite_idle h0, if_neg (fun hc => h.writePhase.1 hc.1 h0)]
    rfl
  by_cases h1 : s.bridge.bytesPendingIn = 1#16
  · rw [if_pos ⟨h.writePhase.2 h0, h1⟩, datWrite_last h1, commitSector_eq]
    split <;> rfl
  · rw [datWrite_store h0 h1, if_neg (fun hc => h1 hc.2)]
    rfl

/-- How many control writes of `0x00` a phase is away from idle. -/
def zerosToIdle : StoragePhase → Nat
  | .idle => 0
  | .awaitGo | .xferRead | .xferWrite => 1
  | .awaitAddr k => k.toNat + 1

theorem zerosToIdle_le (p : StoragePhase) : zerosToIdle p ≤ 5 := by
  cases p with
  | awaitAddr k => cases k <;> decide
  | idle | awaitGo | xferRead | xferWrite => simp [zerosToIdle]

theorem zerosToIdle_eq_zero {p : StoragePhase} (h : zerosToIdle p = 0) : p = .idle := by
  cases p with
  | idle => rfl
  | awaitAddr k => cases h
  | awaitGo | xferRead | xferWrite => cases h

/-- A control write of `0x00` changes the bridge alone and brings it one write nearer to idle. -/
theorem ctlWrite_zero (s : State) : ∃ f, ctlWrite 0x00#8 s = onBridge f s ∧
    zerosToIdle (f s.bridge).phase = zerosToIdle s.bridge.phase - 1 := by
  cases hp : s.bridge.phase with
  | awaitAddr k =>
    refine ⟨_, ctlWrite_address hp _, ?_⟩
    cases k with
    | one => rw [addrByte_one_phase]; split <;> rfl
    | four | three | two => rfl
  | idle | awaitGo | xferRead | xferWrite =>
    exact ⟨Bridge.dropTransfer, by simp [ctlWrite, hp, opcodeByte, unrecognised], rfl⟩

/-- So enough of them bring it to idle, from any phase, without a driver call. -/
theorem runEvents_zeros {n : Nat} (h : zerosToIdle s.bridge.phase ≤ n) :
    ∃ t, runEvents (List.replicate n (portWriteCycle s.params.portCtrl 0x00#8)) s = .next t ∧
      t.bridge.phase = .idle ∧ t.record = s.record := by
  induction n generalizing s with
  | zero => exact ⟨s, rfl, zerosToIdle_eq_zero (Nat.le_zero.mp h), rfl⟩
  | succ n ih =>
    obtain ⟨f, hf, hphase⟩ := ctlWrite_zero s
    rw [List.replicate_succ, (runEvents_ctlWrite rfl _ _).1, hf]
    exact ih (s := toReleased (onBridge f s)) (by rw [toReleased_bridge, onBridge_bridge]; omega)

/-- Settles O38: the table by the phase, each port by its own lemma. -/
theorem phaseTransitionsFollowTheTable : Obligations.PhaseTransitionsFollowTheTable := by
  refine ⟨fun s cs hi v hok => ⟨⟨ctlWrite v s, rfl, ?_⟩, ⟨_, rfl, datRead_phase hok⟩,
    ⟨_, rfl, datWrite_phase hok v⟩, ⟨_, rfl, rfl⟩⟩, fun s => runEvents_zeros (zerosToIdle_le _)⟩
  cases hp : s.bridge.phase with
  | awaitAddr k =>
    rw [ctlWrite_address hp]
    cases k with
    | one => exact addrByte_one_phase v s.bridge
    | four | three | two => rfl
  | awaitGo =>
    by_cases hv : v = 0x06#8
    · subst hv
      rw [ctlWrite_trigger hp]
      exact sectorRead_phase _ s
    · rw [ctlWrite_of_in ⟨by simp [hp], fun _ => hv⟩, opcodeByte_phase, if_neg hv]
      exact (if_neg hv).symm
  | idle | xferRead | xferWrite =>
    rw [ctlWrite_of_in ⟨by simp [hp], by simp [hp]⟩, opcodeByte_phase]
    rfl

end Sys2Proof.Machine
end

section
/-! The Configuration Table Reader (43_config_table.md): the mapper codes and the size conditions of a
usable record. -/

namespace Sys2Proof.Machine

/-! ### Mapper codes (rule R101) -/

theorem kindOfCode_eq_some_iff {m : Byte} {k : MapperKind} :
    kindOfCode m = some k ↔ m = kindCode k := by
  refine ⟨fun h => ?_, fun h => h ▸ kindOfCode_kindCode k⟩
  unfold kindOfCode at h
  split at h <;> cases h
  all_goals exact BitVec.eq_of_toNat_eq ‹_›

theorem kindCode_bounds (k : MapperKind) : 1 ≤ (kindCode k).toNat ∧ (kindCode k).toNat ≤ 7 := by
  cases k <;> decide

/-- The codes 1 to 7 are the codes of the kinds: a code that names none is 0 or at least 8. -/
theorem exists_eq_kindCode {m : Byte} (hlo : 1 ≤ m.toNat) (hhi : m.toNat ≤ 7) :
    ∃ k, m = kindCode k := by
  cases hk : kindOfCode m with
  | some k => exact ⟨k, kindOfCode_eq_some_iff.1 hk⟩
  | none =>
    unfold kindOfCode at hk
    interval_cases m.toNat <;> cases hk

/-! ### The conditions of rule R257 -/

theorem usableSize_iff {capacity n : Nat} {k : MapperKind} : usableSize capacity k n = true ↔
    (1 ≤ n ∧ n ≤ capacity) ∧
    (banked k = true → segmentSize k ≤ n ∧ n % segmentSize k = 0) := by
  cases hb : banked k <;> simp [usableSize, hb]

/-- The banked kinds by their codes, each with the segment size of its row of rule R150. -/
theorem segmentCondition_iff (k : MapperKind) (n : Nat) :
    (banked k = true → segmentSize k ≤ n ∧ n % segmentSize k = 0) ↔
    (kindCode k = 3#8 ∨ kindCode k = 5#8 ∨ kindCode k = 7#8 → 0x2000 ≤ n ∧ n % 0x2000 = 0) ∧
    (kindCode k = 6#8 → 0x4000 ≤ n ∧ n % 0x4000 = 0) := by
  cases k <;> simp [banked, registers, segmentSize, kindCode]

theorem usable_iff {capacity : Nat} {r : RomRecord} : usable capacity r = true ↔
    ∃ k, r.mapper = kindCode k ∧ usableSize capacity k r.size.toNat = true := by
  simp only [← kindOfCode_eq_some_iff, usable]
  cases kindOfCode r.mapper <;> simp

/-- Settles O56: a record with a code from 1 to 7 has the code of a kind, whose size conditions are
the statement's. -/
theorem usableRecordsMeetTheSizeConditions :
    Obligations.UsableRecordsMeetTheSizeConditions := by
  intro capacity r
  rw [usable_iff]
  constructor
  · rintro ⟨k, hk, hsize⟩
    rw [usableSize_iff, segmentCondition_iff] at hsize
    rw [hk]
    exact ⟨kindCode_bounds k, hsize⟩
  · rintro ⟨⟨hlo, hhi⟩, hsize⟩
    obtain ⟨k, hk⟩ := exists_eq_kindCode hlo hhi
    rw [hk] at hsize
    exact ⟨k, hk, usableSize_iff.2 (by rwa [segmentCondition_iff])⟩

end Sys2Proof.Machine
end

section
/-! Decoding and encoding (30_encoding.md): what each format decodes to, row by row, and the two
directions of the encoding of a bus cycle. -/

namespace Sys2Proof.Machine

variable {ctx : Ctx} {k : MapperKind} {reg : Nat} {a : Half} {d : Byte} {i : Instr}

/-! ### Bus cycles (rules R90 to R94) -/

theorem decode_busCode (ctx : Ctx) (cs io rd wr : Bool) (a : Half) (d : Byte) :
    decode ctx (busCode cs io rd wr a d) = some (refine ctx
      { address := a, data := d, isRead := rd, isWrite := wr, chipSelected := cs,
        ioRequest := io }) := by
  simp [decode, busCode]

/-- A memory read is decoded to the selected kind's read row in its window (rule R151). -/
theorem decode_readRow (hk : kindSelected ctx k = true) (hw : inWindow k a = true) :
    decode ctx (readCode a d) = some (readRow k a d) := by
  have hkind : ctx.kind = some k := by simpa [kindSelected] using hk
  rw [readCode, decode_busCode]
  simp [refine, decodeCycle, refineRead, hkind, hw]

/-- A memory read that is no read row keeps its kind's row. -/
theorem decode_memrd (h : rowApplies ctx (.memrd a d) = true) :
    decode ctx (readCode a d) = some (.memrd a d) := by
  rw [readCode, decode_busCode]
  cases hk : ctx.kind with
  | none => simp [refine, decodeCycle, refineRead, hk]
  | some k =>
    have hw : inWindow k a = false := by simpa [rowApplies, hk] using h
    simp [refine, decodeCycle, refineRead, hk, hw]

/-- A memory write is decoded to the row of the register it triggers (rule R103). -/
theorem decode_bankRow (h : triggerSelected ctx k reg a = true) (hi : bankRow k reg a d = some i) :
    decode ctx (writeCode a d) = some i := by
  obtain ⟨hkind, hreg⟩ :
      ctx.kind = some k ∧ triggerRegister ctx.konamiWide k a = some reg := by
    simpa [triggerSelected, kindSelected] using h
  rw [writeCode, decode_busCode]
  simp [refine, decodeCycle, refineWrite, hkind, hreg, hi]

/-- A memory write that triggers nothing keeps its kind's row. -/
theorem decode_memwr (h : rowApplies ctx (.memwr a d) = true) :
    decode ctx (writeCode a d) = some (.memwr a d) := by
  rw [writeCode, decode_busCode]
  cases hk : ctx.kind with
  | none => simp [refine, decodeCycle, refineWrite, hk]
  | some k =>
    have hreg : triggerRegister ctx.konamiWide k a = none := by simpa [rowApplies, hk] using h
    simp [refine, decodeCycle, refineWrite, hk, hreg]

theorem decode_ioRead (ctx : Ctx) (cs : Bool) (a : Half) (d : Byte) :
    decode ctx (busCode cs true true false a d) = some (refineIoRead ctx cs a d) := by
  rw [decode_busCode]; rfl

theorem decode_ioWrite (ctx : Ctx) (cs : Bool) (a : Half) (d : Byte) :
    decode ctx (busCode cs true false true a d) = some (refineIoWrite ctx cs a d) := by
  rw [decode_busCode]; rfl

/-- An I/O cycle at neither port keeps its kind's row (rule R94). -/
theorem refineIo_otherPort (h : otherPort ctx a = true) (cs : Bool) (d : Byte) :
    refineIoRead ctx cs a d = .iord cs a d ∧ refineIoWrite ctx cs a d = .iowr cs a d := by
  obtain ⟨hc, hd⟩ : portOf a ≠ ctx.portCtrl ∧ portOf a ≠ ctx.portData := by
    simpa [otherPort] using h
  simp [refineIoRead, refineIoWrite, hc, hd]

theorem refineIo_portCtrl (ctx : Ctx) (cs : Bool) (hi d : Byte) :
    refineIoRead ctx cs (ioAddress hi ctx.portCtrl) d = .ctlrd cs hi d ∧
    refineIoWrite ctx cs (ioAddress hi ctx.portCtrl) d = .ctlwr cs hi d := by
  simp [refineIoRead, refineIoWrite]

theorem refineIo_portData (h : (ctx.portData != ctx.portCtrl) = true) (cs : Bool) (hi d : Byte) :
    refineIoRead ctx cs (ioAddress hi ctx.portData) d = .datrd cs hi d ∧
    refineIoWrite ctx cs (ioAddress hi ctx.portData) d = .datwr cs hi d := by
  have hne : ctx.portData ≠ ctx.portCtrl := by simpa using h
  simp [refineIoRead, refineIoWrite, hne]

/-! ### Control-port bytes and records (rules R95, R96, R101, R107) -/

/-- In opcode position a control-port byte is decoded as an opcode. -/
theorem decodeCommand_of_opcodePosition {b : Byte} (h : opcodePosition ctx b = true) :
    decodeCommand ctx.position b = decodeOpcode b := by
  cases hp : ctx.position with
  | opcode => rfl
  | address => simp [opcodePosition, hp] at h
  | trigger =>
    have hb : b ≠ 0x06#8 := by simpa [opcodePosition, hp] using h
    exact if_neg hb

/-- Outside address position every byte but the trigger's is in opcode position. -/
theorem opcodePosition_of_ne_address {b : Byte} (h : (ctx.position != .address) = true)
    (hb : b ≠ 0x06#8) : opcodePosition ctx b = true := by
  cases hp : ctx.position with
  | opcode => simp [opcodePosition, hp]
  | address => simp [hp] at h
  | trigger => simp [opcodePosition, hp, hb]

theorem decodeOpcode_of_unrec {b : Byte} (h : wellFormedUnrec b = true) :
    decodeOpcode b = .unrec b := by
  have hb : b.toNat = 0 ∨ 9 ≤ b.toNat := by simpa [wellFormedUnrec] using h
  unfold decodeOpcode
  split
  case h_9 => rfl
  all_goals omega

theorem decode_opcode {b : Byte} (h : opcodePosition ctx b = true) :
    decode ctx (.cmd8 b) = some (decodeOpcode b) :=
  congrArg some (decodeCommand_of_opcodePosition h)

/-- A record of a kind is decoded to that kind's row. -/
theorem decode_recordCode {name : List Byte} (h : wellFormedName name = true) (ctx : Ctx)
    (k : MapperKind) (size offset : Word) :
    decode ctx (recordCode k name size offset) = some (kindRow k name size offset) := by
  obtain ⟨hrec, hlen⟩ := recordOfBytes_bytesOfRecord
    { name := name, mapper := kindCode k, size := size, offset := offset }
    (by simpa [wellFormedName] using h)
  simp [decode, recordCode, decodeRecord, hrec, hlen, kindOfCode_kindCode]

/-! ### Both directions -/

/-- Settles O1: one lemma for each format, whose context is the row's condition. -/
theorem decodeOfEncodeIsTheInstruction : Obligations.DecodeOfEncodeIsTheInstruction := by
  intro ctx i w hwf happ henc
  cases i <;> cases henc
  case memrd => exact decode_memrd happ
  case memwr => exact decode_memwr happ
  case iord => exact (decode_ioRead ..).trans (congrArg some (refineIo_otherPort happ ..).1)
  case iowr => exact (decode_ioWrite ..).trans (congrArg some (refineIo_otherPort happ ..).2)
  case nostb => rw [decode_busCode]; rfl
  case both => rw [decode_busCode]; rfl
  case nosel r _ _ => rw [decode_busCode]; cases r <;> rfl
  case rdPlain16 | rdPlain32 | rdLinear0 | rdKonamiScc | rdKonami | rdAscii8 | rdAscii16 =>
    exact decode_readRow happ hwf
  case bankKonamiScc0 | bankKonamiScc1 | bankKonamiScc2 | bankKonamiScc3 | bankKonami1 |
      bankKonami2 | bankKonami3 | bankAscii80 | bankAscii81 | bankAscii82 | bankAscii83 |
      bankAscii160 | bankAscii161 =>
    exact decode_bankRow happ rfl
  case ctlrd => exact (decode_ioRead ..).trans (congrArg some (refineIo_portCtrl ..).1)
  case ctlwr => exact (decode_ioWrite ..).trans (congrArg some (refineIo_portCtrl ..).2)
  case datrd => exact (decode_ioRead ..).trans (congrArg some (refineIo_portData happ ..).1)
  case datwr => exact (decode_ioWrite ..).trans (congrArg some (refineIo_portData happ ..).2)
  case init | present | getid | getser | getcap | rdnext | wrsec =>
    exact decode_opcode (opcodePosition_of_ne_address happ (by decide))
  case rdsec =>
    exact decode_opcode (Bool.or_eq_true_iff.2 (.inl happ))
  case unrec => rw [decode_opcode happ, decodeOpcode_of_unrec hwf]
  case addr v =>
    have hp : ctx.position = .address := by simpa [rowApplies] using happ
    rw [decode, hp]; rfl
  case go =>
    have hp : ctx.position = .trigger := by simpa [rowApplies] using happ
    rw [decode, hp]; rfl
  case stOk | stErr => rfl
  case kindPlain16 | kindPlain32 | kindKonamiScc | kindLinear0 | kindAscii8 | kindAscii16 |
      kindKonami =>
    exact decode_recordCode hwf ..

/-- The code of a cycle's kind is the cycle itself: no kind drops a bit of it (rule R92). -/
theorem encode_decodeCycle (ctx : Ctx) (c : BusCycle) :
    encode ctx (decodeCycle c) = some (.bus28 (busWord c)) := by
  obtain ⟨a, d, rd, wr, cs, io⟩ := c
  cases rd <;> cases wr <;> cases cs <;> cases io <;> rfl

/-- Settles O2: a word is the packing of the cycle it unpacks to. -/
theorem encodeOfDecodedBusWordIsTheWord : Obligations.EncodeOfDecodedBusWordIsTheWord := by
  intro ctx w
  rw [decodeBus, encode_decodeCycle, busWord_busCycle]

/-! ### Written-out words and bytes -/

/-- Settles O4: each word is a literal. -/
theorem spelledOutWordsDecode : Obligations.SpelledOutWordsDecode := by
  refine ⟨rfl, rfl, rfl, rfl, rfl, rfl, rfl, rfl⟩

/-- A byte is unrecognised, or one of the eight opcodes (rules R95, R96). -/
theorem opcode_values (b : Byte) : (b.toNat = 0 ∨ 9 ≤ b.toNat) ∨ b = 0x01#8 ∨ b = 0x02#8 ∨
    b = 0x03#8 ∨ b = 0x04#8 ∨ b = 0x05#8 ∨ b = 0x06#8 ∨ b = 0x07#8 ∨ b = 0x08#8 := by
  bv_omega

theorem decodeOpcode_eq (b : Byte) : decodeOpcode b =
    if b = 0x01#8 then .init else if b = 0x02#8 then .present else if b = 0x03#8 then .getid
    else if b = 0x04#8 then .getser else if b = 0x05#8 then .getcap
    else if b = 0x06#8 then .rdsec else if b = 0x07#8 then .rdnext
    else if b = 0x08#8 then .wrsec else .unrec b := by
  rcases opcode_values b with hb | rfl | rfl | rfl | rfl | rfl | rfl | rfl | rfl
  case inl =>
    rw [decodeOpcode_of_unrec (by simpa [wellFormedUnrec] using hb)]
    repeat rw [if_neg (by bv_omega)]
  all_goals rfl

/-- Settles O5: the opcode table in opcode position, and the two other positions by definition. -/
theorem opcodePositionBytesAreEightOpcodesOrUnrecognised :
    Obligations.OpcodePositionBytesAreEightOpcodesOrUnrecognised :=
  fun b => ⟨decodeOpcode_eq b, rfl, fun h => if_pos h, fun h => if_neg h⟩

end Sys2Proof.Machine
end

section
/-! Every operation answers a next state (rule R272), and which operation a step runs, for each of the
places where the block can be (rules R134, R302). -/

namespace Sys2Proof.Machine

variable {s t u : State}

/-! ### Answers -/

/-- No operation stops the machine. -/
theorem exec_answers (i : Instr) (s : State) : ∃ t, exec i s = .next t := by
  cases i
  case sample | drive | poll | release | hold | addr | go =>
    simp only [exec, execSample, execDrive, execPoll, execRelease, execHold, execAddr, execGo]
    split <;> exact ⟨_, rfl⟩
  all_goals exact ⟨_, rfl⟩

/-- Settles O8: a step is one operation, and then the instant passes. -/
theorem everyStepAndOperationAnswersANextState :
    Obligations.EveryStepAndOperationAnswersANextState := by
  refine ⟨fun s => ?_, exec_answers⟩
  obtain ⟨u, hu⟩ := exec_answers s.nextInstr s.prepare
  exact ⟨advance u, by rw [step, hu, mapNext_next]⟩

/-- One step, and then more. -/
theorem runSteps_succ (h : step s = .next t) (n : Nat) : runSteps (n + 1) s = runSteps n t := by
  rw [runSteps, h]

/-! ### The operation of a step -/

theorem step_of_sample (hr : s.bcc.stage = .running) (hp : s.bcc.phase = .released)
    (hs : s.AtSample) (hc : s.callOf s.sample = none) :
    step s = mapNext advance (exec (decodeCycle s.sample) (toPoint .top s)) := by
  have hn := pendingReselect_eq_none hs
  rcases hs with ht | ⟨ht, -⟩ <;>
    simp [step, State.nextInstr, State.prepare, State.turnInstr, State.turnPoint, hr, hp, ht, hn, hc]

theorem step_of_sampleCall (hr : s.bcc.stage = .running) (hp : s.bcc.phase = .released)
    (hs : s.AtSample) (hc : (s.callOf s.sample).isSome = true) :
    step s = mapNext advance (exec .sample (toPoint (.sampled s.sample s.now.busy) s)) := by
  have hn := pendingReselect_eq_none hs
  rcases hs with ht | ⟨ht, -⟩ <;>
    simp [step, State.nextInstr, State.prepare, State.turnInstr, State.turnPoint, hr, hp, ht, hn, hc]

theorem step_of_callRunning {c : BusCycle} {k : Nat} (hr : s.bcc.stage = .running)
    (hp : s.bcc.phase = .released)
    (ht : s.bcc.point = .sampled c k ∨ s.bcc.point = .calling c (k + 1)) :
    step s = mapNext advance (exec (.wait true) (toPoint (.calling c k) s)) := by
  rcases ht with ht | ht <;> simp [step, State.nextInstr, State.prepare, hr, hp, ht]

theorem step_of_callReturning {c : BusCycle} (hr : s.bcc.stage = .running)
    (hp : s.bcc.phase = .released) (ht : s.bcc.point = .calling c 0) :
    step s = mapNext advance (exec (decodeCycle c) (toPoint .top s)) := by
  simp [step, State.nextInstr, State.prepare, hr, hp, ht]

/-- Settles O6: the word on the lines is the sample, and each place of the loop has its own lemma. -/
theorem stepRunsTheSampledCycle : Obligations.StepRunsTheSampledCycle := by
  refine ⟨fun s w i hr hp hs hw hi => ?_, fun s c k hr hp =>
    ⟨step_of_callRunning hr hp, step_of_callReturning hr hp⟩⟩
  obtain rfl : decodeCycle s.sample = i := by rw [← hi, decodeBus, ← hw]; rfl
  rw [← hw]
  exact ⟨step_of_sample hr hp hs, step_of_sampleCall hr hp hs⟩

/-- Settles O7: the place of the loop or of the boot names the operation. -/
theorem stepRunsPollReleaseSelectionAndBoot :
    Obligations.StepRunsPollReleaseSelectionAndBoot := by
  refine ⟨fun s v hr hp => ⟨fun hl => ?_, fun hh => ?_⟩, fun s hr hp => ?_,
    fun s n k hr hp => ⟨fun ht hn => ?_, fun ht => ?_, fun ht => ?_⟩, fun s hs => ?_,
    fun s n rest hs hb => ?_, fun s hs hb => ?_⟩
  · simp [step, State.nextInstr, State.prepare, State.strobeHigh, hr, hp, hl]
  · simp [step, State.nextInstr, State.prepare, State.strobeHigh, hr, hp, hh]
  · simp [step, State.nextInstr, State.prepare, hr, hp]
  · have hpend : s.pendingReselect = some n := by simp [State.pendingReselect, ht, hn]
    simp [step, State.nextInstr, State.prepare, State.turnInstr, State.turnPoint, hr, hp, ht, hpend]
  · simp [step, State.nextInstr, State.prepare, hr, hp, ht]
  · simp [step, State.nextInstr, State.prepare, hr, hp, ht]
  · simp [step, State.nextInstr, State.prepare, hs, State.tableBase]
  · simp [step, State.nextInstr, State.prepare, hs, hb]
  · simp [step, State.nextInstr, State.prepare, hs, hb]

/-! ### The controller's other operations (rules R125, R131) -/

/-- Settles O14: in phase `Released` the cycle of the lines goes on the record. -/
theorem sampleReturnsTheLineLevels : Obligations.SampleReturnsTheLineLevels := by
  intro s hp
  show execSample s = _
  rw [execSample, hp]
  rfl

/-- Settles O17: the level is the condition of rule R131. -/
theorem waitFollowsItsCondition : Obligations.WaitFollowsItsCondition := by
  intro s busy
  show Host.Outcome.next (setWait busy s) = _
  simp [setWait, State.waitCondition, State.running]

/-! ### What a step leaves of the parameters, the image and the stage -/

/-- A turn of the loop changes neither the parameters nor the image nor the stage. -/
theorem Turn.fixed (h : Turn s u) :
    u.params = s.params ∧ u.img = s.img ∧ u.bcc.stage = s.bcc.stage := by
  cases h with
  | served st hp => split <;> exact ⟨rfl, rfl, rfl⟩
  | beginSelect | waitSelect | beginCall | waitCall => exact ⟨rfl, rfl, rfl⟩
  | select n hp ht =>
    obtain ⟨hparams, himg, -, hbcc, -⟩ :=
      selectIndex_same (toPoint .sampling { s with reselect := none }) n
    exact ⟨hparams, himg, by rw [hbcc]; rfl⟩
  | returnCall c u hp ht hu =>
    have hf := exec_cycle_frame hu
    exact ⟨hf.params, hf.img, hf.stage⟩
  | cycle u hp hs hc hu =>
    have hf := exec_cycle_frame hu
    exact ⟨hf.params, hf.img, hf.stage⟩

theorem step_params_img (h : step s = .next t) : t.params = s.params ∧ t.img = s.img := by
  by_cases hr : s.bcc.stage = .running
  · obtain ⟨u, hu, rfl⟩ := running_step hr h
    exact ⟨hu.fixed.1, hu.fixed.2.1⟩
  · rcases boot_step_cases hr h with ⟨-, rfl⟩ | ⟨n, rest, -, -, rfl⟩ | ⟨-, -, rfl⟩
    · exact ⟨rfl, rfl⟩
    · obtain ⟨hparams, himg, -⟩ :=
        selectIndex_same { s with env := { s.env with bootSelects := rest } } n
      exact ⟨hparams, himg⟩
    · exact ⟨rfl, rfl⟩

/-- Settles O12: by the turn of the loop, or the boot step. -/
theorem noStepChangesParametersImageOrLeavesTheLoop :
    Obligations.NoStepChangesParametersImageOrLeavesTheLoop := by
  intro s t h
  obtain ⟨hparams, himg⟩ := step_params_img h
  refine ⟨hparams, himg, fun hr => ?_⟩
  obtain ⟨u, hu, rfl⟩ := running_step hr h
  obtain ⟨-, -, hstage⟩ := hu.fixed
  exact hstage.trans hr

end Sys2Proof.Machine
end

section
/-! The invariant of rule R47: it holds after reset, and every step keeps it. -/

namespace Sys2Proof.Machine

variable {s t u : State}

/-! ### How a bus cycle ends -/

/-- A cycle that nobody claims changes nothing; a claimed read drives its lines, a claimed write holds
(rules R124, R134). -/
theorem exec_cycle_phase {c : BusCycle} (h : exec (decodeCycle c) s = .next u) :
    (s.claimed c = false ∧ u = s) ∨
    (c.isRead = true ∧ c.isWrite = false ∧ s.claimedRead c = true ∧
      ∃ v, u.bcc.phase = .driving v .rd) ∨
    (c.isRead = false ∧ c.isWrite = true ∧ s.claimedWrite c = true ∧
      u.bcc.phase = .holding .wr) := by
  rcases exec_cycle_cases h with hno | ⟨hrd, hwr, hc, hu⟩ | ⟨hrd, hwr, hc, rfl | rfl | rfl⟩
  · exact .inl hno
  · refine .inr (.inl ⟨hrd, hwr, hc, ?_⟩)
    rcases hu with ⟨ha, rfl⟩ | rfl | rfl
    · obtain ⟨v, e | e⟩ := mapperRead_drives s ha <;> exact ⟨v, by rw [e]; rfl⟩
    · exact ⟨_, rfl⟩
    · rcases datRead_eq s with ⟨e, -⟩ | ⟨e, -⟩ <;> exact ⟨_, by rw [e]; rfl⟩
  · exact .inr (.inr ⟨hrd, hwr, hc, rfl⟩)
  · exact .inr (.inr ⟨hrd, hwr, hc, rfl⟩)
  · exact .inr (.inr ⟨hrd, hwr, hc, rfl⟩)

/-- A cycle that makes a driver call leaves the wait output at its level outside blind intervals; one
that makes none keeps it there (rule R131). -/
theorem exec_cycle_wait {c : BusCycle} (h : exec (decodeCycle c) s = .next u)
    (hw : (s.callOf c).isSome = true ∨ s.bcc.wait = (s.params.useWait && !s.running)) :
    u.bcc.wait = (s.params.useWait && !s.running) := by
  rw [(exec_cycle_call h).wait]
  split
  · rfl
  · rename_i hno
    exact hw.resolve_left hno

theorem exec_cycle_mapperOk {c : BusCycle} (h : exec (decodeCycle c) s = .next u)
    (hm : MapperOk s) : MapperOk u := by
  have hf := exec_cycle_frame h
  have keep (hbank : u.bank = s.bank) : MapperOk u :=
    hm.congr hf.cfg hbank hf.rbs hf.params hf.img
  rcases exec_cycle_cases h with ⟨-, rfl⟩ | ⟨-, -, -, ⟨-, rfl⟩ | rfl | rfl⟩ |
    ⟨-, -, -, rfl | rfl | rfl⟩
  · exact hm
  · exact keep (mapperRead_frame _ s).2
  · exact keep rfl
  · exact keep (datRead_bank s)
  · exact (hm.mapperWrite c.address c.data).congr rfl rfl rfl rfl rfl
  · exact keep (ctlWrite_same s c.data).bank
  · exact keep (datWrite_same s c.data).bank

theorem exec_cycle_bridgeOk {c : BusCycle} (h : exec (decodeCycle c) s = .next u)
    (hb : BridgeOk s.bridge) : BridgeOk u.bridge := by
  rcases exec_cycle_cases h with ⟨-, rfl⟩ | ⟨-, -, -, ⟨-, rfl⟩ | rfl | rfl⟩ |
    ⟨-, -, -, rfl | rfl | rfl⟩
  · exact hb
  · rwa [(mapperRead_frame _ s).1]
  · exact hb
  · exact hb.datRead
  · rwa [holdWrite_bridge, mapperWrite_bridge]
  · exact hb.ctlWrite c.data
  · exact hb.datWrite c.data

/-! ### The controller's part, by the place of the loop -/

/-- At the top of the loop, nothing served or one cycle being served. -/
theorem BccOk.of_top (hr : s.bcc.stage = .running) (ht : s.bcc.point = .top)
    (hw : s.bcc.wait = false)
    (hp : s.bcc.phase = .released ∨ (∃ v, s.bcc.phase = .driving v .rd) ∨
      s.bcc.phase = .holding .wr) : BccOk s := by
  constructor
  case waitLevel => simp [hw, State.running, hr, ht]
  case callingCalls => simp [ht]
  case servedAtTop => exact fun _ => ht
  case bootServesNothing | bootAtTop => exact fun h => absurd hr h
  case drivingWaitsForRd | holdingWaitsForWr => rcases hp with hp | ⟨v, hp⟩ | hp <;> simp [hp]

/-- In the loop with nothing served, at any point. -/
theorem BccOk.of_released (hr : s.bcc.stage = .running) (hp : s.bcc.phase = .released)
    (hc : ∀ c k, s.bcc.point = .sampled c k ∨ s.bcc.point = .calling c k →
      (s.callOf c).isSome = true)
    (hw : s.bcc.wait = (s.params.useWait && s.bcc.point.blind)) : BccOk s := by
  constructor
  case waitLevel => simp [hw, State.running, hr]
  case callingCalls => exact hc
  case servedAtTop => exact fun h => absurd hp h
  case bootServesNothing | bootAtTop => exact fun h => absurd hr h
  case drivingWaitsForRd | holdingWaitsForWr => simp [hp]

/-- Before the loop is entered. -/
theorem BccOk.of_boot (hr : s.bcc.stage ≠ .running) (hp : s.bcc.phase = .released)
    (ht : s.bcc.point = .top) (hw : s.bcc.wait = s.params.useWait) : BccOk s := by
  constructor
  case waitLevel => simp [hw, State.running, hr]
  case callingCalls => simp [ht]
  case servedAtTop | bootAtTop => exact fun _ => ht
  case bootServesNothing => exact fun _ => hp
  case drivingWaitsForRd | holdingWaitsForWr => simp [hp]

/-- In the loop the wait output is asserted exactly in a blind interval, with `USE_WAIT`. -/
theorem BccOk.wait_running (h : BccOk s) (hr : s.bcc.stage = .running) :
    s.bcc.wait = (s.params.useWait && s.bcc.point.blind) := by
  rw [h.waitLevel]
  simp [State.running, hr]

/-- Before the loop it is asserted with `USE_WAIT`. -/
theorem BccOk.wait_boot (h : BccOk s) (hr : s.bcc.stage ≠ .running) :
    s.bcc.wait = s.params.useWait := by
  rw [h.waitLevel]
  simp [State.running, hr]

theorem State.AtSample.not_blind (h : s.AtSample) : s.bcc.point.blind = false := by
  rcases h with h | ⟨h, -⟩ <;> rw [h] <;> rfl

/-! ### The parts together -/

/-- Another controller that meets its part, over the same mapper, store and bridge. -/
theorem Inv.congr (h : Inv s) (hb : BccOk t) (hparams : t.params = s.params) (himg : t.img = s.img)
    (hcfg : t.cfg = s.cfg) (hbank : t.bank = s.bank) (hrbs : t.rbs = s.rbs)
    (hbridge : t.bridge = s.bridge) : Inv t where
  params := by rw [hparams]; exact h.params
  bcc := hb
  mapper := h.mapper.congr hcfg hbank hrbs hparams himg
  memory := by rw [MemoryOk, himg, hrbs]; exact h.memory
  bridge := by rw [hbridge]; exact h.bridge

theorem BccOk.advance (h : BccOk s) : BccOk (advance s) where
  drivingWaitsForRd := h.drivingWaitsForRd
  holdingWaitsForWr := h.holdingWaitsForWr
  bootServesNothing := h.bootServesNothing
  bootAtTop := h.bootAtTop
  servedAtTop := h.servedAtTop
  callingCalls := h.callingCalls
  waitLevel := h.waitLevel

/-- The passing of an instant touches nothing the invariant speaks of. -/
theorem Inv.advance (h : Inv s) : Inv (advance s) :=
  h.congr h.bcc.advance rfl rfl rfl rfl rfl rfl

/-- A selection keeps the mapper's part; the controller's is a premise. -/
theorem Inv.of_selectIndex {n : Nat} (hparams : ParamsOk s.params) (hmapper : MapperOk s)
    (hmemory : MemoryOk s) (hbridge : BridgeOk s.bridge) (hb : BccOk (selectIndex n s)) :
    Inv (selectIndex n s) := by
  obtain ⟨eparams, eimg, ebridge, -⟩ := selectIndex_same s n
  obtain ⟨hm, hwf⟩ := hmapper.selectIndex n
  exact ⟨by rwa [eparams], hb, hm, ⟨by rw [eimg]; exact hmemory.1, hwf hmemory.2⟩, by rwa [ebridge]⟩

/-- A cycle acted on in the loop, at its sample or when its driver call returns. -/
theorem Inv.of_cycle {c : BusCycle} (h : Inv s) (hr : s.bcc.stage = .running)
    (hp : s.bcc.phase = .released)
    (hc : (s.callOf c).isSome = true ∨ s.bcc.point.blind = false)
    (hu : exec (decodeCycle c) (toPoint .top s) = .next u) : Inv u := by
  have hf := exec_cycle_frame hu
  have hwait : u.bcc.wait = (s.params.useWait && !s.running) := by
    refine exec_cycle_wait (s := toPoint .top s) hu (hc.imp_right fun hblind => ?_)
    show s.bcc.wait = (s.params.useWait && !s.running)
    rw [h.bcc.wait_running hr, hblind]
    simp [State.running, hr]
  have hphase : u.bcc.phase = .released ∨ (∃ v, u.bcc.phase = .driving v .rd) ∨
      u.bcc.phase = .holding .wr := by
    rcases exec_cycle_phase hu with ⟨-, rfl⟩ | ⟨-, -, -, hd⟩ | ⟨-, -, -, hh⟩
    · exact .inl hp
    · exact .inr (.inl hd)
    · exact .inr (.inr hh)
  exact {
    params := by rw [hf.params]; exact h.params
    bcc := .of_top (hf.stage.trans hr) hf.point (by rw [hwait]; simp [State.running, hr]) hphase
    mapper := exec_cycle_mapperOk hu (h.mapper.congr rfl rfl rfl rfl rfl)
    memory := by rw [MemoryOk, hf.img, hf.rbs]; exact h.memory
    bridge := exec_cycle_bridgeOk hu h.bridge }

/-! ### Every step -/

theorem Turn.keeps_inv (hr : s.bcc.stage = .running) (h : Inv s) (hu : Turn s u) : Inv u := by
  have hcall := h.bcc.callingCalls
  have hwait := h.bcc.wait_running hr
  cases hu with
  | served st hp =>
    split
    · have ht := h.bcc.servedAtTop (by rcases hp with hp | ⟨v, hp⟩ <;> simp [hp])
      exact h.congr (.of_top hr ht (by simp [hwait, ht]) (.inl rfl)) rfl rfl rfl rfl rfl rfl
    · exact h
  | beginSelect n hp ht hn =>
    exact h.congr (.of_released hr hp (by simp) (by simp [State.waitCondition]))
      rfl rfl rfl rfl rfl rfl
  | waitSelect n k hp ht =>
    exact h.congr (.of_released hr hp (by simp) (by simp [State.waitCondition]))
      rfl rfl rfl rfl rfl rfl
  | select n hp ht =>
    obtain ⟨-, -, -, hbcc, -⟩ :=
      selectIndex_same (toPoint .sampling { s with reselect := none }) n
    refine .of_selectIndex h.params (h.mapper.congr rfl rfl rfl rfl rfl) h.memory h.bridge
      (.of_released ?_ ?_ ?_ ?_) <;> rw [hbcc]
    · exact hr
    · exact hp
    · simp
    · simp [State.running, hr]
  | beginCall hp hs hc =>
    refine h.congr (.of_released hr hp ?_ ?_) rfl rfl rfl rfl rfl rfl
    · intro c k hpt
      obtain ⟨rfl, -⟩ : s.sample = c ∧ s.now.busy = k := by simpa using hpt
      exact hc
    · rw [hs.not_blind] at hwait
      exact hwait
  | waitCall c k hp ht =>
    refine h.congr (.of_released hr hp ?_ (by simp [State.waitCondition])) rfl rfl rfl rfl rfl rfl
    intro c' k' hpt
    obtain ⟨rfl, rfl⟩ : c = c' ∧ k = k' := by simpa using hpt
    exact ht.elim (fun ht => hcall c _ (.inl ht)) (fun ht => hcall c _ (.inr ht))
  | returnCall c u hp ht hu => exact h.of_cycle hr hp (.inl (hcall c 0 (.inr ht))) hu
  | cycle u hp hs hc hu => exact h.of_cycle hr hp (.inr hs.not_blind) hu

/-- Settles O9: a turn of the loop, or one of the three boot steps, and then the instant passes. -/
theorem everyStepKeepsTheInvariant : Obligations.EveryStepKeepsTheInvariant := by
  intro s t h hst
  by_cases hr : s.bcc.stage = .running
  · obtain ⟨u, hu, rfl⟩ := running_step hr hst
    exact (hu.keeps_inv hr h).advance
  have hp := h.bcc.bootServesNothing hr
  have ht := h.bcc.bootAtTop hr
  have hw := h.bcc.wait_boot hr
  rcases boot_step_cases hr hst with ⟨hs, rfl⟩ | ⟨n, rest, hs, hb, rfl⟩ | ⟨hs, hb, rfl⟩ <;>
    refine Inv.advance ?_
  · exact h.congr (.of_boot nofun hp ht hw) rfl rfl rfl rfl rfl rfl
  · obtain ⟨eparams, -, -, hbcc, -⟩ :=
      selectIndex_same { s with env := { s.env with bootSelects := rest } } n
    refine .of_selectIndex h.params (h.mapper.congr rfl rfl rfl rfl rfl) h.memory h.bridge
      (.of_boot ?_ ?_ ?_ ?_) <;> rw [hbcc]
    · exact hr
    · exact hp
    · exact ht
    · rw [eparams]; simp [State.running, hr]
  · refine h.congr (.of_top rfl ht ?_ (.inl hp)) rfl rfl rfl rfl rfl rfl
    simp [State.waitCondition, State.running]

/-! ### Reset -/

theorem resetWith_inv {p : Params} {img : Memory} (hp : p.portCtrl ≠ p.portData)
    (himg : img.wf = true) (selects : List Nat) : Inv (State.resetWith p img selects) where
  params := hp
  bcc := .of_boot nofun rfl rfl rfl
  mapper := ⟨rfl, rfl⟩
  memory := resetWith_wf p img selects himg
  bridge := .of_idle (by simp [State.resetWith]) rfl rfl rfl

/-- The data port of `State.reset` is at most 255 above the control port and not equal to it (rule
R8). -/
theorem params_ports_ne : Config.params.portCtrl ≠ Config.params.portData := by
  have hgap := Config.portGap.isLt
  show Config.portCtrl ≠ Config.portCtrl + 1#8 + BitVec.ofNat 8 Config.portGap.val
  generalize Config.portGap.val = gap at hgap
  intro h
  have hn := congrArg BitVec.toNat h
  have hlt := Config.portCtrl.isLt
  simp only [BitVec.toNat_add, BitVec.toNat_ofNat] at hn
  omega

/-- Settles O10: the machine's reset state is one of the states after a reset. -/
theorem resetMeetsTheInvariant : Obligations.ResetMeetsTheInvariant :=
  ⟨resetWith_inv params_ports_ne rfl _, fun _ _ selects hp himg => resetWith_inv hp himg selects⟩

/-- Settles O11: the table's values are the fields of `State.resetWith`. -/
theorem resetValuesFollowTheTable : Obligations.ResetValuesFollowTheTable := by
  intro p img selects s
  exact ⟨rfl, rfl, rfl, rfl, rfl, rfl, rfl, rfl, rfl, rfl, rfl, rfl, rfl, rfl, rfl, rfl, rfl, rfl⟩

end Sys2Proof.Machine
end

section
/-! The controller over a step (40_bus_cycle.md): unclaimed cycles, the served cycle, the data lines,
the wait output, and where an image is replaced. -/

namespace Sys2Proof.Machine

variable {s t u : State}

/-! ### Unclaimed cycles, uncompared bits -/

theorem exec_cycle_of_unclaimed {c : BusCycle} (h : s.claimed c = false) :
    exec (decodeCycle c) s = .next s := by
  obtain ⟨u, hu⟩ := exec_answers (decodeCycle c) s
  have hclaim := h
  rw [State.claimed, Bool.or_eq_false_iff] at hclaim
  obtain ⟨hread, hwrite⟩ := hclaim
  rcases exec_cycle_cases hu with ⟨-, rfl⟩ | ⟨-, -, hc, -⟩ | ⟨-, -, hc, -⟩
  · exact hu
  · rw [hread] at hc; cases hc
  · rw [hwrite] at hc; cases hc

theorem exec_memwr_of_not_inWindow {c : MapperConfig} {a : Half} {d : Byte} (hc : s.cfg = some c)
    (hw : ¬ inWindow c.kind a = true) : exec (.memwr a d) s = .next s := by
  simp [exec, execMemwr, inActiveWindow_eq hc, hw]

/-- No window reaches past `0xBFFF`, and only Linear0's begins below `0x4000` (rule R150). -/
theorem not_inWindow_outside {k : MapperKind} {a : Half}
    (h : 0xC000 ≤ a.toNat ∨ (a.toNat < 0x4000 ∧ k ≠ .linear0)) : ¬ inWindow k a = true := by
  intro hw
  obtain ⟨hlo, hhi⟩ : windowStart k ≤ a.toNat ∧ a.toNat ≤ windowEnd k := by
    simpa [inWindow] using hw
  rw [windowEnd_eq] at hhi
  rcases h with h | ⟨h, hk⟩
  · omega
  · cases k
    case linear0 => exact hk rfl
    all_goals simp only [windowStart] at hlo; omega

/-- Settles O20: the kinds nobody acts on answer the state, and so does a cycle outside the window or
at another port. -/
theorem unclaimedCyclesChangeNothing : Obligations.UnclaimedCyclesChangeNothing := by
  refine ⟨fun c s => exec_cycle_of_unclaimed, fun cs io r a d s => ⟨rfl, rfl, rfl⟩,
    fun s c a d hc ha => ?_, fun s cs a d hctrl hdata => ?_⟩
  · have hw := not_inWindow_outside ha
    exact ⟨exec_memrd_of_not_inWindow hc hw, exec_memwr_of_not_inWindow hc hw⟩
  · simp [exec, execIord, execIowr, portOf, hctrl, hdata]

/-- Settles O21: the ports compare the low byte of the address alone, and a read never looks at its
data field. -/
theorem uncomparedBitsNeverMatter : Obligations.UncomparedBitsNeverMatter := by
  intro s cs cs' a a' d d'
  refine ⟨fun h => ?_, rfl⟩
  have hport : portOf a = portOf a' := h
  simp only [exec, execIord, execIowr]
  rw [hport]
  exact ⟨rfl, rfl⟩

/-! ### The served cycle (rule R316) -/

theorem strobe_eq_of_served {st st' : Strobe}
    (h : s.bcc.phase = .holding st ∨ ∃ v, s.bcc.phase = .driving v st)
    (h' : s.bcc.phase = .holding st' ∨ ∃ v, s.bcc.phase = .driving v st') : st' = st := by
  rcases h with h | ⟨v, h⟩ <;> rcases h' with h' | ⟨v', h'⟩ <;> rw [h] at h' <;> cases h' <;> rfl

/-- While a cycle is being served the one thing a step does is to look at its strobe. -/
theorem step_of_served {st : Strobe} (hr : s.bcc.stage = .running)
    (hp : s.bcc.phase = .holding st ∨ ∃ v, s.bcc.phase = .driving v st) (h : step s = .next t) :
    t = advance (if s.strobeHigh st then toReleased s else s) := by
  obtain ⟨u, hu, rfl⟩ := running_step hr h
  have hne : s.bcc.phase ≠ .released := by rcases hp with hp | ⟨v, hp⟩ <;> rw [hp] <;> nofun
  cases hu
  case served st' hp' => rw [strobe_eq_of_served hp hp']
  all_goals exact absurd ‹s.bcc.phase = .released› hne

/-- Settles O22: the strobe's level decides between `toReleased s` and `s`. -/
theorem servedCycleIsActedOnOnce : Obligations.ServedCycleIsActedOnOnce := by
  intro s t st hr hp h
  obtain rfl := step_of_served hr hp h
  by_cases hh : s.strobeHigh st = true
  · rw [if_pos hh, if_pos (by cases st <;> exact hh)]
    rfl
  · rw [if_neg hh, if_neg (by cases st <;> exact hh)]
    rfl

/-! ### The data lines (rules R23, R24, R132) -/

theorem busdir_iff_driving (s : State) : s.busdir = true ↔ ∃ v st, s.bcc.phase = .driving v st := by
  unfold State.busdir
  cases s.bcc.phase <;> simp

theorem busdir_iff_dout (s : State) : s.busdir = true ↔ s.dout ≠ none := by
  unfold State.busdir State.dout
  cases s.bcc.phase <;> simp

theorem busdir_congr (h : u.bcc.phase = s.bcc.phase) : u.busdir = s.busdir := by
  simp only [State.busdir, h]

theorem busdir_of_not_driving (h : s.bcc.phase = .released ∨ ∃ st, s.bcc.phase = .holding st) :
    s.busdir = false := by
  rcases h with h | ⟨st, h⟩ <;> simp [State.busdir, h]

theorem isRead_of_claimedRead {c : BusCycle} (h : s.claimedRead c = true) :
    c.isRead = true ∧ c.isWrite = false := by
  unfold State.claimedRead at h
  rcases decodeCycle_cases c with ⟨-, _, _, _, _, he | he⟩ | ⟨-, hr, hw, -⟩ | ⟨-, -, -, he⟩ |
    ⟨-, -, hr, hw, -⟩ | ⟨-, -, -, -, he⟩ | ⟨-, -, -, he⟩
  case inr.inl | inr.inr.inr.inl => exact ⟨hr, hw⟩
  all_goals rw [he] at h; cases h

theorem isWrite_of_claimedWrite {c : BusCycle} (h : s.claimedWrite c = true) :
    c.isRead = false ∧ c.isWrite = true := by
  unfold State.claimedWrite at h
  rcases decodeCycle_cases c with ⟨-, _, _, _, _, he | he⟩ | ⟨-, -, -, he⟩ | ⟨-, hr, hw, -⟩ |
    ⟨-, -, -, -, he⟩ | ⟨-, -, hr, hw, -⟩ | ⟨-, -, -, he⟩
  case inr.inr.inl | inr.inr.inr.inr.inl => exact ⟨hr, hw⟩
  all_goals rw [he] at h; cases h

/-- A cycle that calls the driver is a write. -/
theorem isRead_of_callOf {c : BusCycle} (h : (s.callOf c).isSome = true) : c.isRead = false :=
  (isWrite_of_claimedWrite (claimedWrite_of_callOf h)).1

theorem callOf_of_claimedRead {c : BusCycle} (h : s.claimedRead c = true) : s.callOf c = none := by
  by_contra hc
  have hr := isRead_of_callOf (Option.isSome_iff_ne_none.2 hc)
  rw [(isRead_of_claimedRead h).1] at hr
  cases hr

/-- A claimed read that the loop samples drives the lines. -/
theorem step_of_claimedRead (hr : s.bcc.stage = .running) (hp : s.bcc.phase = .released)
    (hs : s.AtSample) (hc : s.claimedRead s.sample = true) (h : step s = .next t) :
    t.busdir = true := by
  rw [step_of_sample hr hp hs (callOf_of_claimedRead hc)] at h
  obtain ⟨u, hu, rfl⟩ := mapNext_eq_next h
  rcases exec_cycle_phase hu with ⟨hno, -⟩ | ⟨-, -, -, hdrive⟩ | ⟨-, -, hwrite, -⟩
  · rw [State.claimed, Bool.or_eq_false_iff] at hno
    exact absurd hc (by rw [show s.claimedRead s.sample = false from hno.1]; nofun)
  · obtain ⟨v, hv⟩ := hdrive
    exact (busdir_iff_driving _).2 ⟨v, _, hv⟩
  · have hread := (isRead_of_claimedRead hc).1
    rw [(isWrite_of_claimedWrite hwrite).1] at hread
    cases hread

/-- In the loop the lines begin to be driven only by a claimed read at its sample. -/
theorem Turn.starts_driving (h : BccOk s) (hu : Turn s u) (hs : s.busdir = false)
    (hd : u.busdir = true) :
    s.bcc.phase = .released ∧ s.AtSample ∧ s.claimedRead s.sample = true := by
  have same (hp : u.bcc.phase = s.bcc.phase) : False := by
    rw [busdir_congr hp, hs] at hd
    cases hd
  cases hu with
  | served st hp =>
    split at hd
    · cases hd
    · exact absurd hd (by rw [hs]; nofun)
  | beginSelect | waitSelect | beginCall | waitCall => exact (same rfl).elim
  | select n hp ht =>
    obtain ⟨-, -, -, hbcc, -⟩ :=
      selectIndex_same (toPoint .sampling { s with reselect := none }) n
    exact (same (by rw [hbcc]; rfl)).elim
  | returnCall c u hp ht hu =>
    rcases exec_cycle_phase hu with ⟨-, rfl⟩ | ⟨hread, -⟩ | ⟨-, -, -, hhold⟩
    · exact (same rfl).elim
    · rw [isRead_of_callOf (h.callingCalls c 0 (.inr ht))] at hread
      cases hread
    · rw [busdir_of_not_driving (.inr ⟨_, hhold⟩)] at hd
      cases hd
  | cycle u hp hs' hc hu =>
    rcases exec_cycle_phase hu with ⟨-, rfl⟩ | ⟨-, -, hread, -⟩ | ⟨-, -, -, hhold⟩
    · exact (same rfl).elim
    · exact ⟨hp, hs', hread⟩
    · rw [busdir_of_not_driving (.inr ⟨_, hhold⟩)] at hd
      cases hd

theorem boot_step_phase (hr : s.bcc.stage ≠ .running) (h : step s = .next t) :
    t.bcc.phase = s.bcc.phase ∧ t.bcc.point = s.bcc.point := by
  rcases boot_step_cases hr h with ⟨-, rfl⟩ | ⟨n, rest, -, -, rfl⟩ | ⟨-, -, rfl⟩
  · exact ⟨rfl, rfl⟩
  · obtain ⟨-, -, -, hbcc, -⟩ :=
      selectIndex_same { s with env := { s.env with bootSelects := rest } } n
    rw [advance_bcc, hbcc]
    exact ⟨rfl, rfl⟩
  · exact ⟨rfl, rfl⟩

/-- Settles O19: driving begins with the claimed read that the loop samples, and lasts as the strobe
says. -/
theorem onlyAClaimedReadCycleDrives : Obligations.OnlyAClaimedReadCycleDrives := by
  intro s t hinv h
  refine ⟨busdir_iff_driving t, busdir_iff_dout t, fun hr hp hs hc => ?_, fun hs hd => ?_,
    fun v hr hp => ?_⟩
  · exact step_of_claimedRead hr hp hs hc h
  · by_cases hr : s.bcc.stage = .running
    · obtain ⟨u, hu, rfl⟩ := running_step hr h
      obtain ⟨hp, hsample, hread⟩ := hu.starts_driving hinv.bcc hs hd
      obtain ⟨hrd, hwr⟩ := isRead_of_claimedRead hread
      exact ⟨hr, hp, hsample, by simpa [State.sample, cycleOfLines] using hrd,
        by simpa [State.sample, cycleOfLines] using hwr, hread⟩
    · rw [busdir_congr (boot_step_phase hr h).1, hs] at hd
      cases hd
  · obtain rfl := step_of_served hr (.inr ⟨v, hp⟩) h
    refine ⟨fun hlow => ?_, fun hhigh => ?_⟩
    · rw [if_neg (by simp [State.strobeHigh, hlow]), advance_dout]
      simp [State.dout, hp]
    · rw [if_pos (show s.strobeHigh .rd = true from hhigh)]
      exact ⟨rfl, rfl⟩

/-! ### The wait output and the blind intervals (rule R131) -/

/-- A turn ends at most one call or selection, one that was running when it began. -/
theorem Turn.blind (hu : Turn s u) : u.record.blind = s.record.blind ∨
    ((∃ what, u.record.blind =
        { what := what, wait := s.params.useWait } :: s.record.blind) ∧
      s.bcc.point.blind = true) := by
  cases hu with
  | served st hp => left; split <;> rfl
  | beginSelect | waitSelect | beginCall | waitCall => exact .inl rfl
  | select n hp ht =>
    obtain ⟨-, -, -, -, -, -, hrec⟩ :=
      selectIndex_same (toPoint .sampling { s with reselect := none }) n
    exact .inr ⟨⟨.selection, by rw [hrec]; rfl⟩, by rw [ht]; rfl⟩
  | returnCall c u hp ht hu =>
    have hrec := (exec_cycle_call hu).blind
    cases hc : (toPoint .top s).callOf c with
    | none => exact .inl (by rw [hrec, hc]; rfl)
    | some call => exact .inr ⟨⟨.driver call, by rw [hrec, hc]; rfl⟩, by rw [ht]; rfl⟩
  | cycle u hp hs hc hu =>
    have hrec := (exec_cycle_call hu).blind
    rw [show (toPoint .top s).callOf s.sample = none from hc] at hrec
    exact .inl hrec

/-- The same of every step, with the wait output at the level of its rule. -/
theorem step_blind (hinv : Inv s) (h : step s = .next t) : t.record.blind = s.record.blind ∨
    ((∃ what, t.record.blind =
        { what := what, wait := s.params.useWait } :: s.record.blind) ∧
      s.bcc.wait = s.params.useWait ∧ (s.bcc.stage = .running → s.bcc.point.blind = true)) := by
  by_cases hr : s.bcc.stage = .running
  · obtain ⟨u, hu, rfl⟩ := running_step hr h
    refine hu.blind.imp_right fun ⟨hrec, hblind⟩ => ⟨hrec, ?_, fun _ => hblind⟩
    rw [hinv.bcc.wait_running hr, hblind, Bool.and_true]
  · rcases boot_step_cases hr h with ⟨-, rfl⟩ | ⟨n, rest, -, -, rfl⟩ | ⟨-, -, rfl⟩
    · exact .inl rfl
    · obtain ⟨-, -, -, -, -, -, hrec⟩ :=
        selectIndex_same { s with env := { s.env with bootSelects := rest } } n
      exact .inr ⟨⟨.selection, by rw [advance_record, hrec]⟩, hinv.bcc.wait_boot hr,
        fun hrun => absurd hrun hr⟩
    · exact .inl rfl

/-- A step after which a call or a selection is running has moved the loop and nothing else. -/
theorem step_into_blind (hinv : Inv s) (h : step s = .next t) (hb : t.bcc.point.blind = true) :
    t.bridge = s.bridge ∧ t.cfg = s.cfg ∧ t.bank = s.bank ∧ t.rbs = s.rbs ∧
    t.record = s.record ∧ t.dout = none := by
  have released (u : State) (hp : s.bcc.phase = .released) (he : u.bcc.phase = s.bcc.phase) :
      u.dout = none := by simp [State.dout, he, hp]
  by_cases hr : s.bcc.stage = .running
  · obtain ⟨u, hu, rfl⟩ := running_step hr h
    cases hu with
    | served st hp =>
      have ht := hinv.bcc.servedAtTop (by rcases hp with hp | ⟨v, hp⟩ <;> simp [hp])
      split at hb <;> simp [ht] at hb
    | beginSelect n hp | waitSelect n k hp | waitCall c k hp =>
      exact ⟨rfl, rfl, rfl, rfl, rfl, released _ hp rfl⟩
    | select n hp ht =>
      obtain ⟨-, -, -, hbcc, -⟩ :=
        selectIndex_same (toPoint .sampling { s with reselect := none }) n
      rw [advance_bcc, hbcc] at hb
      cases hb
    | beginCall hp hs hc => cases hb
    | returnCall c u hp ht hu =>
      rw [advance_bcc, (exec_cycle_frame hu).point] at hb
      cases hb
    | cycle u hp hs hc hu =>
      rw [advance_bcc, (exec_cycle_frame hu).point] at hb
      cases hb
  · rw [(boot_step_phase hr h).2, hinv.bcc.bootAtTop hr] at hb
    cases hb

/-- Settles O18: the wait output by the invariant after the step, the rest by what a step adds to the
record. -/
theorem waitCoversEveryBlindInterval : Obligations.WaitCoversEveryBlindInterval := by
  refine ⟨fun s t hinv h => ⟨?_, ?_, step_into_blind hinv h⟩, fun s t c h =>
    (exec_cycle_call h).blind⟩
  · rw [(everyStepKeepsTheInvariant s t hinv h).bcc.waitLevel, (step_params_img h).1]
    simp [State.running]
  · rcases step_blind hinv h with hrec | ⟨⟨what, hrec⟩, hwait, hpoint⟩
    · exact ⟨[], hrec, by simp, by simp, fun hne => absurd rfl hne⟩
    · exact ⟨[_], hrec, by simp, by simp, fun _ => ⟨hwait, hpoint⟩⟩

/-! ### Where an image is replaced (rule R284) -/

/-- A turn that is not the end of a selection keeps the image, the store and the registers' number. -/
theorem Turn.image (hu : Turn s u) :
    (s.bcc.phase = .released ∧ ∃ n, s.bcc.point = .loading n 0) ∨
    (u.cfg = s.cfg ∧ u.rbs = s.rbs ∧ u.bank.length = s.bank.length) := by
  cases hu with
  | served st hp => right; split <;> exact ⟨rfl, rfl, rfl⟩
  | beginSelect | waitSelect | beginCall | waitCall => exact .inr ⟨rfl, rfl, rfl⟩
  | select n hp ht => exact .inl ⟨hp, n, ht⟩
  | returnCall c u hp ht hu =>
    have hf := exec_cycle_frame hu
    exact .inr ⟨hf.cfg, hf.rbs, hf.bank⟩
  | cycle u hp hs hc hu =>
    have hf := exec_cycle_frame hu
    exact .inr ⟨hf.cfg, hf.rbs, hf.bank⟩

/-- So does a step that is neither that nor a boot selection. -/
theorem step_image (h : step s = .next t) :
    (s.bcc.stage = .selecting ∧ s.env.bootSelects ≠ []) ∨
    (s.bcc.stage = .running ∧ s.bcc.phase = .released ∧ ∃ n, s.bcc.point = .loading n 0) ∨
    (t.cfg = s.cfg ∧ t.rbs = s.rbs ∧ t.bank.length = s.bank.length) := by
  by_cases hr : s.bcc.stage = .running
  · obtain ⟨u, hu, rfl⟩ := running_step hr h
    exact .inr (hu.image.imp_left fun hend => ⟨hr, hend⟩)
  · rcases boot_step_cases hr h with ⟨-, rfl⟩ | ⟨n, rest, hs, hb, -⟩ | ⟨-, -, rfl⟩
    · exact .inr (.inr ⟨rfl, rfl, rfl⟩)
    · exact .inl ⟨hs, by simp [hb]⟩
    · exact .inr (.inr ⟨rfl, rfl, rfl⟩)

/-- A selection is at this point after a turn that began it, that went on with it, or that served a
cycle beside it (which no reachable state does). -/
theorem Turn.loading {n k : Nat} (hu : Turn s u) (hpt : u.bcc.point = .loading n k) :
    s.bcc.phase = .released ∧ s.bcc.point = .top ∧ s.reselect = some n ∨
    s.bcc.point = .loading n (k + 1) ∨ (s.bcc.phase ≠ .released ∧ s.bcc.point = .loading n k) := by
  cases hu with
  | served st hp =>
    refine .inr (.inr ⟨by rcases hp with hp | ⟨v, hp⟩ <;> simp [hp], ?_⟩)
    split at hpt <;> exact hpt
  | beginSelect n' hp ht hn =>
    obtain ⟨rfl, -⟩ := LoopPoint.loading.inj hpt
    exact .inl ⟨hp, ht, hn⟩
  | waitSelect n' k' hp ht =>
    obtain ⟨rfl, rfl⟩ := LoopPoint.loading.inj hpt
    exact .inr (.inl ht)
  | select n' hp ht =>
    obtain ⟨-, -, -, hbcc, -⟩ :=
      selectIndex_same (toPoint .sampling { s with reselect := none }) n'
    rw [hbcc] at hpt
    cases hpt
  | beginCall | waitCall => cases hpt
  | returnCall c u hp ht hu =>
    rw [(exec_cycle_frame hu).point] at hpt
    cases hpt
  | cycle u hp hs hc hu =>
    rw [(exec_cycle_frame hu).point] at hpt
    cases hpt

/-- Settles O59: what a step leaves of the image, and how a selection comes to run. -/
theorem selectionHappensOnlyBetweenCycles : Obligations.SelectionHappensOnlyBetweenCycles := by
  intro s t h
  refine ⟨fun hne => ?_, fun n k hr hpt => ?_⟩
  · rcases step_image h with hboot | hend | ⟨hcfg, hrbs, hbank⟩
    · exact .inl hboot
    · exact .inr hend
    · rcases hne with hne | hne | hne
      · exact absurd hcfg hne
      · exact absurd hrbs hne
      · exact absurd hbank hne
  · obtain ⟨u, hu, rfl⟩ := running_step hr h
    exact hu.loading hpt

end Sys2Proof.Machine
end

section
/-! No operation reads the record (rule R21): with another record it does the same to the rest of the
state. -/

namespace Sys2Proof.Machine

/-- A control-port byte is in opcode position, an address byte, or the trigger (rule R193). -/
theorem position_cases (b : Bridge) (v : Byte) : InOpcodePosition b v ∨
    (∃ k, b.phase = .awaitAddr k) ∨ (b.phase = .awaitGo ∧ v = 0x06#8) := by
  cases hp : b.phase with
  | awaitAddr k => exact .inr (.inl ⟨k, rfl⟩)
  | awaitGo =>
    by_cases hv : v = 0x06#8
    · exact .inr (.inr ⟨rfl, hv⟩)
    · exact .inl ⟨by simp [hp], fun _ => hv⟩
  | idle | xferRead | xferWrite => exact .inl ⟨by simp [hp], by simp [hp]⟩

/-- The state with another record, all else unchanged. -/
def State.withRecord (s : State) (r : Record) : State := { s with record := r }

/-- The function does the same whatever the record holds. -/
def IgnoresRecord (f : State → State) : Prop :=
  ∀ (s : State) (r : Record), ∃ r', f (s.withRecord r) = (f s).withRecord r'

namespace IgnoresRecord

variable {f g : State → State}

/-- A choice whose condition does not look at the record. -/
theorem ite {p : State → Prop} [DecidablePred p] (hp : ∀ s r, p (s.withRecord r) = p s)
    (hf : IgnoresRecord f) (hg : IgnoresRecord g) :
    IgnoresRecord fun s => if p s then f s else g s := by
  intro s r
  dsimp only
  by_cases h : p s
  · rw [if_pos h, if_pos (by rwa [hp])]
    exact hf s r
  · rw [if_neg h, if_neg (by rwa [hp])]
    exact hg s r

theorem comp (hg : IgnoresRecord g) (hf : IgnoresRecord f) : IgnoresRecord fun s => g (f s) := by
  intro s r
  obtain ⟨r', h⟩ := hf s r
  dsimp only
  rw [h]
  exact hg (f s) r'

theorem id : IgnoresRecord fun s => s := fun _ r => ⟨r, rfl⟩

theorem holdWrite : IgnoresRecord holdWrite := fun _ r => ⟨r, rfl⟩

theorem toReleased : IgnoresRecord toReleased := fun _ r => ⟨r, rfl⟩

/-! ### The mapper and its table -/

theorem mapperRead (a : Half) : IgnoresRecord (mapperRead a) := by
  intro s r
  cases hc : s.cfg with
  | none => exact ⟨r, by rw [Machine.mapperRead, Machine.mapperRead, hc, State.withRecord, hc]⟩
  | some c =>
    have hbyte : (s.withRecord r).mappedByte c a = s.mappedByte c a := rfl
    rw [mapperRead_eq s hc, mapperRead_eq (s.withRecord r) hc, hbyte]
    cases s.mappedByte c a <;> exact ⟨r, rfl⟩

theorem mapperWrite (a : Half) (d : Byte) : IgnoresRecord (mapperWrite a d) := by
  intro s r
  cases hc : s.cfg with
  | none => exact ⟨r, by rw [Machine.mapperWrite, Machine.mapperWrite, hc, State.withRecord, hc]⟩
  | some c =>
    rw [mapperWrite_of_cfg hc, mapperWrite_of_cfg (s := s.withRecord r) hc]
    exact ⟨r, rfl⟩

theorem loadIfUsable (rec : RomRecord) : IgnoresRecord (loadIfUsable rec) := by
  intro s r
  cases hu : usable s.params.storeCapacity rec with
  | false =>
    rw [loadIfUsable_of_not_usable s hu, loadIfUsable_of_not_usable (s.withRecord r) hu]
    exact ⟨r, rfl⟩
  | true =>
    obtain ⟨k, hk, hsize⟩ := usable_iff.1 hu
    have hcode := kindOfCode_eq_some_iff.2 hk
    rw [loadIfUsable_of_usable s hcode hsize, loadIfUsable_of_usable (s.withRecord r) hcode hsize]
    exact ⟨r, rfl⟩

theorem selectRecord (rec : RomRecord) : IgnoresRecord (selectRecord rec) := by
  intro s r
  rw [selectRecord_eq, selectRecord_eq]
  exact loadIfUsable rec (s.afterBlind .selection) _

theorem selectIndex (n : Nat) : IgnoresRecord (selectIndex n) := by
  intro s r
  have htable : readTable (s.withRecord r).img (s.withRecord r).tableBase =
    readTable s.img s.tableBase := rfl
  rw [selectIndex_eq, selectIndex_eq, htable]
  cases (readTable s.img s.tableBase)[n]? with
  | none => exact ⟨_, rfl⟩
  | some rec => exact loadIfUsable rec (s.afterBlind .selection) _

/-! ### The bridge -/

theorem sectorRead (i : Word) : IgnoresRecord (sectorRead i) := by
  intro s r
  cases h : s.nextReply.status with
  | ok =>
    rw [sectorRead_of_ok h, sectorRead_of_ok (s := s.withRecord r) h]
    exact ⟨_, rfl⟩
  | err =>
    rw [sectorRead_of_err h, sectorRead_of_err (s := s.withRecord r) h]
    exact ⟨_, rfl⟩

theorem statusCommand (op : Byte) (call : DriverCall) : IgnoresRecord (statusCommand op call) := by
  intro s r
  rw [statusCommand_eq, statusCommand_eq]
  exact ⟨_, rfl⟩

theorem getCapacityCommand : IgnoresRecord getCapacityCommand := by
  intro s r
  rw [Machine.getCapacityCommand, Machine.getCapacityCommand, callDriver_eq, callDriver_eq]
  exact ⟨_, rfl⟩

theorem readNextCommand : IgnoresRecord readNextCommand := by
  intro s r
  have hbridge (h : Bridge → Bridge) :
    onBridge h (s.withRecord r) = (onBridge h s).withRecord r := rfl
  unfold Machine.readNextCommand
  dsimp only
  rw [hbridge]
  exact sectorRead (s.bridge.sectorAddress + 1#32) _ r

theorem opcodeByte (v : Byte) : IgnoresRecord (opcodeByte v) := by
  rcases opcode_cases v with ⟨-, ho⟩ | ⟨-, ho⟩ | ⟨-, ho⟩ | ⟨-, ho⟩ | ⟨-, ho⟩ | ⟨-, ho⟩ | ⟨-, ho⟩ |
    ⟨-, ho⟩ | ⟨-, ho⟩ <;> rw [ho]
  · exact statusCommand _ _
  · exact statusCommand _ _
  · exact fun s r => ⟨r, rfl⟩
  · exact fun s r => ⟨r, rfl⟩
  · exact getCapacityCommand
  · exact fun s r => ⟨r, rfl⟩
  · exact readNextCommand
  · exact fun s r => ⟨r, rfl⟩
  · exact fun s r => ⟨r, rfl⟩

theorem ctlWrite (v : Byte) : IgnoresRecord (ctlWrite v) := by
  intro s r
  rcases position_cases s.bridge v with hin | ⟨k, hp⟩ | ⟨hp, rfl⟩
  · rw [ctlWrite_of_in hin, ctlWrite_of_in (s := s.withRecord r) hin]
    exact opcodeByte v s r
  · rw [ctlWrite_address hp, ctlWrite_address (s := s.withRecord r) hp]
    exact ⟨r, rfl⟩
  · rw [ctlWrite_trigger hp, ctlWrite_trigger (s := s.withRecord r) hp]
    exact sectorRead _ s r

theorem datRead : IgnoresRecord datRead :=
  ite (fun _ _ => rfl) (fun _ r => ⟨r, rfl⟩) (fun _ r => ⟨r, rfl⟩)

theorem datWrite (v : Byte) : IgnoresRecord (datWrite v) := by
  intro s r
  by_cases h0 : s.bridge.bytesPendingIn = 0#16
  · rw [datWrite_idle h0, datWrite_idle (s := s.withRecord r) h0]
    exact ⟨r, rfl⟩
  by_cases h1 : s.bridge.bytesPendingIn = 1#16
  · rw [datWrite_last h1, datWrite_last (s := s.withRecord r) h1, commitSector_eq, commitSector_eq]
    exact ⟨_, rfl⟩
  · rw [datWrite_store h0 h1, datWrite_store (s := s.withRecord r) h0 h1]
    exact ⟨r, rfl⟩

/-! ### Rows -/

/-- A row that acts only where its byte stands in opcode position. -/
theorem atOpcode (b : Byte) (hf : IgnoresRecord f) : IgnoresRecord (atOpcode b f) :=
  ite (p := fun s => opcodePosition s.ctx b = true) (fun _ _ => rfl) hf id

theorem readOfKind (k : MapperKind) (a : Half) : IgnoresRecord (readOfKind k a) :=
  ite (p := fun s => s.kind = some k ∧ inWindow k a = true) (fun _ _ => rfl) (mapperRead a) id

theorem triggerOfKind (k : MapperKind) (reg : Nat) (a : Half) (d : Byte) :
    IgnoresRecord (triggerOfKind k reg a d) :=
  ite (p := fun s => s.kind = some k ∧ triggerRegister s.params.konamiWide k a = some reg)
    (fun _ _ => rfl) (fun _ r => ⟨r, rfl⟩) id

/-! ### The controller's primitives -/

/-- What a controller primitive does, by the phase. -/
theorem byPhase {h : BccPhase → State → State} (hh : ∀ p, IgnoresRecord (h p)) :
    IgnoresRecord fun s => h s.bcc.phase s := fun s r => hh s.bcc.phase s r

end IgnoresRecord

/-- The operation is a function of the state that does the same whatever the record holds. -/
def ExecIgnoresRecord (i : Instr) : Prop :=
  ∃ f, IgnoresRecord f ∧ ∀ s, exec i s = .next (f s)

theorem execIgnoresRecord_sample : ExecIgnoresRecord .sample := by
  refine ⟨fun s => if s.bcc.phase = .released then
      { s with record := { s.record with sampled := some s.sample } } else s,
    .ite (fun _ _ => rfl) (fun _ _ => ⟨_, rfl⟩) .id, fun s => ?_⟩
  simp only [exec, execSample]
  cases s.bcc.phase <;> rfl

theorem execIgnoresRecord_drive (v : Byte) : ExecIgnoresRecord (.drive v) := by
  refine ⟨fun s => if s.bcc.phase = .released ∧ s.claimedRead s.sample = true then drive v s else s,
    .ite (fun _ _ => rfl) (fun _ r => ⟨r, rfl⟩) .id, fun s => ?_⟩
  simp only [exec, execDrive]
  cases s.bcc.phase <;> simp

theorem execIgnoresRecord_hold : ExecIgnoresRecord .hold := by
  refine ⟨fun s => if s.bcc.phase = .released ∧ s.claimedWrite s.sample = true then
      holdWrite s else s, .ite (fun _ _ => rfl) .holdWrite .id, fun s => ?_⟩
  simp only [exec, execHold]
  cases s.bcc.phase <;> simp

theorem execIgnoresRecord_poll (st : Strobe) : ExecIgnoresRecord (.poll st) := by
  refine ⟨fun s => if s.bcc.phase = .holding st ∧ s.strobeHigh st = true then toReleased s else s,
    .ite (fun _ _ => rfl) .toReleased .id, fun s => ?_⟩
  simp only [exec, execPoll]
  cases s.bcc.phase <;> simp

/-- What `RELEASE` does in a phase. -/
def releaseIn : BccPhase → State → State
  | .driving _ st, s => if s.strobeHigh st = true then toReleased s else s
  | .released, s | .holding _, s => s

theorem execIgnoresRecord_release : ExecIgnoresRecord .release := by
  refine ⟨fun s => releaseIn s.bcc.phase s, .byPhase fun p => ?_, fun s => ?_⟩
  · cases p with
    | driving v st => exact .ite (fun _ _ => rfl) .toReleased .id
    | released | holding => exact .id
  · simp only [exec, execRelease]
    cases s.bcc.phase <;> rfl

theorem execIgnoresRecord_addr (v : Byte) : ExecIgnoresRecord (.addr v) := by
  refine ⟨fun s => if s.ctx.position = .address then ctlWrite v s else s,
    .ite (fun _ _ => rfl) (.ctlWrite v) .id, fun s => ?_⟩
  cases hp : s.bridge.phase <;> simp [exec, execAddr, State.ctx, ctlWrite, positionOf, hp]

theorem execIgnoresRecord_go : ExecIgnoresRecord .go := by
  refine ⟨fun s => if s.ctx.position = .trigger then ctlWrite 0x06#8 s else s,
    .ite (fun _ _ => rfl) (.ctlWrite _) .id, fun s => ?_⟩
  cases hp : s.bridge.phase <;> simp [exec, execGo, State.ctx, ctlWrite, positionOf, hp]

/-- A bus cycle of a kind that the block acts on. -/
theorem execIgnoresRecord_cycle (c : BusCycle) : ExecIgnoresRecord (decodeCycle c) := by
  rcases decodeCycle_cases c with ⟨-, _, _, _, _, he | he⟩ | ⟨-, -, -, he⟩ | ⟨-, -, -, he⟩ |
    ⟨-, -, -, -, he⟩ | ⟨-, -, -, -, he⟩ | ⟨-, -, -, he⟩ <;> rw [he]
  · exact ⟨_, .id, fun _ => rfl⟩
  · exact ⟨_, .id, fun _ => rfl⟩
  · exact ⟨_, .ite (fun _ _ => rfl) (fun _ r => ⟨r, rfl⟩) (.ite (fun _ _ => rfl) .datRead .id),
      fun _ => rfl⟩
  · exact ⟨_, .ite (fun _ _ => rfl) (.comp .holdWrite (.ctlWrite _))
      (.ite (fun _ _ => rfl) (.comp .holdWrite (.datWrite _)) .id), fun _ => rfl⟩
  · exact ⟨_, .ite (fun _ _ => rfl) (.mapperRead _) .id, fun _ => rfl⟩
  · exact ⟨_, .ite (fun _ _ => rfl) (.comp .holdWrite (.mapperWrite _ _)) .id, fun _ => rfl⟩
  · exact ⟨_, .id, fun _ => rfl⟩

/-- Every operation is such a function. -/
theorem execIgnoresRecord (i : Instr) : ExecIgnoresRecord i := by
  cases i
  case sample => exact execIgnoresRecord_sample
  case drive v => exact execIgnoresRecord_drive v
  case poll st => exact execIgnoresRecord_poll st
  case release => exact execIgnoresRecord_release
  case hold => exact execIgnoresRecord_hold
  case wait b => exact ⟨setWait b, fun _ r => ⟨r, rfl⟩, fun _ => rfl⟩
  case memrd a d => exact execIgnoresRecord_cycle ⟨a, d, true, false, true, false⟩
  case memwr a d => exact execIgnoresRecord_cycle ⟨a, d, false, true, true, false⟩
  case iord cs a d => exact execIgnoresRecord_cycle ⟨a, d, true, false, cs, true⟩
  case iowr cs a d => exact execIgnoresRecord_cycle ⟨a, d, false, true, cs, true⟩
  case nostb | both | nosel => exact ⟨_, .id, fun _ => rfl⟩
  case rdPlain16 | rdPlain32 | rdLinear0 | rdKonamiScc | rdKonami | rdAscii8 | rdAscii16 =>
    exact ⟨_, .readOfKind _ _, fun _ => rfl⟩
  case bankKonamiScc0 | bankKonamiScc1 | bankKonamiScc2 | bankKonamiScc3 | bankKonami1 |
      bankKonami2 | bankKonami3 | bankAscii80 | bankAscii81 | bankAscii82 | bankAscii83 |
      bankAscii160 | bankAscii161 =>
    exact ⟨_, .triggerOfKind _ _ _ _, fun _ => rfl⟩
  case ctlrd => exact ⟨ctlRead, fun _ r => ⟨r, rfl⟩, fun _ => rfl⟩
  case ctlwr _ _ v => exact ⟨_, .ctlWrite v, fun _ => rfl⟩
  case datrd => exact ⟨_, .datRead, fun _ => rfl⟩
  case datwr _ _ v => exact ⟨_, .datWrite v, fun _ => rfl⟩
  case init | present => exact ⟨_, .atOpcode _ (.statusCommand _ _), fun _ => rfl⟩
  case getid | getser | rdsec | wrsec | unrec =>
    exact ⟨_, .atOpcode _ fun _ r => ⟨r, rfl⟩, fun _ => rfl⟩
  case getcap => exact ⟨_, .atOpcode _ .getCapacityCommand, fun _ => rfl⟩
  case rdnext => exact ⟨_, .atOpcode _ .readNextCommand, fun _ => rfl⟩
  case addr v => exact execIgnoresRecord_addr v
  case go => exact execIgnoresRecord_go
  case stOk | stErr => exact ⟨onBridge _, fun _ r => ⟨r, rfl⟩, fun _ => rfl⟩
  case kindPlain16 | kindPlain32 | kindKonamiScc | kindLinear0 | kindAscii8 | kindAscii16 |
      kindKonami =>
    exact ⟨_, .selectRecord _, fun _ => rfl⟩
  case readtable base =>
    exact ⟨fun s => { s with record := { s.record with listed := readTable s.img base } },
      fun _ _ => ⟨_, rfl⟩, fun _ => rfl⟩
  case select n => exact ⟨_, .selectIndex n, fun _ => rfl⟩

/-- Settles O13: every operation is a function that does the same whatever the record holds. -/
theorem noOperationReadsTheRecord : Obligations.NoOperationReadsTheRecord := by
  intro i s t r h
  obtain ⟨f, hf, hi⟩ := execIgnoresRecord i
  obtain ⟨r', hr⟩ := hf s r
  obtain rfl : f s = t := Host.Outcome.next.inj ((hi s).symm.trans h)
  exact ⟨r', (hi (s.withRecord r)).trans (congrArg _ hr)⟩

end Sys2Proof.Machine
end

section
/-! The shared flag (rules R45, R75, R318): when a write of the second task is seen. -/

namespace Sys2Proof.Machine

variable {s t : State}

/-- With nothing on its way a step sees the write of its instant alone, in the flag as the end of a
selection leaves it. -/
theorem step_flag (hr : s.bcc.stage = .running) (hq : s.env.flagWrites = []) (h : step s = .next t) :
    t.env.flagWrites = inFlight s.now.flagWrite.toList ∧
    ∃ held, t.reselect = flagAfter s.now.flagWrite.toList held ∧
      (s.bcc.phase = .released ∧ (∃ n, s.bcc.point = .loading n 0) → held = none) ∧
      (¬(s.bcc.phase = .released ∧ ∃ n, s.bcc.point = .loading n 0) → held = s.reselect) := by
  obtain ⟨-, -, hflight, hflag⟩ := step_passes h
  have hqueue : s.flagQueue = s.now.flagWrite.toList := by rw [State.flagQueue, hq]; rfl
  rw [hqueue] at hflight hflag
  rw [if_pos hr] at hflag
  refine ⟨hflight, _, hflag, ?_, fun hno => ?_⟩
  · rintro ⟨hp, n, ht⟩
    rw [hp, ht]
    rfl
  · split
    · exact absurd ⟨‹_›, _, ‹_›⟩ hno
    · rfl

/-- When one step leaves nothing on its way, the last write is in the flag. -/
theorem runSteps_one_landed {q : List FlagWrite} {w : FlagWrite} (hqueue : s.flagQueue = q ++ [w])
    (hnone : inFlight (q ++ [w]) = []) :
    ∃ t, runSteps 1 s = .next t ∧ t.reselect = some w.value ∧ t.env.flagWrites = [] := by
  obtain ⟨t, hst⟩ := everyStepAndOperationAnswersANextState.1 s
  obtain ⟨-, -, hflight, hflag⟩ := step_passes hst
  rw [hqueue] at hflight hflag
  exact ⟨t, runSteps_succ hst 0, by rw [hflag, flagAfter_last hnone], by rw [hflight, hnone]⟩

/-- Steps with a last write on its way and no later one: when the delays before it and its own are
over, it is in the flag. -/
theorem exists_runSteps_landed {later rest : List Instant} {q : List FlagWrite} {w : FlagWrite}
    (hin : s.env.inputs.tail = later ++ rest) (hqueue : s.flagQueue = q ++ [w])
    (hdelay : ∀ x ∈ q ++ [w], x.delay ≤ later.length) (hquiet : ∀ i ∈ later, i.flagWrite = none) :
    ∃ j ≤ later.length, ∃ t, runSteps (j + 1) s = .next t ∧ t.reselect = some w.value ∧
      t.env.flagWrites = [] := by
  induction later generalizing s q w with
  | nil =>
    obtain ⟨-, hnone⟩ := landed_of_zero fun x hx => Nat.le_zero.1 (hdelay x hx)
    exact ⟨0, le_refl _, runSteps_one_landed hqueue hnone⟩
  | cons i later ih =>
    by_cases hnone : inFlight (q ++ [w]) = []
    · exact ⟨0, Nat.zero_le _, runSteps_one_landed hqueue hnone⟩
    obtain ⟨t, hst⟩ := everyStepAndOperationAnswersANextState.1 s
    obtain ⟨hinputs, -, hflight, -⟩ := step_passes hst
    obtain ⟨q', hq', hless⟩ := inFlight_last hnone
    have hin' : t.env.inputs = i :: (later ++ rest) := by rw [hinputs, hin]; rfl
    have hnow : t.now.flagWrite = none := by
      rw [State.now, hin']
      exact hquiet i (List.mem_cons_self ..)
    have hqueue' : t.flagQueue = q' ++ [{ w with delay := w.delay - 1 }] := by
      rw [State.flagQueue, hnow, hflight, hqueue, hq']
      exact List.append_nil _
    have hdelay' : ∀ x ∈ q' ++ [{ w with delay := w.delay - 1 }], x.delay ≤ later.length := by
      intro x hx
      obtain ⟨y, hy, hxy⟩ := hless x hx
      have hle : y.delay ≤ later.length + 1 := hdelay y hy
      omega
    obtain ⟨j, hj, t', hrun, hres⟩ :=
      ih (by rw [hin']; rfl) hqueue' hdelay' fun k hk => hquiet k (List.mem_cons_of_mem _ hk)
    exact ⟨j + 1, Nat.succ_le_succ hj, t', (runSteps_succ hst _).trans hrun, hres⟩

/-- Settles O60: one step with nothing on its way, and the steps until a last write has landed. -/
theorem flagHoldsTheLastWriteUntilTaken : Obligations.FlagHoldsTheLastWriteUntilTaken := by
  refine ⟨fun s t hr h hq => ?_, fun s w first later rest hin hw hdelay hqueue hquiet => ?_⟩
  · obtain ⟨hflight, held, hflag, htaken, hkept⟩ := step_flag hr hq h
    refine ⟨fun w hw hzero => ?_, fun hnone => ?_⟩
    · rw [hflag, hw]
      simp [flagAfter, landed, hzero]
    · rw [hnone] at hflight hflag
      exact ⟨hflight, fun hend => hflag.trans (htaken hend), fun hno => hflag.trans (hkept hno)⟩
  · have hnow : s.now.flagWrite = some w := by rw [State.now, hin]; exact hw
    refine exists_runSteps_landed (q := s.env.flagWrites) (by rw [hin]; rfl)
      (by rw [State.flagQueue, hnow]; rfl) (fun x hx => ?_) hquiet
    rcases List.mem_append.1 hx with hx | hx
    · exact hqueue x hx
    · rwa [List.mem_singleton.1 hx]

end Sys2Proof.Machine
end

section
/-! Reads of the selected image (rules R151, R152, R259), the control port (rules R193, R195), and what
the table and a selection give (rules R253 to R259). -/

namespace Sys2Proof.Machine

variable {s t : State}

/-! ### Reads of the selected image -/

/-- A read in the window drives a byte and may draw a free value (rules R152, R168). -/
theorem exists_mapperRead_eq {a : Half} (h : s.inActiveWindow a = true) : ∃ v n, mapperRead a s =
    { s.withPhase (.driving v .rd) with env := { s.env with draws := n } } := by
  obtain ⟨v, e | e⟩ := mapperRead_drives s h
  · exact ⟨v, s.env.draws, e⟩
  · exact ⟨v, s.env.draws + 1, e⟩

/-- Settles O24: the cycle and the row are one mapper read. -/
theorem memoryReadIsItsKindsRow : Obligations.MemoryReadIsItsKindsRow := by
  intro s c a d hc hlo hhi
  have hw := inWindow_of_bounds hlo hhi
  obtain ⟨v, n, hread⟩ := exists_mapperRead_eq ((inActiveWindow_eq hc).trans hw)
  rw [exec_memrd_of_inWindow hc hw, exec_readRow_of_inWindow hc hw]
  exact ⟨rfl, v, n, congrArg _ hread⟩

theorem Inv.imageOk {c : MapperConfig} (h : Inv s) (hc : s.cfg = some c) : ImageOk s c := by
  simpa [MapperOk, hc] using h.mapper

/-- Settles O28: the offset of a banked kind is inside the image, and the store holds the image's byte
at every offset inside it. -/
theorem bankedReadStaysInsideTheImage : Obligations.BankedReadStaysInsideTheImage := by
  intro s c a d hinv hc hb hlo hhi
  have himage := hinv.imageOk hc
  obtain ⟨offset, hbytes⟩ := himage.storeHoldsImage
  obtain ⟨hsize, -⟩ := (usableSize_iff.1 himage.sizeUsable).2 hb
  have hlt := imageOffset_lt hb hsize s.bank a
  have hw : inWindow c.kind a = true :=
    inWindow_of_bounds (windowStart_banked hb ▸ hlo) (windowEnd_eq c.kind ▸ hhi)
  refine ⟨offset, imageOffset c s.bank a, hlt, hbytes, ?_⟩
  rw [exec_memrd_of_inWindow hc hw, mapperRead_of_lt hc hlt]
  rw [hbytes, read_loaded, himage.baseZero]
  simp [hlt]

/-! ### The control port -/

theorem exec_iowr_portCtrl (cs : Bool) (hi v : Byte) (s : State) :
    exec (.iowr cs (ioAddress hi s.params.portCtrl) v) s = .next (holdWrite (ctlWrite v s)) := by
  simp [exec, execIowr]

/-- A byte in opcode position is the row its value names (rules R95, R96, R196). -/
theorem exec_decodeOpcode {v : Byte} (h : InOpcodePosition s.bridge v) :
    exec (decodeOpcode v) s = .next (opcodeByte v s) := by
  rcases opcode_values v with hv | rfl | rfl | rfl | rfl | rfl | rfl | rfl | rfl
  case inl =>
    rw [decodeOpcode_of_unrec (by simpa [wellFormedUnrec] using hv), opcodeByte_of_unrecognised hv]
    exact congrArg Host.Outcome.next (atOpcode_of_in h _)
  all_goals exact congrArg Host.Outcome.next (atOpcode_of_in h _)

/-- A control-port byte is the row that its value and the phase name (rule R193). -/
theorem exec_decodeCommand (v : Byte) (s : State) :
    exec (decodeCommand (positionOf s.bridge.phase) v) s = .next (ctlWrite v s) := by
  rcases position_cases s.bridge v with hin | ⟨k, hp⟩ | ⟨hp, rfl⟩
  · have hpos : decodeCommand s.ctx.position v = decodeOpcode v :=
      decodeCommand_of_opcodePosition (opcodePosition_of_in hin)
    rw [ctlWrite_of_in hin, ← exec_decodeOpcode hin, ← hpos]
    rfl
  · rw [ctlWrite_address hp, hp]
    exact exec_addr_of_phase hp v
  · rw [ctlWrite_trigger hp, hp]
    exact exec_go_of_phase hp

/-- Settles O37: the row of the byte, and then the hold. -/
theorem controlWriteIsTheRowThePhaseNames : Obligations.ControlWriteIsTheRowThePhaseNames :=
  fun s cs hi v => ⟨(exec_decodeCommand v s).symm, ctlWrite v s, rfl, exec_iowr_portCtrl cs hi v s⟩

/-- No row of a control-port byte writes a sector (rule R195). -/
theorem callOfInstr_ne_writeSector {i : Instr} {call : DriverCall}
    (h : callOfInstr s i = some call) (n : Word) (d : Block) : call ≠ .writeSector n d := by
  unfold callOfInstr at h
  split at h <;> cases h <;> nofun

/-- Settles O51: a control-port write records the call of its row. -/
theorem controlWritesNeverWriteASector : Obligations.ControlWritesNeverWriteASector := by
  intro s t cs hi v h
  obtain rfl := Host.Outcome.next.inj h
  refine ⟨_, (ctlWrite_call s v).blind, fun w hw n d => ?_⟩
  obtain ⟨call, hcall, rfl⟩ := List.mem_map.1 hw
  have hne := callOfInstr_ne_writeSector (Option.mem_toList.1 hcall) n d
  exact fun heq => hne (Blind.driver.inj heq)

/-- Settles O50: the two rows are the two cases of `Bridge.setStatus`. -/
theorem statusValuesReachTheControlRegister : Obligations.StatusValuesReachTheControlRegister :=
  fun _ => ⟨rfl, rfl⟩

/-! ### The table (rules R253 to R255) -/

theorem exists_of_not_isSentinel {img : Memory} {a n : Nat}
    (h : isSentinel (imgBytes img a n) = false) : ∃ k < n, imgByte img (a + k) ≠ 0xFF#8 := by
  by_contra hno
  push Not at hno
  rw [(isSentinel_imgBytes img a n).2 hno] at h
  cases h

/-- Settles O55: the scan's records and its end, with each record's fields from its 29 bytes. -/
theorem tableScanStopsAtTheSentinel : Obligations.TableScanStopsAtTheSentinel := by
  intro s base
  obtain ⟨hlen, hrec, hend⟩ := scanTable_spec s.img 256 base
  refine ⟨scanTable s.img base 256, rfl, hlen, fun n r hr => ?_, hend.imp_right ?_⟩
  · obtain ⟨hno, rfl⟩ := hrec n r hr
    rw [recordOfBytes_imgBytes]
    exact ⟨exists_of_not_isSentinel hno, rfl, rfl, rfl, rfl⟩
  · exact (isSentinel_imgBytes _ _ _).1

/-! ### Selection (rules R257 to R259) -/

/-- What a load leaves: the kind's configuration and registers, and the image's bytes, one for each
offset below the size. -/
theorem exists_loadImage_eq (k : MapperKind) (r : RomRecord) (s : State) : ∃ bytes : Memory,
    loadImage k r s = { s with
      cfg := some { kind := k, baseOffset := 0#32, size := r.size }
      bank := bankAfterSelect s.params.bankInit k
      rbs := { bytes := bytes, name := some r.name } } ∧
    bytes.wf = true ∧
    ∀ a, Memory.read bytes a =
      if a < r.size.toNat then some (imgByte s.img (r.offset.toNat + a)) else none :=
  ⟨_, rfl, loadImage_wf k r s, read_loaded s.img r.offset.toNat r.size.toNat⟩

/-- Settles O57: `Select(n)` is the load of the listed record, if it is usable. -/
theorem selectLoadsAUsableRecordOrNothing : Obligations.SelectLoadsAUsableRecordOrNothing := by
  intro s n
  have hexec : exec (.select n) s = .next (selectIndex n s) := rfl
  rw [hexec, selectIndex_eq]
  refine ⟨fun r k hr hk hlo hhi hseg => ?_, fun hno => ?_⟩
  · have hload := loadIfUsable_of_usable (s.afterBlind .selection)
      (kindOfCode_eq_some_iff.2 hk) (usableSize_iff.2 ⟨⟨hlo, hhi⟩, hseg⟩)
    obtain ⟨bytes, himage, hwf, hread⟩ := exists_loadImage_eq k r (s.afterBlind .selection)
    rw [show (readTable s.img s.tableBase)[n]? = some r from hr]
    refine ⟨bytes, congrArg _ (hload.trans himage), hwf, fun hid => ?_, hread⟩
    rw [hid, bankAfterSelect_identity]
  · cases hr : (readTable s.img s.tableBase)[n]? with
    | none => rfl
    | some r => exact congrArg _ (loadIfUsable_of_not_usable _ (hno r hr))

/-- Settles O58: the row of a code is the selection of a record with that code. -/
theorem mapperCodesConfigureTheirKind : Obligations.MapperCodesConfigureTheirKind := by
  intro s k code name size offset i hi
  obtain ⟨rfl, hexec⟩ : code = kindCode k ∧
      exec i s = .next (selectRecord (recordOfKind k name size offset) s) := by
    rcases hi with ⟨rfl, rfl, rfl⟩ | ⟨rfl, rfl, rfl⟩ | ⟨rfl, rfl, rfl⟩ | ⟨rfl, rfl, rfl⟩ |
      ⟨rfl, rfl, rfl⟩ | ⟨rfl, rfl, rfl⟩ | ⟨rfl, rfl, rfl⟩ <;> exact ⟨rfl, rfl⟩
  rw [hexec, selectRecord_eq]
  refine ⟨fun hu => ?_, fun hno => congrArg _ (loadIfUsable_of_not_usable _ hno)⟩
  obtain ⟨k', hk', hsize⟩ := usable_iff.1 hu
  obtain rfl : k = k' := Option.some.inj <|
    (kindOfCode_kindCode k).symm.trans (kindOfCode_eq_some_iff.2 hk')
  have hload := loadIfUsable_of_usable (s.afterBlind .selection)
    (r := recordOfKind k name size offset) (kindOfCode_kindCode k) hsize
  obtain ⟨bytes, himage, hwf, hread⟩ :=
    exists_loadImage_eq k (recordOfKind k name size offset) (s.afterBlind .selection)
  exact ⟨bytes, congrArg _ (hload.trans himage), hwf, hread⟩

end Sys2Proof.Machine
end

section
/-! Block transfers as lists of host cycles (rules R209 to R215): the data-port reads of an open read
transfer, the data-port writes of an open write transfer, and both with the reference driver. -/

namespace Sys2Proof.Machine

variable {s t : State}

theorem runEvents_append {l : List BusCycle} (h : runEvents l s = .next t) (m : List BusCycle) :
    runEvents (l ++ m) s = runEvents m t := by
  induction l generalizing s with
  | nil => obtain rfl := Host.Outcome.next.inj h; rfl
  | cons c l ih =>
    rw [runEvents] at h
    rw [List.cons_append, runEvents]
    cases he : eventStep c s with
    | next u => rw [he] at h; exact ih h
    | fault r => rw [he] at h; cases h
    | refused r => rw [he] at h; cases h

/-! ### Data-port reads -/

/-- One data-port read of an open transfer: the byte under the cursor, which then moves on. -/
theorem datRead_step (hpos : s.bridge.bytesPendingOut ≠ 0#16)
    (hsum : s.bridge.cursor.toNat + s.bridge.bytesPendingOut.toNat = 512) :
    ∃ k : Fin 512, k.val = s.bridge.cursor.toNat ∧
      (datRead s).dout = some s.bridge.blockBuffer[k] ∧
      (datRead s).bridge = { s.bridge with
        cursor := s.bridge.cursor + 1#16, bytesPendingOut := s.bridge.bytesPendingOut - 1#16
        dataReg := s.bridge.blockBuffer[k]
        phase := if s.bridge.bytesPendingOut = 1#16 then .idle else s.bridge.phase } := by
  have hlt : s.bridge.cursor.toNat < 512 := by have := toNat_ne_zero hpos; omega
  refine ⟨⟨_, hlt⟩, rfl, ?_, ?_⟩ <;> rw [datRead_deliver hpos]
  · rw [drive_dout, byteAtCursor_eq (k := ⟨_, hlt⟩) rfl]
  · exact deliver_eq (k := ⟨_, hlt⟩) rfl

/-- Reads of the data port to the end of an open transfer: the rest of the buffer in order, after
which the bridge is idle with nothing pending. -/
theorem runEvents_reads {p : Byte} {n : Nat} (hport : s.params.portData = p)
    (hne : s.params.portCtrl ≠ p) (hn : s.bridge.bytesPendingOut.toNat = n)
    (hsum : s.bridge.cursor.toNat + n = 512)
    (hidle : s.bridge.bytesPendingOut = 0#16 → s.bridge.phase = .idle) :
    responses (List.replicate n (portReadCycle p)) s =
      (s.bridge.blockBuffer.toList.drop s.bridge.cursor.toNat).map some ∧
    ∃ t, runEvents (List.replicate n (portReadCycle p)) s = .next t ∧ t.bridge.phase = .idle ∧
      t.bridge.bytesPendingOut = 0#16 ∧ t.bridge.ctrlReg = s.bridge.ctrlReg ∧
      t.bridge.sectorAddress = s.bridge.sectorAddress ∧ t.record = s.record := by
  induction n generalizing s with
  | zero =>
    have h0 : s.bridge.bytesPendingOut = 0#16 := BitVec.eq_of_toNat_eq hn
    refine ⟨?_, s, rfl, hidle h0, h0, rfl, rfl, rfl⟩
    rw [List.drop_of_length_le (by rw [Vector.length_toList, sectorBytes]; omega)]
    rfl
  | succ n ih =>
    have hpos : s.bridge.bytesPendingOut ≠ 0#16 := by intro h; rw [h] at hn; cases hn
    obtain ⟨k, hk, hdout, hbridge⟩ := datRead_step hpos (hn ▸ hsum)
    have hrec : (datRead s).record = s.record := by rw [datRead_deliver hpos]; rfl
    have hparams : (datRead s).params = s.params := by rw [datRead_deliver hpos]; rfl
    obtain ⟨hresp, t, hrun, hphase, hout, hctrl, haddr, hrec'⟩ := ih (s := toReleased (datRead s))
      (by rwa [toReleased_params, hparams]) (by rwa [toReleased_params, hparams])
      (by rw [toReleased_bridge, hbridge, BitVec.toNat_sub, hn]; simp; omega)
      (by rw [toReleased_bridge, hbridge]; simp [BitVec.toNat_add]; omega)
      (by
        rw [toReleased_bridge, hbridge]
        exact fun h => if_pos ((sub_one_eq_zero _).1 h))
    rw [toReleased_bridge, hbridge] at hresp hctrl haddr
    rw [List.replicate_succ, (runEvents_datRead hport hne _).1, (runEvents_datRead hport hne _).2]
    refine ⟨?_, t, hrun, hphase, hout, hctrl, haddr, hrec'.trans hrec⟩
    have hcursor : (s.bridge.cursor + 1#16).toNat = k.val + 1 := by
      rw [BitVec.toNat_add, hk]; simp; omega
    rw [hresp, hdout, hcursor, ← hk, List.drop_eq_getElem_cons (i := k.val) (by simp)]
    simp

/-- Reads of the data port with nothing pending all answer `data_reg`. -/
theorem responses_reads_idle {p : Byte} (m : Nat) (hport : s.params.portData = p)
    (hne : s.params.portCtrl ≠ p) (h0 : s.bridge.bytesPendingOut = 0#16) :
    responses (List.replicate m (portReadCycle p)) s =
      List.replicate m (some s.bridge.dataReg) := by
  induction m generalizing s with
  | zero => rfl
  | succ m ih =>
    rw [List.replicate_succ, (runEvents_datRead hport hne _).2, datRead_repeat h0]
    exact congrArg _ (ih (s := toReleased (drive s.bridge.dataReg s)) hport hne h0)

/-! ### A block read -/

/-- The bridge of a block read whose address has arrived (rules R206, R207). -/
def Bridge.awaitingGo (n : Word) (b : Bridge) : Bridge :=
  { b with
    opcode := 0x06#8, bytesPendingIn := 0#16, bytesPendingOut := 0#16, sectorAddress := n
    phase := .awaitGo }

theorem runEvents_readAddress {p : Byte} (hp : s.params.portCtrl = p)
    (hpos : InOpcodePosition s.bridge 0x06#8) (n : Word) (rest : List BusCycle) :
    let t := toReleased (s.withBridge (s.bridge.awaitingGo n))
    runEvents (addressedCommand p 0x06#8 n ++ rest) s = runEvents rest t ∧
    responses (addressedCommand p 0x06#8 n ++ rest) s =
      List.replicate 5 none ++ responses rest t :=
  runEvents_addressedCommand hp (.inl rfl) hpos n rest

/-- The cycles of a block read up to its trigger: no answer, and then the sector read. -/
theorem runEvents_readCommand {p : Byte} (hp : s.params.portCtrl = p)
    (hpos : InOpcodePosition s.bridge 0x06#8) (n : Word) (rest : List BusCycle) :
    let t := toReleased (sectorRead n (toReleased (s.withBridge (s.bridge.awaitingGo n))))
    runEvents (addressedCommand p 0x06#8 n ++ portWriteCycle p 0x06#8 :: rest) s =
      runEvents rest t ∧
    responses (addressedCommand p 0x06#8 n ++ portWriteCycle p 0x06#8 :: rest) s =
      List.replicate 6 none ++ responses rest t := by
  intro t
  have hgo : toReleased (ctlWrite 0x06#8 (toReleased (s.withBridge (s.bridge.awaitingGo n)))) = t :=
    congrArg toReleased (ctlWrite_trigger rfl)
  obtain ⟨hrun, hresp⟩ := runEvents_readAddress hp hpos n (portWriteCycle p 0x06#8 :: rest)
  obtain ⟨hrun', hresp'⟩ := runEvents_ctlWrite
    (s := toReleased (s.withBridge (s.bridge.awaitingGo n))) hp 0x06#8 rest
  rw [hgo] at hrun' hresp'
  exact ⟨hrun.trans hrun', hresp.trans (by rw [hresp']; rfl)⟩

/-- A sector read that succeeds opens a transfer that reads of the data port empty. -/
theorem runEvents_reads_of_ok {p : Byte} (hport : s.params.portData = p)
    (hne : s.params.portCtrl ≠ p) (hok : s.nextReply.status = .ok) (i : Word) :
    responses (List.replicate 512 (portReadCycle p)) (toReleased (sectorRead i s)) =
      s.nextReply.data.toList.map some ∧
    ∃ t, runEvents (List.replicate 512 (portReadCycle p)) (toReleased (sectorRead i s)) = .next t ∧
      t.bridge.phase = .idle ∧ t.bridge.bytesPendingOut = 0#16 ∧ t.bridge.ctrlReg = 0x00#8 ∧
      t.bridge.sectorAddress = s.bridge.sectorAddress ∧
      t.record = (sectorRead i s).record := by
  rw [sectorRead_of_ok hok]
  exact runEvents_reads (s := toReleased (onBridge (Bridge.openRead s.nextReply.data)
    (s.afterCall (.readSector i)))) hport hne rfl rfl (fun h => by cases h)

/-- Settles O52: the trigger opens a transfer of the driver's 512 bytes, which the reads empty. -/
theorem blockReadDeliversTheSectorInOrder : Obligations.BlockReadDeliversTheSectorInOrder := by
  intro s n d hne hpos hok hdata cycles
  obtain ⟨hrun, hresp⟩ := runEvents_readCommand rfl hpos n
    (List.replicate 512 (portReadCycle s.params.portData))
  obtain ⟨hbytes, t, hreads, hphase, hout, hctrl, haddr, hrec⟩ := runEvents_reads_of_ok
    (s := toReleased (s.withBridge (s.bridge.awaitingGo n))) rfl hne hok n
  subst hdata
  exact ⟨hresp.trans (congrArg _ hbytes), t, hrun.trans hreads, hphase, hctrl, hout, haddr,
    by rw [hrec, sectorRead_of_ok (by exact hok)]; rfl⟩

/-- A failed sector read leaves the error code and nothing pending; `data_reg` stays (rule R213). -/
theorem sectorRead_bridge_of_err (h : s.nextReply.status = .err) (i : Word) :
    (sectorRead i s).params = s.params ∧ (sectorRead i s).bridge.phase = .idle ∧
    (sectorRead i s).bridge.bytesPendingOut = 0#16 ∧
    (sectorRead i s).bridge.ctrlReg = 0xFF#8 ∧
    (sectorRead i s).bridge.dataReg = s.bridge.dataReg := by
  rw [sectorRead_of_err h]
  exact ⟨rfl, rfl, rfl, rfl, rfl⟩

/-- With nothing pending the two ports answer their registers. -/
theorem responses_registers {p q : Byte} (m : Nat) (hp : s.params.portCtrl = p)
    (hq : s.params.portData = q) (hne : p ≠ q) (h0 : s.bridge.bytesPendingOut = 0#16) :
    responses (portReadCycle p :: List.replicate m (portReadCycle q)) s =
      some s.bridge.ctrlReg :: List.replicate m (some s.bridge.dataReg) := by
  subst hp
  obtain ⟨hstep, hctrl⟩ := eventStep_ctlRead s
  rw [responses, hstep, hctrl]
  exact congrArg _ (responses_reads_idle (s := toReleased s) m hq hne h0)

/-- Settles O54: the failed read leaves nothing pending. -/
theorem failedReadExposesNothing : Obligations.FailedReadExposesNothing := by
  intro s n m hne hpos herr command
  obtain ⟨hrun, -⟩ := runEvents_readCommand rfl hpos n []
  obtain ⟨-, hresp⟩ := runEvents_readCommand rfl hpos n (portReadCycle s.params.portCtrl ::
    List.replicate m (portReadCycle s.params.portData))
  obtain ⟨hparams, hphase, hout, hctrl, hdata⟩ := sectorRead_bridge_of_err
    (s := toReleased (s.withBridge (s.bridge.awaitingGo n))) herr n
  have hregs := responses_registers (s := toReleased (sectorRead n _)) m
    (congrArg Params.portCtrl hparams) (congrArg Params.portData hparams) hne hout
  rw [toReleased_bridge, hctrl, hdata] at hregs
  refine ⟨?_, _, hrun, hout, hphase⟩
  rw [List.append_assoc]
  exact hresp.trans (congrArg _ hregs)

/-! ### A block write -/

/-- The bridge of a block write whose address has arrived (rules R207, R210). -/
def Bridge.awaitingData (n : Word) (b : Bridge) : Bridge :=
  { b with
    opcode := 0x08#8, bytesPendingIn := 512#16, bytesPendingOut := 0#16, sectorAddress := n
    cursor := 0#16, phase := .xferWrite }

theorem runEvents_writeAddress {p : Byte} (hp : s.params.portCtrl = p)
    (hpos : InOpcodePosition s.bridge 0x08#8) (n : Word) (rest : List BusCycle) :
    let t := toReleased (s.withBridge (s.bridge.awaitingData n))
    runEvents (addressedCommand p 0x08#8 n ++ rest) s = runEvents rest t ∧
    responses (addressedCommand p 0x08#8 n ++ rest) s =
      List.replicate 5 none ++ responses rest t :=
  runEvents_addressedCommand hp (.inr rfl) hpos n rest

/-- A block write of `d` to sector `n`, begun in `s`, of which `k` bytes have arrived in `t`. -/
structure Writing (s : State) (n : Word) (d : Block) (k : Nat) (t : State) : Prop where
  params : t.params = s.params
  env : t.env = s.env
  record : t.record = s.record
  phase : t.bridge.phase = .xferWrite
  ctrlReg : t.bridge.ctrlReg = s.bridge.ctrlReg
  address : t.bridge.sectorAddress = n
  cursor : t.bridge.cursor.toNat = k
  pending : t.bridge.bytesPendingIn.toNat + k = 512
  stored : ∀ i : Fin 512, i.val < k → t.bridge.blockBuffer[i] = d[i]

namespace Writing

variable {n : Word} {d : Block} {k : Nat}

theorem start (s : State) (n : Word) (d : Block) :
    Writing s n d 0 (toReleased (s.withBridge (s.bridge.awaitingData n))) :=
  ⟨rfl, rfl, rfl, rfl, rfl, rfl, rfl, rfl, nofun⟩

/-- A byte that is not the last is stored (rule R200). -/
theorem next (h : Writing s n d k t) (hk : k + 1 < 512) :
    Writing s n d (k + 1) (toReleased (datWrite (d[k]'(Nat.lt_of_succ_lt hk)) t)) := by
  have hpending := h.pending
  have hmany (x : Half) (hx : x.toNat ≤ 1) : t.bridge.bytesPendingIn ≠ x := by
    rintro rfl
    omega
  have hcursor : t.bridge.cursor.toNat = (⟨k, by omega⟩ : Fin 512).val := h.cursor
  rw [datWrite_store (hmany _ (by decide)) (hmany _ (by decide)), onBridge, accept_eq hcursor]
  refine ⟨h.params, h.env, h.record, h.phase, h.ctrlReg, h.address, ?_, ?_, fun i hi => ?_⟩
  · simp [BitVec.toNat_add, h.cursor]; omega
  · simp [BitVec.toNat_sub]; omega
  · simp only [toReleased_bridge, Fin.getElem_fin, Vector.getElem_set]
    split
    · simp [*]
    · exact h.stored i (by omega)

/-- The first bytes of a block, fewer than all. -/
theorem run (hne : s.params.portCtrl ≠ s.params.portData) (h : Writing s n d 0 t) (hk : k < 512) :
    ∃ u, runEvents ((d.toList.take k).map (portWriteCycle s.params.portData)) t = .next u ∧
      Writing s n d k u := by
  induction k with
  | zero => exact ⟨t, rfl, h⟩
  | succ k ih =>
    obtain ⟨u, hrun, hu⟩ := ih (by omega)
    refine ⟨_, ?_, hu.next hk⟩
    rw [List.take_succ_eq_append_getElem (by rw [Vector.length_toList, sectorBytes]; omega), List.map_append, runEvents_append hrun]
    simp only [List.map_cons, List.map_nil]
    rw [(runEvents_datWrite (by rw [hu.params]) (by rwa [hu.params]) _ [])]
    simp [runEvents]

theorem pending_last (h : Writing s n d 511 t) : t.bridge.bytesPendingIn = 1#16 := by
  have hpending := h.pending
  exact BitVec.eq_of_toNat_eq (by simp; omega)

/-- With the last byte the buffer is the block. -/
theorem accept_last (h : Writing s n d 511 t) : t.bridge.accept d[511] = { t.bridge with
    dataReg := d[511], blockBuffer := d, cursor := t.bridge.cursor + 1#16
    bytesPendingIn := 0#16 } := by
  have hbuffer : t.bridge.blockBuffer.set (⟨511, by decide⟩ : Fin 512) d[511] = d := by
    refine Vector.ext fun i hi => ?_
    simp only [Vector.getElem_set]
    split
    · simp [*]
    · exact h.stored ⟨i, hi⟩ (by simp [sectorBytes] at hi; simp; omega)
  rw [accept_eq (k := ⟨511, by decide⟩) h.cursor, hbuffer, h.pending_last]
  rfl

/-- The last byte commits: the driver is called with the block (rules R200, R211). -/
theorem datWrite_eq (h : Writing s n d 511 t) : datWrite d[511] t =
    (t.afterCall (.writeSector n d)).withBridge
      ((if t.nextReply.status = .ok then Bridge.committed else Bridge.raiseStorageError)
        { t.bridge with
          dataReg := d[511], blockBuffer := d, cursor := t.bridge.cursor + 1#16
          bytesPendingIn := 0#16 }) := by
  rw [datWrite_last h.pending_last, onBridge, h.accept_last, commitSector_eq, ← h.address]
  rfl

/-- The end of a block write: one call with the block, and the status and the address that the
driver's answer decides (rules R200, R211). -/
theorem commit (h : Writing s n d 511 t) :
    (datWrite d[511] t).record.blind =
      { what := .driver (.writeSector n d), wait := s.params.useWait } :: s.record.blind ∧
    (datWrite d[511] t).bridge.phase = .idle ∧
    (s.nextReply.status = .ok → (datWrite d[511] t).bridge.ctrlReg = 0x00#8 ∧
      (datWrite d[511] t).bridge.sectorAddress = n + 1#32) ∧
    (s.nextReply.status = .err → (datWrite d[511] t).bridge.ctrlReg = 0xFF#8 ∧
      (datWrite d[511] t).bridge.sectorAddress = n) := by
  have hreply : t.nextReply = s.nextReply := by rw [State.nextReply, h.env]; rfl
  have hblind : (t.afterCall (.writeSector n d)).record.blind =
      { what := .driver (.writeSector n d), wait := s.params.useWait } :: s.record.blind := by
    rw [← h.params, ← h.record]; rfl
  rw [h.datWrite_eq, hreply]
  refine ⟨hblind, ?_, fun hok => ?_, fun herr => ?_⟩
  · split <;> rfl
  · rw [if_pos hok, ← h.address]
    exact ⟨rfl, rfl⟩
  · rw [if_neg (by rw [herr]; decide)]
    exact ⟨rfl, h.address⟩

end Writing

theorem toList_eq_take_append (d : Block) : d.toList = d.toList.take 511 ++ [d[511]] := by
  have hlen : d.toList.length = 511 + 1 := Vector.length_toList
  conv_lhs => rw [← List.take_length (l := d.toList), hlen,
    List.take_succ_eq_append_getElem (by rw [hlen]; omega)]
  simp

/-- All of a block but its last byte, after the command. -/
theorem exists_writing (hne : s.params.portCtrl ≠ s.params.portData)
    (hpos : InOpcodePosition s.bridge 0x08#8) (n : Word) (d : Block) {k : Nat} (hk : k < 512) :
    ∃ t, runEvents (addressedCommand s.params.portCtrl 0x08#8 n ++
        (d.toList.take k).map (portWriteCycle s.params.portData)) s = .next t ∧
      Writing s n d k t := by
  obtain ⟨t, hrun, ht⟩ := (Writing.start s n d).run hne hk
  exact ⟨t, (runEvents_writeAddress rfl hpos n _).1.trans hrun, ht⟩

theorem eventStep_datWrite_of_params {p : Byte} (hp : t.params.portData = p)
    (hne : t.params.portCtrl ≠ p) (v : Byte) :
    eventStep (portWriteCycle p v) t = .next (toReleased (datWrite v t)) := by
  subst hp
  exact eventStep_datWrite t hne v

/-- A block write, in the environment's own answers (rule R214). -/
theorem blockWrite_commits (hne : s.params.portCtrl ≠ s.params.portData)
    (hpos : InOpcodePosition s.bridge 0x08#8) (n : Word) (d : Block) :
    ∃ t, Writing s n d 511 t ∧
      runEvents (addressedCommand s.params.portCtrl 0x08#8 n ++
        d.toList.map (portWriteCycle s.params.portData)) s =
          .next (toReleased (datWrite d[511] t)) := by
  obtain ⟨t, hrun, ht⟩ := exists_writing hne hpos n d (k := 511) (by decide)
  refine ⟨t, ht, ?_⟩
  rw [toList_eq_take_append d, List.map_append, ← List.append_assoc, runEvents_append hrun]
  simp only [List.map_cons, List.map_nil, runEvents]
  rw [eventStep_datWrite_of_params (by rw [ht.params]) (by rwa [ht.params])]

/-! ### With the reference driver (rules R71, R133) -/

/-- The state in which the driver's next answer is the given one. -/
def State.withReply (s : State) (r : Reply) : State :=
  { s with env := { s.env with replies := r :: s.env.replies } }

theorem callOf_ctlWrite (v : Byte) (s : State) :
    s.callOf (portWriteCycle s.params.portCtrl v) =
      callOfInstr s (decodeCommand (positionOf s.bridge.phase) v) := by
  simp only [State.callOf, portWriteCycle, decodeCycle, portOf_ioAddress, if_true]
  rfl

/-- The last write of a block calls the driver with the block. -/
theorem Writing.callOf {n : Word} {d : Block} (h : Writing s n d 511 t)
    (hne : s.params.portCtrl ≠ s.params.portData) :
    t.callOf (portWriteCycle s.params.portData d[511]) = some (.writeSector n d) := by
  simp [State.callOf, portWriteCycle, decodeCycle, h.params, hne.symm, h.pending_last,
    h.accept_last, h.address]

/-- The progress of a block write does not depend on the answer that is to come. -/
theorem Writing.withReply {n : Word} {d : Block} {k : Nat} (h : Writing s n d k t) (r : Reply) :
    Writing (s.withReply r) n d k (t.withReply r) :=
  ⟨h.params, by rw [State.withReply, State.withReply, h.env], h.record, h.phase, h.ctrlReg,
    h.address, h.cursor, h.pending, h.stored⟩

/-- Cycles that call no driver, and then one that does: it answers nothing and gets the driver's
answer. -/
theorem runWith_quiet_call {l : List BusCycle} {c : BusCycle} {u : State} {driver : RefDriver}
    {call : DriverCall} (hrun : runEvents l s = .next u) (hquiet : u.record.blind = s.record.blind)
    (hcall : u.callOf c = some call)
    (hstep : eventStep c (u.withReply (driver.reply call)) = .next t) (rest : List BusCycle) :
    runWith (l ++ c :: rest) driver s = runWith rest (driver.after call) t ∧
    responsesWith (l ++ c :: rest) driver s =
      responses l s ++ none :: responsesWith rest (driver.after call) t := by
  have hnone : response c (u.withReply (driver.reply call)) = none :=
    response_of_claimedWrite (claimedWrite_of_callOf (s := u) (by rw [hcall]; rfl))
  obtain ⟨hquietRun, hquietResp⟩ := runWith_of_quiet hrun hquiet driver (c :: rest)
  obtain ⟨hcallRun, hcallResp⟩ := runWith_cons_call hcall hstep rest
  refine ⟨hquietRun.trans hcallRun, hquietResp.trans (congrArg _ (hcallResp.trans ?_))⟩
  exact congrArg (· :: _) hnone

/-- A block write with the reference driver: no answer, and the driver has got the block. -/
theorem runWith_blockWrite (hne : s.params.portCtrl ≠ s.params.portData)
    (hpos : InOpcodePosition s.bridge 0x08#8) (driver : RefDriver) (n : Word) (d : Block) :
    ∃ t, t.params = s.params ∧ t.bridge.phase = .idle ∧ ∀ rest,
      runWith ((addressedCommand s.params.portCtrl 0x08#8 n ++
        d.toList.map (portWriteCycle s.params.portData)) ++ rest) driver s =
          runWith rest (driver.after (.writeSector n d)) t ∧
      responsesWith ((addressedCommand s.params.portCtrl 0x08#8 n ++
        d.toList.map (portWriteCycle s.params.portData)) ++ rest) driver s =
          List.replicate 517 none ++ responsesWith rest (driver.after (.writeSector n d)) t := by
  obtain ⟨u, hrun, hu⟩ := exists_writing hne hpos n d (k := 511) (by decide)
  obtain ⟨-, hphase, -, -⟩ := (hu.withReply (driver.reply (.writeSector n d))).commit
  have hstep := eventStep_datWrite_of_params
    (t := u.withReply (driver.reply (.writeSector n d))) (congrArg Params.portData hu.params)
    (by show u.params.portCtrl ≠ _; rwa [hu.params]) d[511]
  refine ⟨toReleased (datWrite d[511] (u.withReply (driver.reply (.writeSector n d)))),
    (datWrite_same _ _).params.trans hu.params, hphase, fun rest => ?_⟩
  have hsplit : (addressedCommand s.params.portCtrl 0x08#8 n ++
      d.toList.map (portWriteCycle s.params.portData)) ++ rest =
      (addressedCommand s.params.portCtrl 0x08#8 n ++
        (d.toList.take 511).map (portWriteCycle s.params.portData)) ++
      portWriteCycle s.params.portData d[511] :: rest := by
    conv_lhs => rw [toList_eq_take_append d]
    simp
  have hresp : responses (addressedCommand s.params.portCtrl 0x08#8 n ++
      (d.toList.take 511).map (portWriteCycle s.params.portData)) s = List.replicate 516 none := by
    rw [(runEvents_writeAddress rfl hpos n _).2, responses_datWrites
      (s := toReleased (s.withBridge (s.bridge.awaitingData n))) (p := s.params.portData)
      _ rfl hne, List.length_take_of_le (by rw [Vector.length_toList]; decide),
      ← List.replicate_add]
  obtain ⟨hcallRun, hcallResp⟩ :=
    runWith_quiet_call hrun (by rw [hu.record]) (hu.callOf hne) hstep rest
  rw [hsplit, hcallRun, hcallResp, hresp, List.replicate_succ' (n := 516), List.append_assoc]
  exact ⟨rfl, rfl⟩

/-- A block read of a sector that the reference driver serves answers that sector's bytes. -/
theorem runWith_blockRead (hne : s.params.portCtrl ≠ s.params.portData)
    (hpos : InOpcodePosition s.bridge 0x06#8) {driver : RefDriver} {n : Word}
    (hserves : driver.serves n = true) :
    let cycles := addressedCommand s.params.portCtrl 0x06#8 n ++
      portWriteCycle s.params.portCtrl 0x06#8 ::
      List.replicate 512 (portReadCycle s.params.portData)
    responsesWith cycles driver s = List.replicate 6 none ++ (driver.sect n).toList.map some ∧
    ∃ t, runWith cycles driver s = .next (t, driver) ∧ t.bridge.ctrlReg = 0x00#8 := by
  intro cycles
  let u := toReleased (s.withBridge (s.bridge.awaitingGo n))
  let v := u.withReply (driver.reply (.readSector n))
  obtain ⟨hrun, hresp⟩ := runEvents_readAddress rfl hpos n []
  rw [List.append_nil] at hrun hresp
  have hok : v.nextReply.status = .ok := by
    show statusOf (driver.serves n) = .ok
    rw [hserves]
    rfl
  have hstep : eventStep (portWriteCycle s.params.portCtrl 0x06#8) v =
      .next (toReleased (sectorRead n v)) :=
    (eventStep_ctlWrite v 0x06#8).trans (congrArg _ (congrArg toReleased (ctlWrite_trigger rfl)))
  obtain ⟨hcallRun, hcallResp⟩ := runWith_quiet_call hrun rfl (callOf_ctlWrite 0x06#8 u) hstep
    (List.replicate 512 (portReadCycle s.params.portData))
  obtain ⟨hbytes, t, hreads, -, -, hctrl, -, hrec⟩ := runEvents_reads_of_ok (s := v) rfl hne hok n
  obtain ⟨hquietRun, hquietResp⟩ := runWith_of_quiet hreads (by rw [hrec]; rfl)
    (driver.after (.readSector n)) []
  rw [List.append_nil] at hquietRun hquietResp
  have htail : responsesWith (List.replicate 512 (portReadCycle s.params.portData)) driver
      (toReleased (sectorRead n v)) = (driver.sect n).toList.map some :=
    hquietResp.trans ((List.append_nil _).trans hbytes)
  refine ⟨hcallResp.trans ?_, t, hcallRun.trans hquietRun, hctrl⟩
  rw [hresp]
  exact congrArg (List.replicate 5 none ++ [] ++ none :: ·) htail

/-- A write that the reference driver serves sets its sector and no other. -/
theorem after_writeSector_of_serves {driver : RefDriver} {n : Word} (h : driver.serves n = true)
    (d : Block) : driver.after (.writeSector n d) =
      { driver with sect := fun m => if m = n then d else driver.sect m } := by
  simp [RefDriver.after, h]

/-- Settles O53: the writes store all bytes but the last, which commits; with the reference driver the
block read then finds the driver as the block write left it. -/
theorem blockWriteCommitsExactlyItsBytes : Obligations.BlockWriteCommitsExactlyItsBytes := by
  refine ⟨fun s n d k hne hpos hk => ?_, fun s driver n d hne hpos hok hlt => ?_⟩
  · rcases Nat.lt_or_eq_of_le hk with hlt | rfl
    · obtain ⟨t, hrun, ht⟩ := exists_writing hne hpos n d hlt
      exact ⟨t, hrun, fun _ => ⟨by rw [ht.record], ht.phase, ht.ctrlReg⟩,
        fun h => absurd h (Nat.ne_of_lt hlt)⟩
    · obtain ⟨t, ht, hrun⟩ := blockWrite_commits hne hpos n d
      rw [List.take_of_length_le (le_of_eq Vector.length_toList)]
      exact ⟨_, hrun, fun h => absurd h (lt_irrefl _), fun _ => ht.commit⟩
  · intro cycles
    have hserves : driver.serves n = true := by simp [RefDriver.serves, hok, hlt]
    have hafter := after_writeSector_of_serves hserves d
    obtain ⟨t, hparams, hphase, hwrite⟩ := runWith_blockWrite hne hpos driver n d
    have hserves' : (driver.after (.writeSector n d)).serves n = true := by
      rw [hafter]; exact hserves
    obtain ⟨hreadResp, u, hreadRun, hctrl⟩ := runWith_blockRead (s := t) (by rwa [hparams])
      ⟨by simp [hphase], by simp [hphase]⟩ hserves'
    rw [hparams] at hreadResp hreadRun
    obtain ⟨hwriteRun, hwriteResp⟩ := hwrite (addressedCommand s.params.portCtrl 0x06#8 n ++
      portWriteCycle s.params.portCtrl 0x06#8 ::
      List.replicate 512 (portReadCycle s.params.portData))
    refine ⟨hwriteResp.trans ?_, u, _, hwriteRun.trans hreadRun, hctrl, ?_⟩
    · rw [hreadResp, hafter, ← List.append_assoc, ← List.replicate_add]
      dsimp only
      rw [if_pos rfl]
    · rw [hafter]
      exact ⟨rfl, rfl, fun m => rfl⟩

end Sys2Proof.Machine
end

section
/-! One host cycle on the lines is one event (rule R133): the steps of its sample, of the driver call it
makes, of its effect, of its strobe while it is low, and of its end. -/

namespace Sys2Proof.Machine

/-- A driver call is running: the loop is at its point, the wait output is asserted with `USE_WAIT`, and
the cycle that makes the call is on the record as the last sample. -/
def State.duringCall (s : State) (c : BusCycle) (left : Nat) (inputs : List Instant) (time : Nat) :
    State :=
  (s.elsewhere (.calling c left) inputs time (some c)).withWait s.params.useWait

section

variable {s v : State} {c : BusCycle} {i : Instant} {inp : List Instant} {n : Nat}

/-- With the second task silent the passing of an instant moves the inputs and the clock alone. -/
theorem advance_elsewhere (hf : v.env.flagWrites = []) (hi : i.flagWrite = none) (p : LoopPoint)
    (smp : Option BusCycle) :
    advance (v.elsewhere p (i :: inp) n smp) = v.elsewhere p inp (n + 1) smp := by
  have hqueue : (v.elsewhere p (i :: inp) n smp).flagQueue = [] := by
    show v.env.flagWrites ++ i.flagWrite.toList = []
    rw [hf, hi]
    rfl
  rw [advance, hqueue]
  simp only [State.elsewhere, inFlight_nil, flagAfter_nil, hf]
  rfl

/-! ### The sample -/

/-- A cycle that calls nobody has its effect in the step that samples it. -/
theorem step_acted (hr : s.bcc.stage = .running) (hp : s.bcc.phase = .released) (hs : s.AtSample)
    (hf : s.env.flagWrites = []) (hin : s.env.inputs = i :: inp) (hi : i.flagWrite = none)
    (hc : cycleOfLines i.lines = c) (hcall : s.callOf c = none)
    (hv : exec (decodeCycle c) s = .next v) :
    step s = .next (v.elsewhere .top inp (s.env.time + 1) s.record.sampled) := by
  have hsample : s.sample = c := by rw [State.sample, State.now, hin]; exact hc
  have hexec := exec_cycle_elsewhere s .top s.env.inputs s.env.time s.record.sampled c
  rw [hv, mapNext_next, hin] at hexec
  have htop : toPoint .top s = s.elsewhere .top (i :: inp) s.env.time s.record.sampled := by
    rw [← hin]; rfl
  rw [step_of_sample hr hp hs (by rw [hsample, hcall]), hsample, htop, hexec, mapNext_next,
    advance_elsewhere ((exec_cycle_frame hv).flagWrites.trans hf) hi]

/-- A cycle that calls the driver is only noted as sampled. -/
theorem step_sampled (hr : s.bcc.stage = .running) (hp : s.bcc.phase = .released) (hs : s.AtSample)
    (hf : s.env.flagWrites = []) (hin : s.env.inputs = i :: inp) (hi : i.flagWrite = none)
    (hc : cycleOfLines i.lines = c) (hcall : (s.callOf c).isSome = true) :
    step s = .next (s.elsewhere (.sampled c i.busy) inp (s.env.time + 1) (some c)) := by
  have hnow : s.now = i := by rw [State.now, hin]; rfl
  have hsample : s.sample = c := by rw [State.sample, hnow, hc]
  rw [step_of_sampleCall hr hp hs (by rw [hsample, hcall]), exec_sample hp, mapNext_next, hsample,
    hnow, ← advance_elsewhere hf hi, ← hin]
  rfl

/-! ### The driver call -/

theorem step_callBegins (hr : s.bcc.stage = .running) (hp : s.bcc.phase = .released)
    (hf : s.env.flagWrites = []) (hi : i.flagWrite = none) (k : Nat) :
    step (s.elsewhere (.sampled c k) (i :: inp) n (some c)) =
      .next (s.duringCall c k inp (n + 1)) :=
  step_waitCall (s := s.elsewhere (.sampled c k) (i :: inp) n (some c)) hr hp (.inl rfl) hf hi

theorem step_duringCall (hr : s.bcc.stage = .running) (hp : s.bcc.phase = .released)
    (hf : s.env.flagWrites = []) (hi : i.flagWrite = none) (k : Nat) :
    step (s.duringCall c (k + 1) (i :: inp) n) = .next (s.duringCall c k inp (n + 1)) :=
  step_waitCall (s := s.duringCall c (k + 1) (i :: inp) n) hr hp (.inr rfl) hf hi

/-- While it lasts the call only comes nearer to its end. -/
theorem runSteps_duringCall (hr : s.bcc.stage = .running) (hp : s.bcc.phase = .released)
    (hf : s.env.flagWrites = []) {l : List Instant} (hl : ∀ i ∈ l, i.flagWrite = none) (k : Nat) :
    runSteps l.length (s.duringCall c (l.length + k) (l ++ inp) n) =
      .next (s.duringCall c k inp (n + l.length)) := by
  induction l generalizing n with
  | nil => simp [runSteps]
  | cons i l ih =>
    have hstep := step_duringCall (c := c) (inp := l ++ inp) (n := n) hr hp hf
      (hl i (List.mem_cons_self ..)) (l.length + k)
    rw [List.length_cons, Nat.add_right_comm, List.cons_append, runSteps_succ hstep,
      ih fun x hx => hl x (List.mem_cons_of_mem _ hx)]
    congr 2
    omega

/-- The call returns, and the cycle has its effect. -/
theorem step_callReturns (hr : s.bcc.stage = .running) (hp : s.bcc.phase = .released)
    (hf : s.env.flagWrites = []) (hi : i.flagWrite = none) (hcall : (s.callOf c).isSome = true)
    (hv : exec (decodeCycle c) s = .next v) :
    step (s.duringCall c 0 (i :: inp) n) = .next (v.elsewhere .top inp (n + 1) (some c)) := by
  have hexec := exec_cycle_elsewhere s .top (i :: inp) n (some c) c
  rw [hv, mapNext_next] at hexec
  have htop : toPoint .top (s.duringCall c 0 (i :: inp) n) =
    (s.elsewhere .top (i :: inp) n (some c)).withWait s.params.useWait := rfl
  rw [step_of_callReturning (s := s.duringCall c 0 (i :: inp) n) hr hp rfl, htop,
    exec_cycle_withWait (s.elsewhere .top (i :: inp) n (some c)) hcall, hexec, mapNext_next,
    advance_elsewhere ((exec_cycle_frame hv).flagWrites.trans hf) hi]

/-! ### The strobe -/

/-- The line that ends a cycle, at an instant (rule R127). -/
def strobeLevel (st : Strobe) (i : Instant) : Bool :=
  match st with
  | .rd => i.lines.rdN
  | .wr => i.lines.wrN

theorem step_served {st : Strobe} (hr : v.bcc.stage = .running)
    (hp : v.bcc.phase = .holding st ∨ ∃ b, v.bcc.phase = .driving b st)
    (hf : v.env.flagWrites = []) (hi : i.flagWrite = none) (p : LoopPoint)
    (smp : Option BusCycle) :
    step (v.elsewhere p (i :: inp) n smp) =
      .next ((if strobeLevel st i = true then toReleased v else v).elsewhere p inp (n + 1) smp) := by
  obtain ⟨t, ht⟩ := everyStepAndOperationAnswersANextState.1 (v.elsewhere p (i :: inp) n smp)
  rw [ht, step_of_served (s := v.elsewhere p (i :: inp) n smp) hr hp ht]
  have hlevel : (v.elsewhere p (i :: inp) n smp).strobeHigh st = strobeLevel st i := by
    cases st <;> rfl
  rw [hlevel]
  split
  · rw [← advance_elsewhere (v := toReleased v) hf hi]
    rfl
  · rw [advance_elsewhere hf hi]

/-- While its strobe is low a served cycle stays as it is. -/
theorem runSteps_low {st : Strobe} (hr : v.bcc.stage = .running)
    (hp : v.bcc.phase = .holding st ∨ ∃ b, v.bcc.phase = .driving b st)
    (hf : v.env.flagWrites = []) (p : LoopPoint) (smp : Option BusCycle) {l : List Instant}
    (hl : ∀ i ∈ l, i.flagWrite = none ∧ strobeLevel st i = false) :
    runSteps l.length (v.elsewhere p (l ++ inp) n smp) =
      .next (v.elsewhere p inp (n + l.length) smp) := by
  induction l generalizing n with
  | nil => rfl
  | cons i l ih =>
    obtain ⟨hi, hlow⟩ := hl i (List.mem_cons_self ..)
    rw [List.length_cons, List.cons_append, runSteps_succ (step_served hr hp hf hi p smp),
      if_neg (by rw [hlow]; nofun), ih fun x hx => hl x (List.mem_cons_of_mem _ hx)]
    congr 2
    omega

end

/-! ### From the sample to the effect -/

/-- The loop has arrived at its sample, the lines show the cycle at the first instant, and the next
instants are those of the driver call it makes, with the second task silent. -/
structure Arrives (s : State) (c : BusCycle) (first : Instant) (call inp : List Instant) : Prop where
  running : s.bcc.stage = .running
  released : s.bcc.phase = .released
  atSample : s.AtSample
  inputs : s.env.inputs = first :: (call ++ inp)
  cycle : cycleOfLines first.lines = c
  length : call.length = if s.callOf c = none then 0 else first.busy + 2
  noWrites : s.env.flagWrites = []
  silent : ∀ i ∈ first :: call, i.flagWrite = none

namespace Arrives

variable {s v : State} {c : BusCycle} {first opening : Instant} {call l inp : List Instant}

/-- In the midst of the call: its first instant and some more are over. -/
theorem runSteps_calling {k : Nat} (h : Arrives s c first (opening :: l) inp)
    (hcall : (s.callOf c).isSome = true) {m m' : List Instant} (hl : l = m ++ m')
    (hbusy : first.busy = m.length + k) :
    runSteps (m.length + 2) s =
      .next (s.duringCall c k (m' ++ inp) (s.env.time + 2 + m.length)) := by
  have hin : s.env.inputs = first :: opening :: (m ++ (m' ++ inp)) := by
    rw [h.inputs, hl]; simp
  have hsampled := step_sampled h.running h.released h.atSample h.noWrites hin
    (h.silent first (by simp)) h.cycle hcall
  have hbegins := step_callBegins (c := c) (n := s.env.time + 1) (inp := m ++ (m' ++ inp)) h.running
    h.released h.noWrites (h.silent opening (by simp)) first.busy
  rw [runSteps_succ hsampled, runSteps_succ hbegins, hbusy]
  exact runSteps_duringCall h.running h.released h.noWrites
    (fun i hi => h.silent i (by simp [hl, hi])) k

/-- After the last instant of the call, or of the sample if there is none, the cycle has its effect. -/
theorem runSteps_acted (h : Arrives s c first call inp) (hv : exec (decodeCycle c) s = .next v) :
    runSteps (call.length + 1) s = .next (v.elsewhere .top inp (s.env.time + call.length + 1)
      (if s.callOf c = none then s.record.sampled else some c)) := by
  have hlen := h.length
  by_cases hcall : s.callOf c = none
  · rw [if_pos hcall] at hlen
    obtain rfl := List.length_eq_zero_iff.1 hlen
    rw [if_pos hcall]
    exact runSteps_succ (step_acted h.running h.released h.atSample h.noWrites h.inputs
      (h.silent first (by simp)) h.cycle hcall hv) 0
  · have hsome := Option.isSome_iff_ne_none.2 hcall
    rw [if_neg hcall] at hlen
    obtain ⟨opening, l, rfl⟩ := List.exists_cons_of_length_eq_add_one hlen
    obtain ⟨m, last, rfl⟩ : ∃ m last, l = m ++ [last] := by
      refine (List.eq_nil_or_concat' l).resolve_left fun hnil => ?_
      rw [hnil] at hlen
      simp at hlen
    have hbusy : first.busy = m.length + 0 := by simp at hlen; omega
    have hreturns := step_callReturns (n := s.env.time + 2 + m.length) (inp := inp) h.running
      h.released h.noWrites (h.silent last (by simp)) hsome hv
    rw [if_neg hcall, show (opening :: (m ++ [last])).length + 1 = m.length + 2 + 1 by simp,
      runSteps_add (h.runSteps_calling hsome rfl hbusy) 1, List.singleton_append,
      runSteps_succ hreturns]
    simp only [runSteps, List.length_cons, List.length_append, List.length_nil]
    congr 2
    omega

/-- And while its strobe is low the cycle stays as it is. -/
theorem runSteps_served {st : Strobe} {m : List Instant} (h : Arrives s c first call (m ++ inp))
    (hv : exec (decodeCycle c) s = .next v)
    (hserved : v.bcc.phase = .holding st ∨ ∃ b, v.bcc.phase = .driving b st)
    (hm : ∀ i ∈ m, i.flagWrite = none ∧ strobeLevel st i = false) :
    runSteps (call.length + 1 + m.length) s =
      .next (v.elsewhere .top inp (s.env.time + call.length + 1 + m.length)
        (if s.callOf c = none then s.record.sampled else some c)) := by
  have hframe := exec_cycle_frame hv
  rw [runSteps_add (h.runSteps_acted hv)]
  exact runSteps_low (hframe.stage.trans h.running) hserved (hframe.flagWrites.trans h.noWrites)
    _ _ hm

/-- While the call lasts nothing is driven and the bridge does not change. -/
theorem exists_runSteps_calling (h : Arrives s c first call inp) {k : Nat} (hk : k < call.length) :
    ∃ u, runSteps (k + 1) s = .next u ∧ u.dout = none ∧ u.bridge = s.bridge ∧
      u.record.blind = s.record.blind ∧
      u.bcc.wait = if k = 0 then s.bcc.wait else s.params.useWait := by
  have hlen := h.length
  have hcall : s.callOf c ≠ none := by
    intro hnone
    rw [if_pos hnone] at hlen
    omega
  have hsome := Option.isSome_iff_ne_none.2 hcall
  rw [if_neg hcall] at hlen
  have hdout : s.dout = none := by rw [State.dout, h.released]
  cases k with
  | zero =>
    have hsampled := step_sampled h.running h.released h.atSample h.noWrites h.inputs
      (h.silent first (by simp)) h.cycle hsome
    exact ⟨_, runSteps_succ hsampled 0, hdout, rfl, rfl, rfl⟩
  | succ k =>
    obtain ⟨opening, l, rfl⟩ := List.exists_cons_of_length_eq_add_one hlen
    have hkl : k ≤ l.length := by simp at hk; omega
    have hbusy : first.busy = (l.take k).length + (first.busy - k) := by
      simp at hlen hk; rw [List.length_take_of_le hkl]; omega
    have hrun := h.runSteps_calling hsome (List.take_append_drop k l).symm hbusy
    rw [List.length_take_of_le hkl] at hrun
    exact ⟨_, hrun, hdout, rfl, rfl, rfl⟩

end Arrives

/-! ### From the effect to the end -/

/-- After its effect a claimed cycle is served by the strobe of its kind. -/
theorem served_of_claimed {s v : State} {c : BusCycle} (hc : s.claimed c = true)
    (hv : exec (decodeCycle c) s = .next v) : ∃ st, (st = if c.isRead = true then .rd else .wr) ∧
      (v.bcc.phase = .holding st ∨ ∃ b, v.bcc.phase = .driving b st) := by
  rcases exec_cycle_phase hv with ⟨hno, -⟩ | ⟨hread, -, -, b, hb⟩ | ⟨hread, -, -, hhold⟩
  · rw [hno] at hc
    cases hc
  · exact ⟨.rd, by rw [if_pos hread], .inr ⟨b, hb⟩⟩
  · exact ⟨.wr, by rw [hread]; rfl, .inl hhold⟩

/-- Settles O23: the steps up to the effect, those while the strobe is low, and the last one. -/
theorem lineCycleIsOneEvent : Obligations.LineCycleIsOneEvent := by
  intro s c first high call low rest hr hp hs hin hcycle hclaim hlen hlow hhigh hf hsilent
  obtain ⟨v, hv⟩ := exec_answers (decodeCycle c) s
  obtain ⟨st, hst, hserved⟩ := served_of_claimed hclaim hv
  have hlevel (i : Instant) :
      strobeLevel st i = if c.isRead = true then i.lines.rdN else i.lines.wrN := by
    rw [hst]; split <;> rfl
  have harrives (m m' : List Instant) (hm : low = m ++ m') :
      Arrives s c first call (m ++ (m' ++ high :: rest)) :=
    ⟨hr, hp, hs, by rw [hin, hm]; simp, hcycle, hlen, hf, fun i hi => hsilent i (by
      rcases List.mem_cons.1 hi with rfl | hi <;> simp [*])⟩
  have hserving (m m' : List Instant) (hm : low = m ++ m') :=
    (harrives m m' hm).runSteps_served hv hserved fun i hi =>
      ⟨hsilent i (by simp [hm, hi]), by rw [hlevel]; exact hlow i (by simp [hm, hi])⟩
  have hframe := exec_cycle_frame hv
  refine ⟨toReleased v, by rw [eventStep, hv]; rfl, ?_,
    fun k hk => (harrives [] low rfl).exists_runSteps_calling hk, fun k hk => ?_⟩
  · have hend := step_served (v := v) (i := high) (inp := rest)
      (n := s.env.time + call.length + 1 + low.length) (hframe.stage.trans hr) hserved
      (hframe.flagWrites.trans hf) (hsilent high (by simp)) .top
      (if s.callOf c = none then s.record.sampled else some c)
    rw [if_pos ((hlevel high).trans hhigh)] at hend
    rw [show call.length + low.length + 2 = call.length + 1 + low.length + 1 by omega,
      runSteps_add (hserving low [] (List.append_nil _).symm) 1]
    refine (runSteps_succ hend 0).trans ?_
    rw [runSteps, show s.env.time + call.length + 1 + low.length + 1 =
      s.env.time + call.length + low.length + 2 by omega]
    rfl
  · have hrun := hserving (low.take k) (low.drop k) (List.take_append_drop k low).symm
    rw [List.length_take_of_le hk, Nat.add_right_comm] at hrun
    exact ⟨_, hrun, by rw [response, hv]; rfl, rfl, rfl⟩

end Sys2Proof.Machine
end
